-- ==== Sys2Proof/Word.lean ====
section
/-!
DEFINITION. The word type of the register interface and the bit-string type of the message stream
(spec/00_scope.md rules R12, R13).
-/
namespace Sys2Proof

/-- A word of the register interface and a command word: 32 bits, bit 0 least significant (R12, R41, R90). -/
abbrev Word := BitVec 32

/-- A bit-string, first bit first (R13). -/
abbrev Bits := List Bool

end Sys2Proof
end

