-- ==== Sys2Proof/Config.lean ====
section
/-!
DEFINITION. The parameters of an instance (spec/00_scope.md rule R10): fixed when the instance is built, never changed.
-/
namespace Sys2Proof

/-- The four free parameters of R10; the others are derived from them. -/
structure Params where
  /-- `SYM_W`, the width of a symbol in bits. -/
  symW : Nat
  /-- `CNT_W`, the width of a frequency count in bits. -/
  cntW : Nat
  /-- `MSG_CAP`, the capacity of the message stream in bits. -/
  msgCap : Nat
  /-- `OUT_CAP`, the capacity of the output buffer in symbols. -/
  outCap : Nat
  deriving DecidableEq, Repr

/-- `NSYM`, the number of distinct symbols (R10). -/
def Params.nsym (p : Params) : Nat := 2 ^ p.symW

/-- `NODE_MAX`, the number of node entries (R10). -/
def Params.nodeMax (p : Params) : Nat := 2 * p.nsym - 1

/-- `NIDX_W`, the width of a node index (R10). -/
def Params.nidxW (p : Params) : Nat := p.symW + 1

/-- `LMAX`, the longest code in bits (R10, R11). -/
def Params.lmax (p : Params) : Nat := p.nsym - 1

/-- `CNT_MAX`, the largest count (R10). -/
def Params.cntMax (p : Params) : Nat := 2 ^ p.cntW - 1

/-- The legal values of R10's table. -/
abbrev Params.Legal (p : Params) : Prop :=
  (1 ≤ p.symW ∧ p.symW ≤ 8) ∧ (1 ≤ p.cntW ∧ p.cntW ≤ 32) ∧
    (p.msgCap % 32 = 0 ∧ p.msgCap ≤ 2 ^ 28) ∧ p.outCap ≤ 2 ^ 24

/-- The default instance of R10, the one spec/95_test_vectors.md uses.
DESIGN CHOICE (log entry 3): `State.reset` is this instance; every other legal one is a state too. -/
def Params.reference : Params := { symW := 8, cntW := 32, msgCap := 65536, outCap := 4096 }

end Sys2Proof
end

