-- ==== Sys2Proof/Syntax.lean ====
section
/-!
DEFINITION. The commands of the block: one constructor per row of spec/opcode_table.json (spec/30_encoding.md rule R96).
-/
namespace Sys2Proof

/-- A command with its operand. A symbol operand has the widest `SYM_W`, a node operand the widest `NIDX_W` (R10);
`Instr.wf` says when one fits a narrower instance. -/
inductive Instr where
  | nop                        -- R200, format N
  | clr                        -- R201, format N
  | count (sym : BitVec 8)     -- R120, format S
  | build                      -- R134, format N
  | genc                       -- R150, format N
  | pack (sym : BitVec 8)      -- R161, format S
  | putbit (bit : Bool)        -- R162, format B
  | mclr                       -- R163, format N
  | adopt (node : BitVec 9)    -- R138, format I
  | dstart                     -- R183, format N
  | unpack                     -- R184, format N
  | dend                       -- R185, format N
  | drun                       -- R186, format N
  | errack                     -- R202, format N
  deriving DecidableEq, Repr

end Sys2Proof
end

