-- ==== Sys2Proof/WellFormed.lean ====
section
/-!
DEFINITION. When a command fits an instance: its operand fits the field the instance's parameters give it
(spec/30_encoding.md rules R92 to R95).
-/
namespace Sys2Proof

/-- A symbol operand has `SYM_W` bits (R92), a node operand `NIDX_W` bits (R94); the other formats always fit. -/
def Instr.wf (p : Params) : Instr → Bool
  | .count sym | .pack sym => decide (sym.toNat < 2 ^ p.symW)
  | .adopt node => decide (node.toNat < 2 ^ p.nidxW)
  | .nop | .clr | .build | .genc | .putbit _ | .mclr | .dstart | .unpack | .dend | .drun | .errack => true

end Sys2Proof
end

