-- ==== Sys2Proof/Decode.lean ====
section
/-!
DEFINITION. Command words (spec/30_encoding.md rules R90 to R99): the decoder, total on all words, and the encoder.
-/
namespace Sys2Proof

/-- Why a word is no command: R97, R98. -/
inductive DecodeError where
  /-- The opcode is one of `0x0E` to `0xFF` (R97). -/
  | reservedOpcode
  /-- The opcode is defined and a must-be-zero bit is set (R98). -/
  | mustBeZero
  deriving DecidableEq, Repr

/-- The sub-cause of `IllegalCommand` (R97, R98, R230). -/
def DecodeError.subCause : DecodeError → BitVec 4
  | .reservedOpcode => 1
  | .mustBeZero => 2

/-- `op`, bits 31:24 (R90). -/
def opField (w : Word) : BitVec 8 := w.extractLsb' 24 8

/-- `arg`, bits 23:0 (R90). -/
def argField (w : Word) : BitVec 24 := w.extractLsb' 0 24

/-- Bits 23 down to `n` of `arg`, the must-be-zero bits of a format whose operand has `n` bits, are zero. -/
abbrev restIsZero (n : Nat) (arg : BitVec 24) : Prop := arg >>> n = 0#24

/-- Format N, no operand (R91). -/
def formatN (arg : BitVec 24) (i : Instr) : Except DecodeError Instr :=
  if restIsZero 0 arg then .ok i else .error .mustBeZero

/-- Format S, a symbol in bits `SYM_W-1`:0 (R92). -/
def formatS (p : Params) (arg : BitVec 24) (mk : BitVec 8 → Instr) : Except DecodeError Instr :=
  if restIsZero p.symW arg then .ok (mk (arg.setWidth 8)) else .error .mustBeZero

/-- Format B, a bit in bit 0 (R93). -/
def formatB (arg : BitVec 24) (mk : Bool → Instr) : Except DecodeError Instr :=
  if restIsZero 1 arg then .ok (mk (arg.getLsbD 0)) else .error .mustBeZero

/-- Format I, a node index in bits `NIDX_W-1`:0 (R94). -/
def formatI (p : Params) (arg : BitVec 24) (mk : BitVec 9 → Instr) : Except DecodeError Instr :=
  if restIsZero p.nidxW arg then .ok (mk (arg.setWidth 9)) else .error .mustBeZero

/-- The decoder of an instance: the opcode map of R96, the reserved opcodes of R97, the must-be-zero bits of R98. -/
def decode (p : Params) (w : Word) : Except DecodeError Instr :=
  let arg := argField w
  match (opField w).toNat with
  | 0x00 => formatN arg .nop
  | 0x01 => formatN arg .clr
  | 0x02 => formatS p arg .count
  | 0x03 => formatN arg .build
  | 0x04 => formatN arg .genc
  | 0x05 => formatS p arg .pack
  | 0x06 => formatB arg .putbit
  | 0x07 => formatN arg .mclr
  | 0x08 => formatI p arg .adopt
  | 0x09 => formatN arg .dstart
  | 0x0A => formatN arg .unpack
  | 0x0B => formatN arg .dend
  | 0x0C => formatN arg .drun
  | 0x0D => formatN arg .errack
  | _ => .error .reservedOpcode

/-- The opcode of a command (R96). -/
def Instr.opcode : Instr → BitVec 8
  | .nop => 0x00
  | .clr => 0x01
  | .count _ => 0x02
  | .build => 0x03
  | .genc => 0x04
  | .pack _ => 0x05
  | .putbit _ => 0x06
  | .mclr => 0x07
  | .adopt _ => 0x08
  | .dstart => 0x09
  | .unpack => 0x0A
  | .dend => 0x0B
  | .drun => 0x0C
  | .errack => 0x0D

/-- The `arg` of a command: its operand, the bits above it zero (R91 to R94). -/
def Instr.operandBits : Instr → BitVec 24
  | .count sym | .pack sym => sym.setWidth 24
  | .putbit bit => (BitVec.ofBool bit).setWidth 24
  | .adopt node => node.setWidth 24
  | .nop | .clr | .build | .genc | .mclr | .dstart | .unpack | .dend | .drun | .errack => 0

/-- The one word of a command (R90). -/
def encode (i : Instr) : Word := (i.opcode ++ i.operandBits : BitVec (8 + 24))

/-- What the decoder of the default instance reads from a word whose low `nbits` bits are those of `w` and whose
other bits are zero. -/
def decodeTableWord (nbits w : Nat) : Option Instr :=
  (decode Params.reference (BitVec.ofNat 32 (w % 2 ^ nbits))).toOption

end Sys2Proof
end

