-- ==== Sys2Proof/Machine/State.lean ====
section
/-!
DEFINITION. The state of one instance (spec/10_state.md rule R22), its reset value (R54), and the reasons a step can stop.
-/
namespace Sys2Proof.Machine

/-- A store of the block (R61): the entries that differ from the store's default, by rising index. -/
abbrev Store (α : Type) := List (Nat × α)

/-- The `kind` of a node entry (R27); the value 3 is never stored (R48). -/
inductive Kind where
  | empty
  | leaf
  | internal
  deriving DecidableEq, Repr

/-- One entry of `NODE` (R27). -/
structure NodeEntry where
  kind : Kind
  freq : Nat
  sym : Nat
  left : Nat
  right : Nat
  deriving DecidableEq, Repr

/-- The entry with `kind` `EMPTY` and all other fields 0 (R54). -/
def NodeEntry.blank : NodeEntry := { kind := .empty, freq := 0, sym := 0, left := 0, right := 0 }

/-- One entry of `BOOK` (R31); its `len` is the length of `code` (log entry 6). -/
structure BookEntry where
  valid : Bool
  code : Bits
  deriving DecidableEq, Repr

/-- The invalid entry: `valid` 0, `len` 0, `code` empty (R31, R54). -/
def BookEntry.blank : BookEntry := { valid := false, code := [] }

/-- The values of `ERR` by name (R232). -/
inductive ErrCode where
  | none
  | unknownSymbol
  | malformedInput
  | internalFault
  | illegalCommand
  | countOverflow
  | msgOverflow
  | outOverflow
  | badTree
  deriving DecidableEq, Repr

/-- One access of the host to the instance (R18, R60), by byte offset and width in bytes, and reset (R260).
The model's own type: DESIGN CHOICE, log entries 1 and 4. -/
inductive Access where
  | read (offset width : Nat)
  | write (offset width : Nat) (value : Word)
  | reset
  deriving DecidableEq, Repr

/-- The state of one instance: the elements of R22, the instance's parameters (R10), and the host's side. -/
structure State where
  /-- The parameters, changed by nothing (R10; log entry 3). -/
  params : Params
  /-- `FREQ` (R24), default entry 0. -/
  freq : Store Nat
  /-- `TOTAL` (R25). -/
  total : Nat
  /-- `FLOCK` (R26). -/
  flock : Bool
  /-- `NODE` (R27), default entry `NodeEntry.blank`. -/
  node : Store NodeEntry
  /-- `SEQ` (R28). -/
  seq : Nat
  /-- `ROOT` (R29). -/
  root : Nat
  /-- `TREE_VALID` (R29). -/
  treeValid : Bool
  /-- `BOOK` (R31), default entry `BookEntry.blank`. -/
  book : Store BookEntry
  /-- `MSG[0 .. MSG_LEN-1]`, first bit first (R33); `MSG_LEN` is its length. -/
  msg : Bits
  /-- `MSG_RD` (R33). -/
  msgRd : Nat
  /-- `CUR` (R34). -/
  cur : Nat
  /-- `OUT[0 .. OUT_CNT-1]` (R35); `OUT_CNT` is its length. -/
  out : List Nat
  /-- `DEC_DONE` (R35). -/
  decDone : Bool
  /-- `ERR` (R36). -/
  err : ErrCode
  /-- `ERRSUB` (R36). -/
  errSub : BitVec 4
  /-- `ERRINFO` (R36). -/
  errInfo : Word
  /-- `IDX` (R37). -/
  idx : Word
  /-- The model's own: the host's accesses still to be made, the next one first (log entry 1). -/
  pending : List Access
  /-- The model's own: the word the last access returned to the host (log entry 1). -/
  reply : Option Word
  deriving DecidableEq, Repr

/-- The reset state of an instance with parameters `p` (R54, R260), no access waiting. -/
def State.resetWith (p : Params) : State :=
  { params := p
    freq := []
    total := 0
    flock := false
    node := []
    seq := 0
    root := 0
    treeValid := false
    book := []
    msg := []
    msgRd := 0
    cur := 0
    out := []
    decDone := false
    err := .none
    errSub := 0
    errInfo := 0
    idx := 0
    pending := []
    reply := none }

/-- The default instance right after reset (R54). -/
def State.reset : State := State.resetWith Params.reference

/-- Why the machine stops with a fault. -/
inductive Fault where
  /-- Raised by `GENC` when the walk of R151 never ends: a stuck state. It needs a present tree with a cycle, which
  `WellFormedTree` rules out (R30, R53 item 3), so no state a run reaches raises it. Safe. -/
  | endlessWalk
  deriving DecidableEq, Repr

/-- Why the machine gives an input no meaning. -/
inductive Refusal where
  /-- An instruction without a meaning in `exec`: none is left. Safe. -/
  | notModelled (mnemonic : String)
  /-- Raised by a host access that is not 4 bytes wide at a multiple of 4 in `0x00 .. 0xFC`: not part of the
  interface, "A model refuses it" (R64). Safe. -/
  | outsideInterface (offset width : Nat)
  deriving DecidableEq, Repr

/-- What a command, an access or a step answers. -/
abbrev Result := Host.Outcome State Fault Refusal

end Sys2Proof.Machine
end

