-- ==== Sys2Proof/Machine/Ops.lean ====
section
/-!
DEFINITION. The named operations over the stores and the state: reading and writing an entry, the helpers of
spec/10_state.md rules R38 and R39, taking an error and returning from one (spec/60_exceptions.md rules R220 to R222, R237,
R238), the shifter's append (spec/43_pack.md rule R160) and the decoder's helpers (spec/44_unpack.md rule R181).
-/
namespace Sys2Proof.Machine

/-! ## Stores -/

/-- The entry at index `i`, the default `d` where none is listed. -/
def Store.get {α : Type} (d : α) : Store α → Nat → α
  | [], _ => d
  | (k, v) :: m, i => if k = i then v else Store.get d m i

/-- The store without the entry at `i`. -/
def Store.erase {α : Type} (m : Store α) (i : Nat) : Store α := m.filter fun e => e.1 ≠ i

/-- The store with the entry `(i, v)` put before the first higher index. -/
def Store.insert {α : Type} : Store α → Nat → α → Store α
  | [], i, v => [(i, v)]
  | (k, w) :: m, i, v => if i < k then (i, v) :: (k, w) :: m else (k, w) :: Store.insert m i v

/-- The store with `v` at index `i`; writing the default removes the entry, so that equal stores are equal lists. -/
def Store.set {α : Type} [DecidableEq α] (d : α) (m : Store α) (i : Nat) (v : α) : Store α :=
  if v = d then Store.erase m i else Store.insert (Store.erase m i) i v

/-- The canonical form: indices strictly rising, no entry equal to the default. -/
def Store.wf {α : Type} [DecidableEq α] (d : α) (m : Store α) : Bool :=
  decide ((m.map Prod.fst).Pairwise (· < ·)) && m.all fun e => decide (e.2 ≠ d)

/-- The stores of a state are in canonical form. -/
def Memory.wf (s : State) : Bool :=
  Store.wf 0 s.freq && Store.wf NodeEntry.blank s.node && Store.wf BookEntry.blank s.book

/-- `FREQ[s]` (R24). -/
def State.freqAt (s : State) (sym : Nat) : Nat := Store.get 0 s.freq sym

/-- `NODE[i]` (R27). An index of no entry, `NODE_MAX` and above, reads as `EMPTY` (DEDUCED, log entry 7). -/
def nodeGet (p : Params) (node : Store NodeEntry) (i : Nat) : NodeEntry :=
  if i < p.nodeMax then Store.get NodeEntry.blank node i else NodeEntry.blank

/-- `NODE[i]` of a state. -/
def State.nodeAt (s : State) (i : Nat) : NodeEntry := nodeGet s.params s.node i

/-- `BOOK[s]` (R31). -/
def State.bookAt (s : State) (sym : Nat) : BookEntry := Store.get BookEntry.blank s.book sym

/-- `BOOK[s].len` (R31). -/
def BookEntry.len (e : BookEntry) : Nat := e.code.length

/-- `MSG_LEN` (R33). -/
def State.msgLen (s : State) : Nat := s.msg.length

/-- `MSG[k]`; a position that holds no bit reads 0 (R33, R50). -/
def State.msgBit (s : State) (k : Nat) : Bool := s.msg.getD k false

/-- `OUT_CNT` (R35). -/
def State.outCnt (s : State) : Nat := s.out.length

/-! ## Helpers of 10_state.md -/

/-- `DecodeRewind()` (R38). -/
def State.decodeRewind (s : State) : State :=
  { s with msgRd := 0, out := [], decDone := false, cur := s.root }

/-- `BookClear()` (R39). -/
def State.bookClear (s : State) : State := { s with book := [] }

/-! ## Errors: entry and return -/

/-- `raise E(sub)` inside the command with word `w` (R221, R237): the three error registers are saved and the command
ends; nothing else is written and control goes nowhere. -/
def State.raise (s : State) (e : ErrCode) (sub : BitVec 4) (w : Word) : State :=
  { s with err := e, errSub := sub, errInfo := w }

/-- The return from an error (R202, R238): the three error registers are cleared and nothing else. -/
def State.errClear (s : State) : State := { s with err := .none, errSub := 0, errInfo := 0 }

/-- The frozen test of a command other than `NOP`, `CLR` and `ERRACK` (R106 lines 1 and 2, R222): while `ERR != 0` the
command is ignored. -/
def whenLive (s : State) (body : Result) : Result :=
  if s.err = .none then body else .next s

/-- What a word that is no command does (R97, R98, R106 lines 2 to 4): `IllegalCommand` with the sub-cause, nothing while
frozen. -/
def rejectWord (e : DecodeError) (w : Word) (s : State) : Result :=
  whenLive s (.next (s.raise .illegalCommand e.subCause w))

/-! ## Stream and output -/

/-- `Append(c)` (R160). -/
def State.append (s : State) (c : Bits) : State := { s with msg := s.msg ++ c }

/-- `Emit(sym)` (R181). -/
def State.emit (s : State) (sym : Nat) : State := { s with out := s.out ++ [sym] }

/-- `DecodeFail(E, sub)` (R181): the decoded symbols are dropped, then the error is raised. -/
def State.decodeFail (s : State) (e : ErrCode) (sub : BitVec 4) (w : Word) : State :=
  { s with out := [] }.raise e sub w

/-- Reset of the instance (R260): the state of R54; the parameters and the accesses still waiting stay. -/
def State.resetInstance (s : State) : State :=
  { State.resetWith s.params with pending := s.pending }

end Sys2Proof.Machine
end

