-- ==== Sys2Proof/Machine/Operands.lean ====
section
/-!
DEFINITION. Operand forms (spec/30_encoding.md rules R92 to R95) and the bit fields of host words (spec/00_scope.md rule R12,
spec/20_memory.md rule R62).
-/
namespace Sys2Proof.Machine

/-- A symbol operand, read as an unsigned integer (R92, R95). -/
def symOperand (sym : BitVec 8) : Nat := sym.toNat

/-- A bit operand, as the bit-string of length 1 that `PUTBIT` appends (R93, R162). -/
def bitOperand (bit : Bool) : Bits := [bit]

/-- A node operand, read as an unsigned integer (R94, R95). -/
def nodeOperand (node : BitVec 9) : Nat := node.toNat

/-- The field `v[lo+len-1 : lo]`, read as an unsigned integer (R12). -/
def fieldOf (v : Word) (lo len : Nat) : Nat := (v >>> lo).toNat % 2 ^ len

/-- `zext_32` of a value (R12). -/
def zext32 (n : Nat) : Word := BitVec.ofNat 32 n

/-- The word whose bit `31 - j` is bit `j` of `f`: first bit highest (R49, R50, R62). -/
def packWord (f : Nat → Bool) : Word := BitVec.ofFnBE fun j : Fin 32 => f j.val

end Sys2Proof.Machine
end

