-- ==== Sys2Proof/Machine/Flags.lean ====
section
/-!
DEFINITION. The computed flags and the `STATUS` word (spec/10_state.md rule R43; codes of spec/60_exceptions.md rule R232).
-/
namespace Sys2Proof.Machine

/-- The value of `ERR` (R232). -/
def ErrCode.value : ErrCode → BitVec 4
  | .none => 0
  | .unknownSymbol => 1
  | .malformedInput => 2
  | .internalFault => 3
  | .illegalCommand => 4
  | .countOverflow => 5
  | .msgOverflow => 6
  | .outOverflow => 7
  | .badTree => 8

/-- `AT_ROOT`: 1 when `CUR = ROOT`. -/
def State.atRoot (s : State) : Bool := decide (s.cur = s.root)

/-- `MSG_END`: 1 when `MSG_RD = MSG_LEN`. -/
def State.msgEnd (s : State) : Bool := decide (s.msgRd = s.msgLen)

/-- `FATAL`: 1 when `ERR = 3`. -/
def State.fatal (s : State) : Bool := decide (s.err = .internalFault)

/-- `STATUS`, highest field first (R43). -/
def State.status (s : State) : Word :=
  (0#15 ++ BitVec.ofBool s.fatal ++ s.errSub ++ s.err.value ++ 0#3 ++ BitVec.ofBool s.msgEnd ++ BitVec.ofBool s.atRoot
    ++ BitVec.ofBool s.decDone ++ BitVec.ofBool s.flock ++ BitVec.ofBool s.treeValid :
    BitVec (15 + 1 + 4 + 4 + 3 + 1 + 1 + 1 + 1 + 1))

end Sys2Proof.Machine
end

