-- ==== Sys2Proof/Machine/Codebook.lean ====
section
/-!
DEFINITION. Code book derivation (spec/42_codebook.md).
-/
namespace Sys2Proof.Machine

/-- Why the walk of R151 stops short. -/
inductive WalkStop where
  /-- It meets an `EMPTY` entry. -/
  | emptyEntry
  /-- It never ends: a path longer than there are nodes goes in a circle. -/
  | endless
  deriving DecidableEq, Repr

/-- `Walk(i, p)` (R151): the leaves below `i` in the order of the visit, each as its symbol and the path `p` extended to
it. A path has at most `n` nodes. -/
def walk (s : State) : Nat → Nat → Bits → Except WalkStop (List (Nat × Bits))
  | 0, _, _ => .error .endless
  | n + 1, i, p =>
    let e := s.nodeAt i
    match e.kind with
    | .leaf => .ok [(e.sym, p)]
    | .internal =>
      match walk s n e.left (p ++ [false]) with
      | .error stop => .error stop
      | .ok l =>
        match walk s n e.right (p ++ [true]) with
        | .error stop => .error stop
        | .ok r => .ok (l ++ r)
    | .empty => .error .emptyEntry

/-- `BOOK[sym] <- (valid 1, len len(c), code c)` for each leaf of a walk, in its order (R151). -/
def fillBook (leaves : List (Nat × Bits)) : Store BookEntry :=
  leaves.foldl (fun m leaf => Store.set BookEntry.blank m leaf.1 { valid := true, code := leaf.2 }) []

/-- `GENC` (R150, R152). -/
def execGenc (s : State) : Result :=
  whenLive s <|
    if s.treeValid then
      if (s.nodeAt s.root).kind = .leaf then
        .next { s.bookClear with book := fillBook [((s.nodeAt s.root).sym, [false])] }
      else
        match walk s (s.params.nodeMax + 1) s.root [] with
        | .ok leaves => .next { s.bookClear with book := fillBook leaves }
        | .error .emptyEntry => .next (s.raise .internalFault 3 (encode .genc))   -- not reachable (DEDUCED, log entry 9)
        | .error .endless => .fault .endlessWalk                                  -- not reachable (log entry 8)
    else .next s.bookClear

end Sys2Proof.Machine
end

