-- ==== Sys2Proof/Machine/Frequency.lean ====
section
/-!
DEFINITION. Frequency counting (spec/40_frequency.md).
-/
namespace Sys2Proof.Machine

/-- `COUNT sym` (R120). -/
def execCount (sym : BitVec 8) (s : State) : Result :=
  let k := symOperand sym
  whenLive s <|
    if s.flock then .next (s.raise .illegalCommand 3 (encode (.count sym)))
    else if s.total = s.params.cntMax then .next (s.raise .countOverflow 0 (encode (.count sym)))
    else .next { s with freq := Store.set 0 s.freq k (s.freqAt k + 1), total := s.total + 1 }

end Sys2Proof.Machine
end

