-- ==== Sys2Proof/Machine/Pack.lean ====
section
/-!
DEFINITION. Packing and the stream's write side (spec/43_pack.md).
-/
namespace Sys2Proof.Machine

/-- `PACK sym` (R161): the entry's length steers the shifter. -/
def execPack (sym : BitVec 8) (s : State) : Result :=
  let entry := s.bookAt (symOperand sym)
  whenLive s <|
    if entry.valid then
      if s.params.msgCap < s.msgLen + entry.len then .next (s.raise .msgOverflow 0 (encode (.pack sym)))
      else .next (s.append entry.code)
    else .next (s.raise .unknownSymbol 0 (encode (.pack sym)))

/-- `PUTBIT bit` (R162). -/
def execPutbit (bit : Bool) (s : State) : Result :=
  whenLive s <|
    if s.msgLen = s.params.msgCap then .next (s.raise .msgOverflow 0 (encode (.putbit bit)))
    else .next (s.append (bitOperand bit))

/-- `MCLR` (R163). -/
def execMclr (s : State) : Result :=
  whenLive s <| .next { s with msg := [] }.decodeRewind

end Sys2Proof.Machine
end

