-- ==== Sys2Proof/Machine/System.lean ====
section
/-!
DEFINITION. The system commands (spec/45_system.md).
-/
namespace Sys2Proof.Machine

/-- `NOP` (R200): runs always and changes nothing. -/
def execNop (s : State) : Result := .next s

/-- `CLR` (R201): every element but `IDX` to its reset value; ignored after the fatal `InternalFault` (R225). -/
def execClr (s : State) : Result :=
  if s.err = .internalFault then .next s
  else
    .next
      { s with
        freq := [], total := 0, flock := false, node := [], seq := 0, root := 0, treeValid := false,
        msg := [] }.bookClear.decodeRewind.errClear

/-- `ERRACK` (R202): the return from a non-fatal error. -/
def execErrack (s : State) : Result :=
  if s.err = .none ∨ s.err = .internalFault then .next s else .next s.errClear

end Sys2Proof.Machine
end

