-- ==== Sys2Proof/Machine/Tree.lean ====
section
/-!
DEFINITION. Tree construction and adoption (spec/41_tree.md): `Less`, the priority structure, `BUILD`, `WellFormedTree`, `ADOPT`.
-/
namespace Sys2Proof.Machine

/-- `Less(x, y)` (R131); `none` where it meets an `EMPTY` entry, which raises `InternalFault(1)`. -/
def less (p : Params) (node : Store NodeEntry) (x y : Nat) : Option Bool :=
  let nx := nodeGet p node x
  let ny := nodeGet p node y
  if nx.freq ≠ ny.freq then some (decide (nx.freq < ny.freq))
  else
    match nx.kind, ny.kind with
    | .leaf, .leaf => some (decide (nx.sym < ny.sym))
    | .internal, .internal => some (decide (x < y))
    | .leaf, .internal => some true
    | .internal, .leaf => some false
    | .empty, _ => none
    | _, .empty => none

/-- The minimum under `Less` of `m` and the members of a list (R133). -/
def minimum (p : Params) (node : Store NodeEntry) : Nat → List Nat → Option Nat
  | m, [] => some m
  | m, x :: q =>
    match less p node x m with
    | none => none
    | some true => minimum p node x q
    | some false => minimum p node m q

/-- "Dequeue the minimum" of a non-empty priority structure, a list of node indices (R133). -/
def dequeue (p : Params) (node : Store NodeEntry) : List Nat → Option (Nat × List Nat)
  | [] => none
  | x :: q => (minimum p node x q).map fun m => (m, (x :: q).erase m)

/-- What `BUILD` works on: `NODE`, `SEQ` and the priority structure `Q` (R133, R134). -/
structure Forest where
  node : Store NodeEntry
  seq : Nat
  queue : List Nat
  deriving DecidableEq, Repr

/-- A new node gets the next creation order and enters the priority structure `q` (R134 steps 2 to 4). -/
def Forest.create (f : Forest) (q : List Nat) (e : NodeEntry) : Forest :=
  { node := Store.set NodeEntry.blank f.node f.seq e, seq := f.seq + 1, queue := f.seq :: q }

/-- The leaf of a symbol with a count (R134 steps 2 and 3). -/
def plantLeaf (freqOf : Nat → Nat) (f : Forest) (sym : Nat) : Forest :=
  if 0 < freqOf sym then f.create f.queue { kind := .leaf, freq := freqOf sym, sym := sym, left := 0, right := 0 } else f

/-- A leaf per symbol with a count, in the order of the symbols (R134 steps 1 to 3). -/
def plantLeaves (freqOf : Nat → Nat) (symbols : List Nat) : Forest :=
  symbols.foldl (plantLeaf freqOf) { node := [], seq := 0, queue := [] }

/-- One merge (R134 step 4): dequeue the two minimum nodes, first then second, and join them. -/
def mergeOnce (p : Params) (f : Forest) : Option Forest :=
  match dequeue p f.node f.queue with
  | none => none
  | some (a, q1) =>
    match dequeue p f.node q1 with
    | none => none
    | some (b, q2) =>
      some (f.create q2
        { kind := .internal
          freq := (nodeGet p f.node a).freq + (nodeGet p f.node b).freq
          sym := 0
          left := a
          right := b })

/-- "While more than one node remains" (R134 step 4), at most `n` merges. -/
def mergeAll (p : Params) : Nat → Forest → Option Forest
  | 0, f => some f
  | n + 1, f =>
    if f.queue.length ≤ 1 then some f
    else
      match mergeOnce p f with
      | none => none
      | some g => mergeAll p n g

/-- The forest `BUILD` ends with (R134 steps 1 to 4): as many leaves as merges suffice. -/
def growForest (p : Params) (freqOf : Nat → Nat) : Option Forest :=
  let f := plantLeaves freqOf (List.range p.nsym)
  mergeAll p f.queue.length f

/-- The state after `BUILD` with the final forest `f` (R134 step 5 and the lines around it). -/
def State.withForest (s : State) (f : Forest) : State :=
  State.decodeRewind <|
    State.bookClear <|
      match f.queue with
      | [r] => { s with seq := f.seq, node := f.node, flock := true, root := r, treeValid := true }
      | _ => { s with seq := f.seq, node := f.node, flock := true, root := 0, treeValid := false }

/-- `BUILD` (R134). -/
def execBuild (s : State) : Result :=
  whenLive s <|
    match growForest s.params s.freqAt with
    | none => .next (s.raise .internalFault 1 (encode .build))   -- not reachable (R135 item 5; DEDUCED, log entry 9)
    | some f => .next (s.withForest f)

/-- `WF(i)` of R137, threading `seen`: the symbols met so far with those below `i` added, `none` where the tree is not well
formed. The children of an index are below it, so `n` levels suffice for every `i < n`. -/
def wellFormedFrom (s : State) : Nat → Nat → List Nat → Option (List Nat)
  | 0, _, _ => none
  | n + 1, i, seen =>
    let e := s.nodeAt i
    match e.kind with
    | .leaf => if e.freq = 0 ∨ e.sym ∈ seen then none else some (e.sym :: seen)
    | .internal =>
      if i ≤ e.left ∨ i ≤ e.right then none
      else
        match wellFormedFrom s n e.left seen with
        | none => none
        | some seenL =>
          match wellFormedFrom s n e.right seenL with
          | none => none
          | some seenR =>
            if e.freq = (s.nodeAt e.left).freq + (s.nodeAt e.right).freq then some seenR else none
    | .empty => none

/-- `WellFormedTree(r)` (R137). -/
def State.wellFormedTree (s : State) (r : Nat) : Bool :=
  decide (r < s.params.nodeMax) && (wellFormedFrom s (r + 1) r []).isSome

/-- `ADOPT node` (R138). -/
def execAdopt (node : BitVec 9) (s : State) : Result :=
  let r := nodeOperand node
  whenLive s <|
    if s.wellFormedTree r then .next { s with root := r, treeValid := true }.bookClear.decodeRewind
    else .next (s.raise .badTree 0 (encode (.adopt node)))

end Sys2Proof.Machine
end

