-- ==== Sys2Proof/Machine/Unpack.lean ====
section
/-!
DEFINITION. Unpacking and the stream's read side (spec/44_unpack.md).
-/
namespace Sys2Proof.Machine

/-- The child the cursor moves to from node `i` on bit `b`: left on 0, right on 1 (R180, R182). -/
def State.child (s : State) (i : Nat) (b : Bool) : Nat :=
  if b then (s.nodeAt i).right else (s.nodeAt i).left

/-- `UnpackStep()` inside the command with word `w` (R182): `error` is the state a failing step leaves. -/
def unpackStep (w : Word) (s : State) : Except State State :=
  if s.treeValid then
    if (s.nodeAt s.root).kind = .leaf then
      if s.outCnt = s.params.outCap then .error (s.decodeFail .outOverflow 0 w)
      else .ok { s.emit (s.nodeAt s.root).sym with msgRd := s.msgRd + 1 }
    else if (s.nodeAt s.cur).kind = .internal then
      let nxt := s.child s.cur (s.msgBit s.msgRd)
      match (s.nodeAt nxt).kind with
      | .leaf =>
        if s.outCnt = s.params.outCap then .error (s.decodeFail .outOverflow 0 w)
        else .ok { s.emit (s.nodeAt nxt).sym with cur := s.root, msgRd := s.msgRd + 1 }
      | .internal => .ok { s with cur := nxt, msgRd := s.msgRd + 1 }
      | .empty => .error (s.decodeFail .internalFault 2 w)        -- not reachable (R225)
    else .error (s.decodeFail .malformedInput 3 w)                -- not reachable (R182, 90_conflicts.md C6)
  else .error (s.decodeFail .malformedInput 2 w)

/-- The end-of-input check inside the command with word `w` (R185, R186). -/
def endCheck (w : Word) (s : State) : State :=
  if s.cur = s.root then { s with decDone := true } else s.decodeFail .malformedInput 1 w

/-- `n` turns of the loop of `DRUN`, an error ending it at once (R186). -/
def unpackLoop (w : Word) : Nat → State → Except State State
  | 0, s => .ok s
  | n + 1, s =>
    match unpackStep w s with
    | .error t => .error t
    | .ok t => unpackLoop w n t

/-- `DSTART` (R183). -/
def execDstart (s : State) : Result :=
  whenLive s <| .next s.decodeRewind

/-- `UNPACK` (R184). It "may run when" `MSG_RD < MSG_LEN`; `MSG_RD` never passes `MSG_LEN` (R33). -/
def execUnpack (s : State) : Result :=
  whenLive s <|
    if s.decDone then .next (s.raise .illegalCommand 3 (encode .unpack))
    else if s.msgRd < s.msgLen then
      match unpackStep (encode .unpack) s with
      | .error t => .next t
      | .ok t => .next t
    else .next (s.raise .illegalCommand 3 (encode .unpack))

/-- `DEND` (R185). -/
def execDend (s : State) : Result :=
  whenLive s <|
    if s.decDone then .next (s.raise .illegalCommand 3 (encode .dend))
    else if s.msgRd = s.msgLen then .next (endCheck (encode .dend) s)
    else .next (s.raise .illegalCommand 3 (encode .dend))

/-- `DRUN` (R186): each turn takes one bit, so `MSG_LEN - MSG_RD` turns take the rest of the stream. -/
def execDrun (s : State) : Result :=
  whenLive s <|
    if s.decDone then .next (s.raise .illegalCommand 3 (encode .drun))
    else
      match unpackLoop (encode .drun) (s.msgLen - s.msgRd) s with
      | .error t => .next t
      | .ok t => .next (endCheck (encode .drun) t)

end Sys2Proof.Machine
end

