-- ==== Sys2Proof/Machine/Dispatch.lean ====
section
/-!
DEFINITION. The meaning of every command, one arm per constructor (spec/30_encoding.md rule R106 line 5).
-/
namespace Sys2Proof.Machine

def exec (i : Instr) (s : State) : Host.Outcome State Fault Refusal :=
  match i with
  | .nop => Sys2Proof.Machine.execNop s
  | .clr => Sys2Proof.Machine.execClr s
  | .count sym => Sys2Proof.Machine.execCount sym s
  | .build => Sys2Proof.Machine.execBuild s
  | .genc => Sys2Proof.Machine.execGenc s
  | .pack sym => Sys2Proof.Machine.execPack sym s
  | .putbit bit => Sys2Proof.Machine.execPutbit bit s
  | .mclr => Sys2Proof.Machine.execMclr s
  | .adopt node => Sys2Proof.Machine.execAdopt node s
  | .dstart => Sys2Proof.Machine.execDstart s
  | .unpack => Sys2Proof.Machine.execUnpack s
  | .dend => Sys2Proof.Machine.execDend s
  | .drun => Sys2Proof.Machine.execDrun s
  | .errack => Sys2Proof.Machine.execErrack s

end Sys2Proof.Machine
end

