-- ==== Sys2Proof/Machine/Registers.lean ====
section
/-!
DEFINITION. The host-visible registers (spec/10_state.md rules R41 to R52; spec/20_memory.md rules R68 to R71).
-/
namespace Sys2Proof.Machine

/-- The registers of R41. -/
inductive Reg where
  | cmd
  | status
  | errInfo
  | total
  | seq
  | root
  | cur
  | msgLen
  | msgRd
  | outCnt
  | idx
  | freqD
  | nodeK
  | nodeF
  | nodeC
  | msgD
  | outD
  | bookLen
  | bookCode (w : Nat)
  | param
  | msgCapR
  | outCapR
  | reserved
  deriving DecidableEq, Repr

/-- The register at a byte offset (the map of R41). -/
def regAt (off : Nat) : Reg :=
  if off = 0x00 then .cmd
  else if off = 0x04 then .status
  else if off = 0x08 then .errInfo
  else if off = 0x0C then .total
  else if off = 0x10 then .seq
  else if off = 0x14 then .root
  else if off = 0x18 then .cur
  else if off = 0x1C then .msgLen
  else if off = 0x20 then .msgRd
  else if off = 0x24 then .outCnt
  else if off = 0x28 then .idx
  else if off = 0x2C then .freqD
  else if off = 0x30 then .nodeK
  else if off = 0x34 then .nodeF
  else if off = 0x38 then .nodeC
  else if off = 0x3C then .msgD
  else if off = 0x40 then .outD
  else if off = 0x44 then .bookLen
  else if 0x48 ≤ off ∧ off ≤ 0x64 then .bookCode ((off - 0x48) / 4)
  else if off = 0x68 then .param
  else if off = 0x6C then .msgCapR
  else if off = 0x70 then .outCapR
  else .reserved

/-- `IDX` as an index, `i` of rules R47 to R51 (R46). -/
def State.window (s : State) : Nat := s.idx.toNat

/-- The value of `kind` (R27). -/
def Kind.value : Kind → Nat
  | .empty => 0
  | .leaf => 1
  | .internal => 2

/-- The `kind` of a written value; 3 is stored as `EMPTY` (R48). -/
def Kind.ofValue (n : Nat) : Kind :=
  if n = 1 then .leaf else if n = 2 then .internal else .empty

/-- `NODE_K` of an entry (R48). -/
def NodeEntry.wordK (e : NodeEntry) : Word := zext32 (e.kind.value + e.sym * 2 ^ 8)

/-- `NODE_F` of an entry (R48). -/
def NodeEntry.wordF (e : NodeEntry) : Word := zext32 e.freq

/-- `NODE_C` of an entry (R48). -/
def NodeEntry.wordC (e : NodeEntry) : Word := zext32 (e.left + e.right * 2 ^ 16)

/-- `BOOK_LEN` of an entry: `valid` in bit 31, `len` in bits 7:0 (R49). -/
def BookEntry.wordLen (e : BookEntry) : Word := zext32 (e.valid.toNat * 2 ^ 31 + e.len)

/-- `BOOK_CODEw` of an entry: code bits `32w` to `32w + 31`, first bit highest (R49). -/
def BookEntry.wordCode (e : BookEntry) (w : Nat) : Word := packWord fun j => e.code.getD (32 * w + j) false

/-- `MSG_D` for word `i` of the stream (R50). -/
def State.msgWord (s : State) (i : Nat) : Word :=
  if i < s.params.msgCap / 32 then packWord fun j => s.msgBit (32 * i + j) else 0

/-- `OUT_D` for slot `i` (R51). -/
def State.outWord (s : State) (i : Nat) : Word :=
  if s.decDone then zext32 (s.out.getD i 0) else 0

/-- What a host read of a register returns (R42 to R52, R68); it changes nothing (R66). -/
def readReg (s : State) : Reg → Word
  | .cmd => 0
  | .status => s.status
  | .errInfo => s.errInfo
  | .total => zext32 s.total
  | .seq => zext32 s.seq
  | .root => zext32 s.root
  | .cur => zext32 s.cur
  | .msgLen => zext32 s.msgLen
  | .msgRd => zext32 s.msgRd
  | .outCnt => if s.decDone then zext32 s.outCnt else 0
  | .idx => s.idx
  | .freqD => if s.window < s.params.nsym then zext32 (s.freqAt s.window) else 0
  | .nodeK => if s.window < s.params.nodeMax then (s.nodeAt s.window).wordK else 0
  | .nodeF => if s.window < s.params.nodeMax then (s.nodeAt s.window).wordF else 0
  | .nodeC => if s.window < s.params.nodeMax then (s.nodeAt s.window).wordC else 0
  | .msgD => s.msgWord s.window
  | .outD => s.outWord s.window
  | .bookLen => if s.window < s.params.nsym then (s.bookAt s.window).wordLen else 0
  | .bookCode w => if s.window < s.params.nsym then (s.bookAt s.window).wordCode w else 0
  | .param => zext32 (s.params.symW + s.params.cntW * 2 ^ 8)
  | .msgCapR => zext32 s.params.msgCap
  | .outCapR => zext32 s.params.outCap
  | .reserved => 0

/-- The entry with the fields of `NODE_K` replaced by those of `v` (R48). -/
def NodeEntry.setK (p : Params) (e : NodeEntry) (v : Word) : NodeEntry :=
  { e with kind := Kind.ofValue (fieldOf v 0 2), sym := fieldOf v 8 p.symW }

/-- The entry with the field of `NODE_F` replaced by that of `v` (R48). -/
def NodeEntry.setF (p : Params) (e : NodeEntry) (v : Word) : NodeEntry :=
  { e with freq := fieldOf v 0 p.cntW }

/-- The entry with the fields of `NODE_C` replaced by those of `v` (R48). -/
def NodeEntry.setC (p : Params) (e : NodeEntry) (v : Word) : NodeEntry :=
  { e with left := fieldOf v 0 p.nidxW, right := fieldOf v 16 p.nidxW }

/-- `NodeWindowWrite` (R70) of the entry `f` makes of `NODE[IDX]`; ignored while frozen (R71) and outside the store (R48). -/
def nodeWindowWrite (f : NodeEntry → NodeEntry) (s : State) : State :=
  if s.err = .none ∧ s.window < s.params.nodeMax then
    { s with
      node := Store.set NodeEntry.blank s.node s.window (f (s.nodeAt s.window))
      treeValid := false
      root := 0 }.bookClear.decodeRewind
  else s

/-- A host write of `v` to a register other than `CMD` (R41, R46, R48, R68, R71). -/
def writeReg (r : Reg) (v : Word) (s : State) : State :=
  match r with
  | .idx => { s with idx := v }
  | .nodeK => nodeWindowWrite (fun e => e.setK s.params v) s
  | .nodeF => nodeWindowWrite (fun e => e.setF s.params v) s
  | .nodeC => nodeWindowWrite (fun e => e.setC s.params v) s
  | .cmd | .status | .errInfo | .total | .seq | .root | .cur | .msgLen | .msgRd | .outCnt | .freqD | .msgD | .outD
  | .bookLen | .bookCode _ | .param | .msgCapR | .outCapR | .reserved => s

end Sys2Proof.Machine
end

