-- ==== Sys2Proof/Machine/Access.lean ====
section
/-!
DEFINITION. One access of the host: a command word written to `CMD` (spec/30_encoding.md rule R106), another register write, a
register read, or reset (spec/20_memory.md rules R60, R64; spec/70_reset_and_hazards.md rule R260).
-/
namespace Sys2Proof.Machine

/-- A write of `w` to `CMD` (R42, R106): the command it decodes to runs, a word that is none raises `IllegalCommand`. -/
def executeWord (w : Word) (s : State) : Result :=
  match decode s.params w with
  | .ok i => exec i s
  | .error e => rejectWord e w s

/-- An access the interface has: 4 bytes at a multiple of 4 in `0x00 .. 0xFC` (R64). -/
abbrev wordAccess (offset width : Nat) : Prop := width = 4 ∧ offset % 4 = 0 ∧ offset ≤ 0xFC

/-- A host write of a word at an offset of the interface. -/
def hostWrite (offset : Nat) (v : Word) (s : State) : Result :=
  if regAt offset = .cmd then executeWord v s else .next (writeReg (regAt offset) v s)

/-- A host read of the word at an offset of the interface: only the reply changes (R66). -/
def hostRead (offset : Nat) (s : State) : Result :=
  .next { s with reply := some (readReg s (regAt offset)) }

/-- One host access; one outside the interface is refused (R64). -/
def performAccess (a : Access) (s : State) : Result :=
  match a with
  | .read offset width =>
    if wordAccess offset width then hostRead offset s else .refused (.outsideInterface offset width)
  | .write offset width v =>
    if wordAccess offset width then hostWrite offset v s else .refused (.outsideInterface offset width)
  | .reset => .next s.resetInstance

/-- The access `a` is taken from the list of those waiting, of which `rest` remain; it has no reply yet. -/
def State.takeAccess (s : State) (rest : List Access) : State := { s with pending := rest, reply := none }

/-- One turn of the machine: the next access waiting, in the host's order (R73); none waiting, the instance is idle and
keeps all its state (R253). -/
def nextAccess (s : State) : Result :=
  match s.pending with
  | [] => .next s
  | a :: rest => performAccess a (s.takeAccess rest)

/-- The state with the command word `w` written to `CMD` next. -/
def State.offerWord (s : State) (w : Word) : State := { s with pending := .write 0x00 4 w :: s.pending }

end Sys2Proof.Machine
end

