-- ==== Sys2Proof/Machine/Step.lean ====
section
/-!
DEFINITION. One step of the machine: the next access of the host (spec/00_scope.md rule R18; log entries 1 and 2).
-/
namespace Sys2Proof.Machine

/-- One step. -/
def step (s : State) : Host.Outcome State Fault Refusal := nextAccess s

/-- `s` with the word whose low `nbits` bits are those of `w`, its other bits zero, as the next word the host writes to
`CMD` (log entry 2). -/
def State.withFetchWord (s : State) (nbits w : Nat) : State := s.offerWord (BitVec.ofNat 32 (w % 2 ^ nbits))

end Sys2Proof.Machine
end

