-- ==== Sys2Proof/Safety.lean ====
section
/-!
DEFINITION. The vocabulary of the claims: paths in the tree, the codes they give, the invariant of spec/10_state.md rule R53,
and runs of commands (spec/45_system.md rules R205 to R207).
-/
namespace Sys2Proof.Machine

/-- The instance is not frozen: `ERR = 0` (R222). -/
abbrev State.Live (s : State) : Prop := s.err = .none

/-- The node that a path of edges leads to from node `i`: left on 0, right on 1; `none` where it leaves the tree. -/
def State.follow (s : State) (i : Nat) : Bits → Option Nat
  | [] => some i
  | b :: p => if (s.nodeAt i).kind = .internal then s.follow (s.child i b) p else none

/-- `code` is the code that the present tree gives `sym`: the path from the root to its leaf (R151), the fallback `"0"` for
a tree of one leaf (R152). -/
def State.Codes (s : State) (sym : Nat) (code : Bits) : Prop :=
  if (s.nodeAt s.root).kind = .leaf then sym = (s.nodeAt s.root).sym ∧ code = [false]
  else ∃ l, s.follow s.root code = some l ∧ (s.nodeAt l).kind = .leaf ∧ (s.nodeAt l).sym = sym

/-- The fields of a node entry have the widths of R27. -/
def NodeEntry.Fits (p : Params) (e : NodeEntry) : Prop :=
  e.freq ≤ p.cntMax ∧ e.sym < p.nsym ∧ e.left < 2 ^ p.nidxW ∧ e.right < 2 ^ p.nidxW

/-- Every field has its width and every store its indices (R22, R27, R31). -/
structure State.Fits (s : State) : Prop where
  freq : ∀ e ∈ s.freq, e.1 < s.params.nsym ∧ e.2 ≤ s.params.cntMax
  total : s.total ≤ s.params.cntMax
  node : ∀ e ∈ s.node, e.1 < s.params.nodeMax ∧ e.2.Fits s.params
  seq : s.seq ≤ s.params.nodeMax
  root : s.root < 2 ^ s.params.nidxW
  cur : s.cur < 2 ^ s.params.nidxW
  book : ∀ e ∈ s.book, e.1 < s.params.nsym ∧ e.2.valid = true
  out : ∀ sym ∈ s.out, sym < s.params.nsym

/-- The sum of `FREQ[s]` over all symbols. -/
def State.freqSum (s : State) : Nat := ((List.range s.params.nsym).map s.freqAt).sum

/-- The invariant of R53, with the legal parameters of R10, the canonical form of the stores, the widths of R22 and the
cleared error registers of R233 and R234. -/
structure State.Inv (s : State) : Prop where
  legal : s.params.Legal
  stores : Memory.wf s = true
  fits : s.Fits
  /-- R53 item 1. -/
  counts : s.total = s.freqSum
  /-- R53 item 2. -/
  taken : s.msgRd ≤ s.msgLen
  stream : s.msgLen ≤ s.params.msgCap
  output : s.outCnt ≤ s.params.outCap
  /-- R53 item 3. -/
  tree : s.treeValid = true → s.wellFormedTree s.root = true
  /-- R53 item 4. -/
  noTree : s.treeValid = false →
    s.root = 0 ∧ s.cur = 0 ∧ s.msgRd = 0 ∧ s.outCnt = 0 ∧ ∀ sym, (s.bookAt sym).valid = false
  /-- R53 item 5. -/
  cursor : s.treeValid = true →
    s.cur = s.root ∨ ((s.nodeAt s.cur).kind = .internal ∧ ∃ p, s.follow s.root p = some s.cur)
  /-- R53 item 6. -/
  codes : ∀ sym, (s.bookAt sym).valid = true → s.treeValid = true ∧ s.Codes sym (s.bookAt sym).code
  /-- R233, R234: no sub-cause and no word without an error. -/
  errors : s.err = .none → s.errSub = 0 ∧ s.errInfo = 0

/-- Commands run one after another, stopping where one does not answer a next state. -/
def runCommands : List Instr → State → Result
  | [], s => .next s
  | i :: rest, s =>
    match exec i s with
    | .next t => runCommands rest t
    | .fault f => .fault f
    | .refused r => .refused r

/-- The part of `ENCODE` that makes the code book of a symbol sequence (R206). -/
def bookCall (syms : List (BitVec 8)) : List Instr := [.clr] ++ syms.map .count ++ [.build, .genc]

/-- The part of `ENCODE` that packs a symbol sequence (R206). -/
def packCall (syms : List (BitVec 8)) : List Instr := syms.map .pack

/-- `DECODE` (R207). -/
def decodeCall : List Instr := [.dstart, .drun]

end Sys2Proof.Machine
end

