-- ==== Sys2Proof/Certificates/Slice0/Obligations.lean ====
section
/-!
DEFINITION. The statements for the provers, each from the numbered rules of spec/ that OBLIGATIONS.json cites for it.
-/
open Sys2Proof Sys2Proof.Machine

/-! ## Words used below -/

/-- The opcode of a word (R90). -/
def Sys2Proof.Claims.op (w : Word) : Nat := w.toNat / 2 ^ 24

/-- The width of the operand of a defined opcode (R91 to R94). -/
def Sys2Proof.Claims.operandWidth (p : Params) (op : Nat) : Nat :=
  if op = 0x02 ∨ op = 0x05 then p.symW
  else if op = 0x06 then 1
  else if op = 0x08 then p.symW + 1
  else 0

/-- A must-be-zero bit of the word is set (R91 to R94, R98). -/
def Sys2Proof.Claims.Stray (p : Params) (w : Word) : Prop :=
  2 ^ Claims.operandWidth p (Claims.op w) ≤ w.toNat % 2 ^ 24

/-- The rows of R96: opcode, match and mask for the default instance. -/
def Sys2Proof.Claims.rows : List (BitVec 8 × Word × Word) :=
  [(0x00, 0x00000000, 0xFFFFFFFF), (0x01, 0x01000000, 0xFFFFFFFF), (0x02, 0x02000000, 0xFFFFFF00),
   (0x03, 0x03000000, 0xFFFFFFFF), (0x04, 0x04000000, 0xFFFFFFFF), (0x05, 0x05000000, 0xFFFFFF00),
   (0x06, 0x06000000, 0xFFFFFFFE), (0x07, 0x07000000, 0xFFFFFFFF), (0x08, 0x08000000, 0xFFFFFE00),
   (0x09, 0x09000000, 0xFFFFFFFF), (0x0A, 0x0A000000, 0xFFFFFFFF), (0x0B, 0x0B000000, 0xFFFFFFFF),
   (0x0C, 0x0C000000, 0xFFFFFFFF), (0x0D, 0x0D000000, 0xFFFFFFFF)]

/-- `Execute(w)` written line by line from R106. -/
def Sys2Proof.Claims.executeInOrder (w : Word) (s : State) : Result :=
  if s.err = .internalFault then .next s
  else if s.err ≠ .none then
    if w = 0x00000000 then exec .nop s
    else if w = 0x0D000000 then exec .errack s
    else if w = 0x01000000 then exec .clr s
    else .next s
  else if 0x0E ≤ Claims.op w then .next { s with err := .illegalCommand, errSub := 1, errInfo := w }
  else if 2 ^ Claims.operandWidth s.params (Claims.op w) ≤ w.toNat % 2 ^ 24 then
    .next { s with err := .illegalCommand, errSub := 2, errInfo := w }
  else
    match decode s.params w with
    | .ok i => exec i s
    | .error _ => .next s

/-- A node entry with the fields of the window register at `offset` replaced by the bits of `v` at the same positions, a
`kind` of 3 stored as `EMPTY` (R48). -/
def Sys2Proof.Claims.replaced (p : Params) (offset : Nat) (v : Word) (e : NodeEntry) : NodeEntry :=
  if offset = 0x30 then
    { e with
      kind := if v.toNat % 2 ^ 2 = 1 then .leaf else if v.toNat % 2 ^ 2 = 2 then .internal else .empty
      sym := v.toNat / 2 ^ 8 % 2 ^ p.symW }
  else if offset = 0x34 then { e with freq := v.toNat % 2 ^ p.cntW }
  else { e with left := v.toNat % 2 ^ p.nidxW, right := v.toNat / 2 ^ 16 % 2 ^ p.nidxW }

/-- The symbols with an entry in the frequency table, ascending (R24). -/
def Sys2Proof.Claims.counted (s : State) : List Nat :=
  (List.range s.params.nsym).filter fun sym => 0 < s.freqAt sym

/-- Node `j` is in the priority structure when the node of creation order `k` is about to be made: it exists and is no child
of an internal node made before (R133, R134). -/
def Sys2Proof.Claims.Queued (t : State) (k j : Nat) : Prop :=
  j < k ∧ ∀ m < k, (t.nodeAt m).kind = .internal → (t.nodeAt m).left ≠ j ∧ (t.nodeAt m).right ≠ j

/-- `Less(x, y)` holds (R131). -/
def Sys2Proof.Claims.Before (t : State) (x y : Nat) : Prop := less t.params t.node x y = some true

/-! ## Words and commands -/

/-- Decode and encode agree: every command that fits the instance is read back from its word, whatever its operand. -/
def Obligations.DecodeReadsBackEveryCommand : Prop :=
  ∀ (p : Params) (i : Instr), p.Legal → i.wf p = true → decode p (encode i) = .ok i

/-- No word is read as a command of another word: a decoded word is the encoding of its command, and the operand fits. -/
def Obligations.DecodedWordIsTheEncodingOfItsCommand : Prop :=
  ∀ (p : Params) (w : Word) (i : Instr), p.Legal → decode p w = .ok i → encode i = w ∧ i.wf p = true

/-- R96: in the default instance a word is the command of a row exactly when its bits under the row's mask are the row's
match. -/
def Obligations.WordIsTheCommandOfARowByMaskAndMatch : Prop :=
  ∀ (w : Word), ∀ r ∈ Claims.rows,
    ((∃ i, decode Params.reference w = .ok i ∧ i.opcode = r.1) ↔ w &&& r.2.2 = r.2.1)

/-- R97, R98, R99: which words are no command, and why. -/
def Obligations.WordsThatAreNoCommandAreTheReservedAndTheStray : Prop :=
  ∀ (p : Params) (w : Word), p.Legal →
    (decode p w = .error .reservedOpcode ↔ 0x0E ≤ Claims.op w) ∧
    (decode p w = .error .mustBeZero ↔ Claims.op w ≤ 0x0D ∧ Claims.Stray p w)

/-- A few words of the spec's examples and the commands they stand for. -/
def Obligations.ExampleWordsDecode : Prop :=
  decode Params.reference 0x00000000 = .ok .nop ∧ decode Params.reference 0x02000061 = .ok (.count 0x61) ∧
  decode Params.reference 0x05000061 = .ok (.pack 0x61) ∧ decode Params.reference 0x06000001 = .ok (.putbit true) ∧
  decode Params.reference 0x08000004 = .ok (.adopt 4) ∧ decode Params.reference 0x0C000000 = .ok .drun ∧
  decode Params.reference 0x02000100 = .error .mustBeZero ∧ decode Params.reference 0xFF123456 = .error .reservedOpcode

/-! ## The step -/

/-- A step runs the decoded command: a word the host writes to `CMD` that decodes to a command makes the step that command's
execution, the access taken from the list of those waiting; `withFetchWord` offers such a word. -/
def Obligations.StepRunsTheDecodedCommand : Prop :=
  ∀ (s : State) (w : Word) (i : Instr), decode s.params w = .ok i →
    (∀ rest, s.pending = .write 0x00 4 w :: rest → step s = exec i { s with pending := rest, reply := none }) ∧
    step (s.withFetchWord 32 w.toNat) = exec i { s with reply := none }

/-- R97, R98: a reserved opcode raises `IllegalCommand(1)`, a set must-be-zero bit of a defined one `IllegalCommand(2)`, and
nothing else changes. -/
def Obligations.WordsThatAreNoCommandRaiseIllegalCommand : Prop :=
  ∀ (s : State) (w : Word), s.params.Legal → s.Live →
    (0x0E ≤ Claims.op w → performAccess (.write 0x00 4 w) s = .next { s with
      err := .illegalCommand, errSub := 1, errInfo := w }) ∧
    (Claims.op w ≤ 0x0D → Claims.Stray s.params w → performAccess (.write 0x00 4 w) s = .next { s with
      err := .illegalCommand, errSub := 2, errInfo := w })

/-- R106: a write of a word to `CMD` is handled in the order of its five lines, in every state. -/
def Obligations.CommandWriteFollowsTheOrderOfChecks : Prop :=
  ∀ (s : State) (w : Word), s.params.Legal → performAccess (.write 0x00 4 w) s = Claims.executeInOrder w s

/-- R73, R253: a step performs the first access waiting, in the host's order; with none waiting the instance is idle and keeps
all its state. The list of accesses is the model's choice (log entry 1). -/
def Obligations.StepPerformsTheNextAccess : Prop :=
  ∀ s : State,
    (s.pending = [] → step s = .next s) ∧
    ∀ a rest, s.pending = a :: rest → step s = performAccess a { s with pending := rest, reply := none }

/-- R64: an access of another width or at another offset is given no meaning. -/
def Obligations.AccessOutsideTheInterfaceIsRefused : Prop :=
  ∀ (s : State) (offset width : Nat) (v : Word), width ≠ 4 ∨ offset % 4 ≠ 0 ∨ 0xFC < offset →
    performAccess (.read offset width) s = .refused (.outsideInterface offset width) ∧
    performAccess (.write offset width v) s = .refused (.outsideInterface offset width)

/-- No access of the interface ever stops the machine: in a state of the invariant the step answers a next state. -/
def Obligations.EveryAccessOfTheInterfaceCompletes : Prop :=
  ∀ (s : State) (a : Access) (rest : List Access), s.Inv → s.pending = a :: rest →
    (a = .reset ∨ ∃ offset ≤ 0xFC, offset % 4 = 0 ∧ (a = .read offset 4 ∨ ∃ v, a = .write offset 4 v)) →
    ∃ t, step s = .next t

/-! ## Reads -/

/-- R66: a read answers the register's word and changes no element of the block. The field for the answer is the model's
choice (log entry 1). -/
def Obligations.ReadAnswersTheRegisterAndChangesNothing : Prop :=
  ∀ (s : State) (offset : Nat), offset % 4 = 0 → offset ≤ 0xFC →
    performAccess (.read offset 4) s = .next { s with reply := some (readReg s (regAt offset)) }

/-- R43, R232: the fields of `STATUS`, with the codes of `ERR` by their numbers; the codes 9 to 15 never show. -/
def Obligations.StatusShowsItsFields : Prop :=
  ∀ s : State,
    let w := readReg s (regAt 0x04)
    w.getLsbD 0 = s.treeValid ∧ w.getLsbD 1 = s.flock ∧ w.getLsbD 2 = s.decDone ∧
    w.getLsbD 3 = decide (s.cur = s.root) ∧ w.getLsbD 4 = decide (s.msgRd = s.msg.length) ∧
    w.extractLsb' 5 3 = 0 ∧
    (s.err, w.extractLsb' 8 4) ∈
      [(.none, 0), (.unknownSymbol, 1), (.malformedInput, 2), (.internalFault, 3), (.illegalCommand, 4), (.countOverflow, 5),
        (.msgOverflow, 6), (.outOverflow, 7), (.badTree, 8)] ∧
    w.extractLsb' 12 4 = s.errSub ∧
    w.getLsbD 16 = decide (s.err = .internalFault) ∧ w.extractLsb' 17 15 = 0

/-- R42, R44, R45, R46, R47, R52, R68: the registers that show one element of the state, a parameter, or nothing. -/
def Obligations.PlainRegistersShowTheirElement : Prop :=
  ∀ s : State,
    readReg s (regAt 0x00) = 0 ∧ readReg s (regAt 0x08) = s.errInfo ∧
    readReg s (regAt 0x0C) = BitVec.ofNat 32 s.total ∧ readReg s (regAt 0x10) = BitVec.ofNat 32 s.seq ∧
    readReg s (regAt 0x14) = BitVec.ofNat 32 s.root ∧ readReg s (regAt 0x18) = BitVec.ofNat 32 s.cur ∧
    readReg s (regAt 0x1C) = BitVec.ofNat 32 s.msg.length ∧ readReg s (regAt 0x20) = BitVec.ofNat 32 s.msgRd ∧
    readReg s (regAt 0x28) = s.idx ∧
    readReg s (regAt 0x2C) = (if s.idx.toNat < s.params.nsym then BitVec.ofNat 32 (s.freqAt s.idx.toNat) else 0) ∧
    readReg s (regAt 0x68) = BitVec.ofNat 32 (s.params.symW + s.params.cntW * 2 ^ 8) ∧
    readReg s (regAt 0x6C) = BitVec.ofNat 32 s.params.msgCap ∧
    readReg s (regAt 0x70) = BitVec.ofNat 32 s.params.outCap ∧
    ∀ offset, 0x74 ≤ offset → readReg s (regAt offset) = 0

/-- R50: word `i` of the stream, first bit highest, 0 where there is no bit. -/
def Obligations.StreamWindowShowsTheBitsFirstHighest : Prop :=
  ∀ (s : State) (j : Nat), j < 32 →
    (readReg s (regAt 0x3C)).getLsbD (31 - j) =
      if s.idx.toNat < s.params.msgCap / 32 ∧ 32 * s.idx.toNat + j < s.msg.length
      then s.msg.getD (32 * s.idx.toNat + j) false else false

/-- R49: `BOOK_LEN` and `BOOK_CODE0` to `BOOK_CODE7` show an entry of the book, its code left-aligned and followed by zeros,
and 0 outside the store. -/
def Obligations.BookWindowShowsTheEntry : Prop :=
  ∀ s : State, s.Inv →
    let e := s.bookAt s.idx.toNat
    (s.idx.toNat < s.params.nsym →
      (readReg s (regAt 0x44)).getLsbD 31 = e.valid ∧ ((readReg s (regAt 0x44)).extractLsb' 0 8).toNat = e.code.length ∧
      (readReg s (regAt 0x44)).extractLsb' 8 23 = 0 ∧
      ∀ w j, w < 8 → j < 32 →
        (readReg s (regAt (0x48 + 4 * w))).getLsbD (31 - j) = e.code.getD (32 * w + j) false) ∧
    (s.params.nsym ≤ s.idx.toNat →
      readReg s (regAt 0x44) = 0 ∧ ∀ w, w < 8 → readReg s (regAt (0x48 + 4 * w)) = 0)

/-- R45, R51: the output count and the output symbols are shown once the decode call has ended, and read 0 before. -/
def Obligations.OutputIsShownOnlyAfterTheDecodeCall : Prop :=
  ∀ s : State,
    (s.decDone = true →
      readReg s (regAt 0x24) = BitVec.ofNat 32 s.out.length ∧
      (∀ h : s.idx.toNat < s.out.length, readReg s (regAt 0x40) = BitVec.ofNat 32 s.out[s.idx.toNat]) ∧
      (s.out.length ≤ s.idx.toNat → readReg s (regAt 0x40) = 0)) ∧
    (s.decDone = false → readReg s (regAt 0x24) = 0 ∧ readReg s (regAt 0x40) = 0)

/-! ## Writes -/

/-- R48: the node window shows the fields of the entry at their positions; a write replaces exactly the fields of its register,
and a read then shows the written bits there, zeros elsewhere, a written `kind` of 3 as 0. Outside the store it reads 0 and a
write does nothing. -/
def Obligations.NodeWindowShowsAndReplacesTheFields : Prop :=
  ∀ (s : State) (v : Word), s.params.Legal →
    (s.params.nodeMax ≤ s.idx.toNat → ∀ offset, offset = 0x30 ∨ offset = 0x34 ∨ offset = 0x38 →
      readReg s (regAt offset) = 0 ∧ performAccess (.write offset 4 v) s = .next s) ∧
    (s.idx.toNat < s.params.nodeMax → (s.nodeAt s.idx.toNat).Fits s.params →
      let e := s.nodeAt s.idx.toNat
      (readReg s (regAt 0x30)).toNat =
        (if e.kind = .leaf then 1 else if e.kind = .internal then 2 else 0) + 2 ^ 8 * e.sym ∧
      (readReg s (regAt 0x34)).toNat = e.freq ∧
      (readReg s (regAt 0x38)).toNat = e.left + 2 ^ 16 * e.right) ∧
    (s.Live → s.idx.toNat < s.params.nodeMax →
      (let t := writeReg (regAt 0x30) v s
       let e := t.nodeAt s.idx.toNat
       (∀ j < 32, (readReg t (regAt 0x30)).getLsbD j =
         if j < 2 then v.getLsbD j && !(v.getLsbD 0 && v.getLsbD 1)
         else decide (8 ≤ j ∧ j < 8 + s.params.symW) && v.getLsbD j) ∧
       e = { s.nodeAt s.idx.toNat with kind := e.kind, sym := e.sym }) ∧
      (let t := writeReg (regAt 0x34) v s
       let e := t.nodeAt s.idx.toNat
       (∀ j < 32, (readReg t (regAt 0x34)).getLsbD j = (decide (j < s.params.cntW) && v.getLsbD j)) ∧
       e = { s.nodeAt s.idx.toNat with freq := e.freq }) ∧
      (let t := writeReg (regAt 0x38) v s
       let e := t.nodeAt s.idx.toNat
       (∀ j < 32, (readReg t (regAt 0x38)).getLsbD j =
         (decide (j < s.params.nidxW ∨ 16 ≤ j ∧ j < 16 + s.params.nidxW) && v.getLsbD j)) ∧
       e = { s.nodeAt s.idx.toNat with left := e.left, right := e.right }))

/-- R70: a performed node-window write changes the one entry, makes the tree absent, clears the book and rewinds the decoder,
and leaves `FREQ`, `TOTAL`, `FLOCK`, `SEQ`, the stream and everything else as it was. -/
def Obligations.NodeWindowWriteDropsTheTree : Prop :=
  ∀ (s : State) (offset : Nat) (v : Word),
    offset = 0x30 ∨ offset = 0x34 ∨ offset = 0x38 → s.Live → s.idx.toNat < s.params.nodeMax →
    ∃ t, performAccess (.write offset 4 v) s = .next t ∧ t.treeValid = false ∧ t.root = 0 ∧ t.msgRd = 0 ∧ t.out = [] ∧ t.decDone = false ∧ t.cur = 0 ∧
      (∀ sym, t.bookAt sym = BookEntry.blank) ∧
      t.nodeAt s.idx.toNat = Claims.replaced s.params offset v (s.nodeAt s.idx.toNat) ∧
      (∀ i, i ≠ s.idx.toNat → t.nodeAt i = s.nodeAt i) ∧
      t = { s with
        node := t.node, treeValid := t.treeValid, root := t.root, book := t.book, msgRd := t.msgRd, out := t.out,
        decDone := t.decDone, cur := t.cur }

/-- R41, R46, R68, R71: a write to `IDX` stores the word in every state; a write to a read-only or reserved offset does
nothing. -/
def Obligations.IdxIsWrittenAndReadOnlyOffsetsAreNot : Prop :=
  ∀ (s : State) (offset : Nat) (v : Word), offset % 4 = 0 → offset ≤ 0xFC →
    (offset = 0x28 → performAccess (.write offset 4 v) s = .next { s with idx := v }) ∧
    (offset ≠ 0x00 → offset ≠ 0x28 → offset ≠ 0x30 → offset ≠ 0x34 → offset ≠ 0x38 →
      performAccess (.write offset 4 v) s = .next s)

/-! ## Reset and the system commands -/

/-- R54: the reset values, for every choice of the parameters, and `STATUS` in that state. -/
def Obligations.ResetStateHoldsTheResetValues : Prop :=
  ∀ p : Params,
    let t := State.resetWith p
    (∀ k, t.freqAt k = 0) ∧ t.total = 0 ∧ t.flock = false ∧
    (∀ i, t.nodeAt i = { kind := .empty, freq := 0, sym := 0, left := 0, right := 0 }) ∧ t.seq = 0 ∧ t.root = 0 ∧
    t.treeValid = false ∧ (∀ k, t.bookAt k = { valid := false, code := [] }) ∧ t.msg = [] ∧ t.msgRd = 0 ∧ t.cur = 0 ∧
    t.out = [] ∧ t.decDone = false ∧ t.err = .none ∧ t.errSub = 0 ∧ t.errInfo = 0 ∧ t.idx = 0 ∧
    readReg t (regAt 0x04) = 0x00000018

/-- R260: reset puts the instance into the reset state from every state, a fatal one too. That the parameters and the accesses
still waiting stay, and that `State.reset` is the default instance, is the model's choice (log entries 3 and 4). -/
def Obligations.ResetLeavesTheResetState : Prop :=
  (∀ s : State, performAccess .reset s = .next { State.resetWith s.params with pending := s.pending }) ∧
  State.reset = State.resetWith Params.reference

/-- The invariant holds after reset, for every legal choice of the parameters. -/
def Obligations.ResetStateMeetsTheInvariant : Prop :=
  ∀ p : Params, p.Legal → (State.resetWith p).Inv

/-- R200: `NOP` changes nothing, in every state. -/
def Obligations.NopChangesNothing : Prop :=
  encode .nop = 0x00000000 ∧ ∀ s : State, exec .nop s = .next s

/-- R201, R262: `CLR` leaves the reset state but for `IDX`, and does nothing after the fatal `InternalFault`. -/
def Obligations.ClrLeavesTheResetStateButIdx : Prop :=
  encode .clr = 0x01000000 ∧
  ∀ s : State,
    (s.err ≠ .internalFault → exec .clr s = .next { State.resetWith s.params with
      idx := s.idx, pending := s.pending, reply := s.reply }) ∧
    (s.err = .internalFault → exec .clr s = .next s)

/-- R202: `ERRACK` clears the three error registers and nothing else, and does nothing without an error or after the fatal
`InternalFault`. -/
def Obligations.ErrackClearsTheErrorRegisters : Prop :=
  encode .errack = 0x0D000000 ∧
  ∀ s : State,
    (s.err ≠ .none → s.err ≠ .internalFault →
      exec .errack s = .next { s with err := .none, errSub := 0, errInfo := 0 }) ∧
    (s.err = .none ∨ s.err = .internalFault → exec .errack s = .next s)

/-! ## Counting -/

/-- R120: `COUNT` counts one occurrence and touches nothing else; a locked table and a full total raise their errors, in this
order. -/
def Obligations.CountCountsOneOccurrence : Prop :=
  ∀ (s : State) (sym : BitVec 8), s.Live →
    (s.flock = true → exec (.count sym) s = .next { s with
      err := .illegalCommand, errSub := 3, errInfo := 0x02000000 ||| sym.setWidth 32 }) ∧
    (s.flock = false → s.total = 2 ^ s.params.cntW - 1 → exec (.count sym) s = .next { s with
      err := .countOverflow, errSub := 0, errInfo := 0x02000000 ||| sym.setWidth 32 }) ∧
    (s.flock = false → s.total ≠ 2 ^ s.params.cntW - 1 →
      ∃ t, exec (.count sym) s = .next t ∧ t.freqAt sym.toNat = s.freqAt sym.toNat + 1 ∧
        (∀ k, k ≠ sym.toNat → t.freqAt k = s.freqAt k) ∧ t.total = s.total + 1 ∧
        t = { s with freq := t.freq, total := t.total })

/-! ## Tree construction -/

/-- R131: the four lines of the comparison rule. -/
def Obligations.LessFollowsTheFourLines : Prop :=
  ∀ (p : Params) (node : Store NodeEntry) (x y : Nat),
    let nx := nodeGet p node x
    let ny := nodeGet p node y
    (nx.freq ≠ ny.freq → less p node x y = some (decide (nx.freq < ny.freq))) ∧
    (nx.freq = ny.freq → nx.kind = .leaf → ny.kind = .leaf → less p node x y = some (decide (nx.sym < ny.sym))) ∧
    (nx.freq = ny.freq → nx.kind = .internal → ny.kind = .internal → less p node x y = some (decide (x < y))) ∧
    (nx.freq = ny.freq → nx.kind = .leaf → ny.kind = .internal → less p node x y = some true) ∧
    (nx.freq = ny.freq → nx.kind = .internal → ny.kind = .leaf → less p node x y = some false) ∧
    (nx.freq = ny.freq → nx.kind = .empty ∨ ny.kind = .empty → less p node x y = none)

/-- R132: on nodes that are not `EMPTY` and whose leaves have distinct symbols, `Less` is a strict total order. -/
def Obligations.LessIsAStrictTotalOrder : Prop :=
  ∀ (p : Params) (node : Store NodeEntry) (q : List Nat),
    (∀ x ∈ q, (nodeGet p node x).kind ≠ .empty) →
    (∀ x ∈ q, ∀ y ∈ q, (nodeGet p node x).kind = .leaf → (nodeGet p node y).kind = .leaf →
      (nodeGet p node x).sym = (nodeGet p node y).sym → x = y) →
    (∀ x ∈ q, less p node x x = some false) ∧
    (∀ x ∈ q, ∀ y ∈ q, x ≠ y → (less p node x y = some true ∧ less p node y x = some false) ∨
      (less p node x y = some false ∧ less p node y x = some true)) ∧
    (∀ x ∈ q, ∀ y ∈ q, ∀ z ∈ q, less p node x y = some true → less p node y z = some true →
      less p node x z = some true)

/-- R133: "dequeue the minimum" removes and returns the one member that sorts before every other. -/
def Obligations.DequeueTakesTheOneMinimum : Prop :=
  ∀ (p : Params) (node : Store NodeEntry) (q : List Nat), q ≠ [] → q.Nodup →
    (∀ x ∈ q, (nodeGet p node x).kind ≠ .empty) →
    (∀ x ∈ q, ∀ y ∈ q, (nodeGet p node x).kind = .leaf → (nodeGet p node y).kind = .leaf →
      (nodeGet p node x).sym = (nodeGet p node y).sym → x = y) →
    ∃ m, dequeue p node q = some (m, q.erase m) ∧ m ∈ q ∧ ∀ y ∈ q, y ≠ m → less p node m y = some true

/-- R134, R38, R39: `BUILD` completes in every state that is not frozen, locks the table, clears the book, rewinds the
decoder, and leaves `FREQ`, `TOTAL`, the stream, `IDX` and everything else it does not name as they were. -/
def Obligations.BuildCompletesAndKeepsWhatItDoesNotName : Prop :=
  ∀ s : State, s.Live →
    ∃ t, exec .build s = .next t ∧ t.flock = true ∧ (∀ sym, t.bookAt sym = BookEntry.blank) ∧
      t.msgRd = 0 ∧ t.out = [] ∧ t.decDone = false ∧ t.cur = t.root ∧
      t = { s with
        node := t.node, seq := t.seq, root := t.root, treeValid := t.treeValid, flock := t.flock, book := t.book,
        msgRd := t.msgRd, out := t.out, decDone := t.decDone, cur := t.cur }

/-- R134: what `BUILD` writes, and the nodes it makes. The first are the leaves of the counted symbols, ascending; each later one joins the node
that sorts before all others in the priority structure with the one that sorts before all the rest, first left, second right,
its frequency their sum; the last one is the root; there are no other nodes. -/
def Obligations.BuildMergesTheTwoLeastNodes : Prop :=
  ∀ s : State, s.Live →
    encode .build = 0x03000000 ∧
    ∃ t, exec .build s = .next t ∧
      t = { s with
        node := t.node, seq := t.seq, root := t.root, treeValid := t.treeValid, flock := true, book := t.book,
        msgRd := 0, out := [], decDone := false, cur := t.root } ∧
      (∀ sym, t.bookAt sym = BookEntry.blank) ∧
      let n := (Claims.counted s).length
      (∀ (k : Nat) (h : k < n), t.nodeAt k =
        { kind := .leaf, freq := s.freqAt ((Claims.counted s)[k]), sym := (Claims.counted s)[k], left := 0, right := 0 }) ∧
      (∀ k, n ≤ k → k + 1 < 2 * n →
        ∃ a b, t.nodeAt k =
            { kind := .internal, freq := (t.nodeAt a).freq + (t.nodeAt b).freq, sym := 0, left := a, right := b } ∧
          a ≠ b ∧ Claims.Queued t k a ∧ Claims.Queued t k b ∧
          (∀ j, Claims.Queued t k j → j ≠ a → Claims.Before t a j) ∧
          (∀ j, Claims.Queued t k j → j ≠ a → j ≠ b → Claims.Before t b j)) ∧
      (∀ k, 2 * n ≤ k + 1 → t.nodeAt k = NodeEntry.blank) ∧
      t.seq = 2 * n - 1 ∧ t.root = 2 * n - 2 ∧ t.treeValid = decide (0 < n)

/-- R135, R139: with a counted symbol the tree `BUILD` makes is present and well formed, its root's frequency is the sum of
all counts, and its leaves carry exactly the counted symbols. -/
def Obligations.BuildMakesAWellFormedTree : Prop :=
  ∀ s : State, s.Live → (∃ sym < s.params.nsym, 0 < s.freqAt sym) →
    ∃ t, exec .build s = .next t ∧ t.treeValid = true ∧ t.wellFormedTree t.root = true ∧
      (t.nodeAt t.root).freq = s.freqSum ∧
      ∀ sym, (∃ p l, t.follow t.root p = some l ∧ (t.nodeAt l).kind = .leaf ∧ (t.nodeAt l).sym = sym) ↔
        sym < s.params.nsym ∧ 0 < s.freqAt sym

/-- R136: no symbol counted leaves no tree and raises nothing; one symbol counted makes the tree of its one leaf. -/
def Obligations.BuildOfNoneOrOneSymbol : Prop :=
  ∀ s : State, s.Live →
    ((∀ sym < s.params.nsym, s.freqAt sym = 0) →
      ∃ t, exec .build s = .next t ∧ t.treeValid = false ∧ t.root = 0 ∧ t.seq = 0 ∧ t.err = .none ∧
        ∀ i, t.nodeAt i = NodeEntry.blank) ∧
    (∀ sym < s.params.nsym, 0 < s.freqAt sym → (∀ k < s.params.nsym, k ≠ sym → s.freqAt k = 0) →
      ∃ t, exec .build s = .next t ∧ t.treeValid = true ∧ t.root = 0 ∧ t.seq = 1 ∧ t.err = .none ∧
        t.nodeAt 0 = { kind := .leaf, freq := s.freqAt sym, sym := sym, left := 0, right := 0 })

/-- R140: what `BUILD` makes is a function of the frequency table alone. -/
def Obligations.BuildDependsOnTheFrequenciesAlone : Prop :=
  ∀ s s' : State, s.Live → s'.Live → s.params = s'.params →
    (∀ sym < s.params.nsym, s.freqAt sym = s'.freqAt sym) →
    ∃ t t', exec .build s = .next t ∧ exec .build s' = .next t' ∧
      t.node = t'.node ∧ t.root = t'.root ∧ t.seq = t'.seq ∧ t.treeValid = t'.treeValid

/-- R138: `ADOPT` makes a well-formed tree the present one, clears the book and rewinds the decoder; any other index raises
`BadTree` and nothing else changes. -/
def Obligations.AdoptTakesExactlyTheWellFormedTrees : Prop :=
  ∀ (s : State) (node : BitVec 9), s.Live →
    (s.wellFormedTree node.toNat = true →
      ∃ t, exec (.adopt node) s = .next t ∧ (∀ sym, t.bookAt sym = BookEntry.blank) ∧
        t = { s with
          root := node.toNat, treeValid := true, book := t.book, msgRd := 0, out := [], decDone := false,
          cur := node.toNat }) ∧
    (s.wellFormedTree node.toNat = false →
      exec (.adopt node) s = .next { s with
        err := .badTree, errSub := 0, errInfo := 0x08000000 ||| node.setWidth 32 })

/-! ## The code book -/

/-- R150, R151, R152, R154: `GENC` changes the book only. With a tree present it completes in every state of the invariant, and
the entries it makes valid are exactly the codes of the tree's symbols, the others empty; with the tree absent it leaves the
book empty and raises nothing. -/
def Obligations.GencWritesExactlyTheCodesOfTheTree : Prop :=
  encode .genc = 0x04000000 ∧
  ∀ s : State, s.Live →
    (s.Inv → s.treeValid = true →
      ∃ t, exec .genc s = .next t ∧ t = { s with book := t.book } ∧
        (∀ sym code, t.bookAt sym = { valid := true, code := code } ↔ s.Codes sym code) ∧
        (∀ sym, (t.bookAt sym).valid = false → t.bookAt sym = BookEntry.blank)) ∧
    (s.treeValid = false →
      ∃ t, exec .genc s = .next t ∧ t = { s with book := t.book } ∧ ∀ sym, t.bookAt sym = BookEntry.blank)

/-- R32: the valid codes of the book form a prefix code. -/
def Obligations.ValidCodesFormAPrefixCode : Prop :=
  ∀ s : State, s.Inv → ∀ a b, a ≠ b → (s.bookAt a).valid = true → (s.bookAt b).valid = true →
    ¬(s.bookAt a).code <+: (s.bookAt b).code

/-- R11, R31: a valid code has 1 to `LMAX` bits. -/
def Obligations.ValidCodesHaveOneToLmaxBits : Prop :=
  ∀ s : State, s.Inv → ∀ sym, (s.bookAt sym).valid = true →
    1 ≤ (s.bookAt sym).code.length ∧ (s.bookAt sym).code.length ≤ s.params.lmax

/-! ## Packing -/

/-- R161: `PACK` appends the symbol's code at the end of the stream and changes nothing else; a symbol without an entry and a
stream without room raise their errors, in this order. -/
def Obligations.PackAppendsTheCode : Prop :=
  ∀ (s : State) (sym : BitVec 8), s.Live →
    ((s.bookAt sym.toNat).valid = false → exec (.pack sym) s = .next { s with
      err := .unknownSymbol, errSub := 0, errInfo := 0x05000000 ||| sym.setWidth 32 }) ∧
    ((s.bookAt sym.toNat).valid = true → s.params.msgCap < s.msg.length + (s.bookAt sym.toNat).code.length →
      exec (.pack sym) s = .next { s with
        err := .msgOverflow, errSub := 0, errInfo := 0x05000000 ||| sym.setWidth 32 }) ∧
    ((s.bookAt sym.toNat).valid = true → s.msg.length + (s.bookAt sym.toNat).code.length ≤ s.params.msgCap →
      exec (.pack sym) s = .next { s with msg := s.msg ++ (s.bookAt sym.toNat).code })

/-- R162: `PUTBIT` appends its bit and changes nothing else; a full stream raises `MsgOverflow`. -/
def Obligations.PutbitAppendsItsBit : Prop :=
  ∀ (s : State) (bit : Bool), s.Live →
    (s.msg.length ≠ s.params.msgCap → exec (.putbit bit) s = .next { s with msg := s.msg ++ [bit] }) ∧
    (s.msg.length = s.params.msgCap → exec (.putbit bit) s = .next { s with
      err := .msgOverflow, errSub := 0, errInfo := if bit then 0x06000001 else 0x06000000 })

/-- R163, R183: `MCLR` empties the stream and rewinds the decoder, `DSTART` rewinds the decoder; neither touches the rest. -/
def Obligations.MclrAndDstartRewindTheDecoder : Prop :=
  encode .mclr = 0x07000000 ∧ encode .dstart = 0x09000000 ∧
  ∀ s : State, s.Live →
    exec .mclr s = .next { s with msg := [], msgRd := 0, out := [], decDone := false, cur := s.root } ∧
    exec .dstart s = .next { s with msgRd := 0, out := [], decDone := false, cur := s.root }

/-- R165: packing symbols that all have a code and fit the stream appends their codes in order. -/
def Obligations.PackingASequenceAppendsItsCodesInOrder : Prop :=
  ∀ (s : State) (syms : List (BitVec 8)), s.Live →
    (∀ sym ∈ syms, (s.bookAt sym.toNat).valid = true) →
    s.msg.length + (syms.flatMap fun sym => (s.bookAt sym.toNat).code).length ≤ s.params.msgCap →
    runCommands (packCall syms) s = .next { s with
      msg := s.msg ++ syms.flatMap fun sym => (s.bookAt sym.toNat).code }

/-! ## Unpacking -/

/-- R182, R184: what `UNPACK` does with the next bit of the stream when a tree is present. -/
def Obligations.UnpackMovesTheCursorByOneBit : Prop :=
  encode .unpack = 0x0A000000 ∧
  ∀ (s : State) (bit : Bool), s.Live → s.decDone = false → s.msg[s.msgRd]? = some bit → s.treeValid = true →
    let root := s.nodeAt s.root
    let nxt := if bit then (s.nodeAt s.cur).right else (s.nodeAt s.cur).left
    (root.kind = .leaf → s.out.length ≠ s.params.outCap →
      exec .unpack s = .next { s with out := s.out ++ [root.sym], msgRd := s.msgRd + 1 }) ∧
    (root.kind ≠ .leaf → (s.nodeAt s.cur).kind = .internal → (s.nodeAt nxt).kind = .internal →
      exec .unpack s = .next { s with cur := nxt, msgRd := s.msgRd + 1 }) ∧
    (root.kind ≠ .leaf → (s.nodeAt s.cur).kind = .internal → (s.nodeAt nxt).kind = .leaf →
      s.out.length ≠ s.params.outCap →
      exec .unpack s = .next { s with out := s.out ++ [(s.nodeAt nxt).sym], cur := s.root, msgRd := s.msgRd + 1 }) ∧
    (root.kind = .leaf ∨ ((s.nodeAt s.cur).kind = .internal ∧ (s.nodeAt nxt).kind = .leaf) →
      s.out.length = s.params.outCap →
      exec .unpack s = .next { s with out := [], err := .outOverflow, errSub := 0, errInfo := 0x0A000000 }) ∧
    (root.kind ≠ .leaf → (s.nodeAt s.cur).kind = .internal → (s.nodeAt nxt).kind = .empty →
      exec .unpack s = .next { s with out := [], err := .internalFault, errSub := 2, errInfo := 0x0A000000 }) ∧
    (root.kind ≠ .leaf → (s.nodeAt s.cur).kind ≠ .internal →
      exec .unpack s = .next { s with out := [], err := .malformedInput, errSub := 3, errInfo := 0x0A000000 })

/-- R184, R189: when `UNPACK` raises instead of taking a bit. -/
def Obligations.UnpackRaisesWithoutABitOrATree : Prop :=
  ∀ s : State, s.Live →
    (s.decDone = true ∨ s.msgRd = s.msg.length →
      exec .unpack s = .next { s with err := .illegalCommand, errSub := 3, errInfo := 0x0A000000 }) ∧
    (s.decDone = false → s.msgRd < s.msg.length → s.treeValid = false →
      exec .unpack s = .next { s with out := [], err := .malformedInput, errSub := 2, errInfo := 0x0A000000 })

/-- R185: `DEND` ends the decode call at the end of the stream with the cursor at the root, and raises otherwise. -/
def Obligations.DendEndsTheCallAtTheRoot : Prop :=
  encode .dend = 0x0B000000 ∧
  ∀ s : State, s.Live →
    (s.decDone = true ∨ s.msgRd ≠ s.msg.length →
      exec .dend s = .next { s with err := .illegalCommand, errSub := 3, errInfo := 0x0B000000 }) ∧
    (s.decDone = false → s.msgRd = s.msg.length → s.cur ≠ s.root →
      exec .dend s = .next { s with out := [], err := .malformedInput, errSub := 1, errInfo := 0x0B000000 }) ∧
    (s.decDone = false → s.msgRd = s.msg.length → s.cur = s.root → exec .dend s = .next { s with decDone := true })

/-- R186: `DRUN` has exactly the effect of the remaining `MSG_LEN - MSG_RD` `UNPACK` commands followed by `DEND`, with an
error or without: where one of them raises, the error, its sub-cause and all the state are the same, and `ERRINFO` is the word
of `DRUN`; after a finished call it raises `IllegalCommand`. -/
def Obligations.DrunIsTheUnpacksAndDend : Prop :=
  encode .drun = 0x0C000000 ∧
  ∀ s : State, s.Live →
    (s.decDone = false → s.msgRd ≤ s.msg.length →
      ∃ u, runCommands (List.replicate (s.msg.length - s.msgRd) .unpack ++ [.dend]) s = .next u ∧
        exec .drun s = .next (if u.err = .none then u else { u with errInfo := 0x0C000000 })) ∧
    (s.decDone = true →
      exec .drun s = .next { s with err := .illegalCommand, errSub := 3, errInfo := 0x0C000000 })

/-- R187: with a tree of one leaf `DRUN` yields one copy of its symbol per bit, whatever the bits. -/
def Obligations.DrunOnOneLeafCopiesItsSymbolPerBit : Prop :=
  ∀ s : State, s.Live → s.decDone = false → s.treeValid = true → (s.nodeAt s.root).kind = .leaf → s.cur = s.root →
    s.msgRd ≤ s.msg.length → s.out.length + (s.msg.length - s.msgRd) ≤ s.params.outCap →
    exec .drun s = .next { s with
      out := s.out ++ List.replicate (s.msg.length - s.msgRd) (s.nodeAt s.root).sym, msgRd := s.msg.length, decDone := true }

/-- R189: with the tree absent an empty stream decodes to the empty sequence, and a bit raises `MalformedInput(2)` and is not
taken. -/
def Obligations.DecodeWithoutATree : Prop :=
  ∀ s : State, s.Live → s.treeValid = false → s.root = 0 →
    (s.msg = [] → runCommands decodeCall s = .next { s with msgRd := 0, out := [], decDone := true, cur := 0 } ∧
      runCommands [.dstart, .dend] s = .next { s with msgRd := 0, out := [], decDone := true, cur := 0 }) ∧
    (s.msg ≠ [] → runCommands decodeCall s = .next { s with
      msgRd := 0, out := [], decDone := false, cur := 0, err := .malformedInput, errSub := 2, errInfo := 0x0C000000 })

/-- The decoder undoes the code: from the root, the codes of a symbol sequence decode to that sequence. -/
def Obligations.DrunDecodesTheCodesOfASequence : Prop :=
  ∀ (s : State) (coded : List (Nat × Bits)), s.Inv → s.Live → s.decDone = false → s.treeValid = true → s.cur = s.root →
    (∀ c ∈ coded, s.Codes c.1 c.2) → s.msg.drop s.msgRd = coded.flatMap Prod.snd →
    s.out.length + coded.length ≤ s.params.outCap →
    exec .drun s = .next { s with
      out := s.out ++ coded.map Prod.fst, msgRd := s.msg.length, decDone := true }

/-- R188: for every symbol sequence within the bounds of the instance and every start state without an error, `ENCODE` then
`DECODE` ends without an error with the sequence in the output; for the empty sequence with an empty stream and no tree. -/
def Obligations.EncodeThenDecodeReturnsTheSequence : Prop :=
  ∀ (s : State) (syms : List (BitVec 8)), s.Live → (∀ sym ∈ syms, sym.toNat < s.params.nsym) →
    syms.length ≤ s.params.cntMax → syms.length ≤ s.params.outCap →
    ∃ u, runCommands (bookCall syms) s = .next u ∧
      ((syms.map fun sym => (u.bookAt sym.toNat).code.length).sum ≤ s.params.msgCap →
        ∃ t, runCommands (bookCall syms ++ packCall syms ++ decodeCall) s = .next t ∧ t.err = .none ∧ t.decDone = true ∧
          (t.out = syms.map fun sym => sym.toNat) ∧ (syms = [] → t.msg = [] ∧ t.treeValid = false))

/-! ## Errors -/

/-- R222: while an error is recorded `NOP`, `ERRACK` and `CLR` act, the last two not after the fatal `InternalFault`; every
other command and every other word is ignored; node-window writes are ignored; `IDX` writes and reads work as always. -/
def Obligations.FrozenInstanceRunsOnlyNopErrackAndClr : Prop :=
  ∀ s : State, ¬s.Live →
    performAccess (.write 0x00 4 0x00000000) s = .next s ∧
    performAccess (.write 0x00 4 0x0D000000) s =
      .next (if s.err = .internalFault then s else { s with err := .none, errSub := 0, errInfo := 0 }) ∧
    performAccess (.write 0x00 4 0x01000000) s =
      .next (if s.err = .internalFault then s
        else { State.resetWith s.params with idx := s.idx, pending := s.pending, reply := s.reply }) ∧
    (∀ w, w ≠ 0x00000000 → w ≠ 0x0D000000 → w ≠ 0x01000000 → performAccess (.write 0x00 4 w) s = .next s) ∧
    (∀ i, i ≠ .nop → i ≠ .errack → i ≠ .clr → exec i s = .next s) ∧
    (∀ offset v, offset = 0x30 ∨ offset = 0x34 ∨ offset = 0x38 → performAccess (.write offset 4 v) s = .next s) ∧
    (∀ v, performAccess (.write 0x28 4 v) s = .next { s with idx := v }) ∧
    ∀ offset, offset % 4 = 0 → offset ≤ 0xFC →
      performAccess (.read offset 4) s = .next { s with reply := some (readReg s (regAt offset)) }

/-- R181, R186, R221, R234, R237: an error leaves the state before the command but for the error registers, which hold the
command's word; a decode error of `UNPACK`, `DEND` or `DRUN` also empties the output; a `DRUN` that fails after `k` steps, at the
next step or at the check at the end of the stream, keeps the `k` bits it took and the cursor it reached. -/
def Obligations.ErrorsArePrecise : Prop :=
  ∀ (i : Instr) (s t : State), s.Live → exec i s = .next t → t.err ≠ .none →
    t.errInfo = encode i ∧
    (i ≠ .unpack → i ≠ .dend → i ≠ .drun →
      t = { s with err := t.err, errSub := t.errSub, errInfo := encode i }) ∧
    (i = .unpack ∨ i = .dend →
      (t.err = .illegalCommand → t = { s with err := .illegalCommand, errSub := 3, errInfo := encode i }) ∧
      (t.err ≠ .illegalCommand → t = { s with out := [], err := t.err, errSub := t.errSub, errInfo := encode i })) ∧
    (i = .drun →
      (t.err = .illegalCommand → s.decDone = true ∧
        t = { s with err := .illegalCommand, errSub := 3, errInfo := encode .drun }) ∧
      (t.err ≠ .illegalCommand → s.decDone = false ∧
        ∃ (k : Nat) (u : State), unpackLoop (encode .drun) k s = .ok u ∧
          u = { s with out := u.out, cur := u.cur, msgRd := s.msgRd + k } ∧
          t = { u with out := [], err := t.err, errSub := t.errSub, errInfo := encode .drun } ∧
          ((u.msgRd < u.msg.length ∧ unpackStep (encode .drun) u = .error t) ∨
            (u.msg.length ≤ u.msgRd ∧ u.cur ≠ u.root ∧ t.err = .malformedInput ∧ t.errSub = 1))))

/-- R223 to R232: which commands raise which error, and its sub-cause. -/
def Obligations.EachErrorComesFromItsCommands : Prop :=
  ∀ (i : Instr) (s t : State), s.Live → exec i s = .next t →
    (t.err = .unknownSymbol → t.errSub = 0 ∧ ∃ sym, i = .pack sym) ∧
    (t.err = .malformedInput →
      (t.errSub = 1 ∧ (i = .dend ∨ i = .drun)) ∨ ((t.errSub = 2 ∨ t.errSub = 3) ∧ (i = .unpack ∨ i = .drun))) ∧
    (t.err = .internalFault → (t.errSub = 1 ∧ i = .build) ∨ (t.errSub = 2 ∧ (i = .unpack ∨ i = .drun)) ∨
      (t.errSub = 3 ∧ i = .genc)) ∧
    (t.err = .illegalCommand → t.errSub = 3 ∧ ((∃ sym, i = .count sym) ∨ i = .unpack ∨ i = .dend ∨ i = .drun)) ∧
    (t.err = .countOverflow → t.errSub = 0 ∧ ∃ sym, i = .count sym) ∧
    (t.err = .msgOverflow → t.errSub = 0 ∧ ((∃ sym, i = .pack sym) ∨ ∃ bit, i = .putbit bit)) ∧
    (t.err = .outOverflow → t.errSub = 0 ∧ (i = .unpack ∨ i = .drun)) ∧
    (t.err = .badTree → t.errSub = 0 ∧ ∃ node, i = .adopt node)

/-- R225, R239: the first error is never overwritten: a step keeps it or clears all three registers; the fatal
`InternalFault` is left by reset only. -/
def Obligations.FirstErrorIsKeptUntilItIsCleared : Prop :=
  ∀ s t : State, ¬s.Live → step s = .next t →
    ((t.err = s.err ∧ t.errSub = s.errSub ∧ t.errInfo = s.errInfo) ∨ (t.err = .none ∧ t.errSub = 0 ∧ t.errInfo = 0)) ∧
    (s.err = .internalFault → t.err = .internalFault ∨ ∃ rest, s.pending = .reset :: rest)

/-- R53 item 8, R225: from a state of the invariant no step raises the fatal `InternalFault`. -/
def Obligations.InternalFaultNeverArises : Prop :=
  ∀ s t : State, s.Inv → s.err ≠ .internalFault → step s = .next t → t.err ≠ .internalFault

/-! ## The whole machine -/

/-- R24, R26, R28, R29, R37, R61: which commands may write which elements, over all commands and states. -/
def Obligations.EachElementIsWrittenByItsCommandsOnly : Prop :=
  ∀ (i : Instr) (s t : State), exec i s = .next t →
    t.params = s.params ∧ t.idx = s.idx ∧ t.pending = s.pending ∧ t.reply = s.reply ∧
    ((∀ sym, i ≠ .count sym) → i ≠ .clr → t.freq = s.freq ∧ t.total = s.total) ∧
    (i ≠ .build → i ≠ .clr → t.node = s.node ∧ t.seq = s.seq ∧ t.flock = s.flock) ∧
    (i ≠ .build → i ≠ .clr → (∀ node, i ≠ .adopt node) → t.root = s.root ∧ t.treeValid = s.treeValid) ∧
    (i ≠ .build → i ≠ .clr → (∀ node, i ≠ .adopt node) → i ≠ .genc → t.book = s.book) ∧
    ((∀ sym, i ≠ .pack sym) → (∀ bit, i ≠ .putbit bit) → i ≠ .mclr → i ≠ .clr → t.msg = s.msg) ∧
    (i ≠ .build → i ≠ .clr → (∀ node, i ≠ .adopt node) → i ≠ .mclr → i ≠ .dstart → i ≠ .unpack → i ≠ .dend → i ≠ .drun →
      t.msgRd = s.msgRd ∧ t.cur = s.cur ∧ t.out = s.out ∧ t.decDone = s.decDone)

/-- Every step keeps the stores in canonical form and the parameters as they are. -/
def Obligations.EveryStepKeepsTheStoresCanonical : Prop :=
  ∀ s t : State, Memory.wf s = true → step s = .next t → Memory.wf t = true ∧ t.params = s.params

/-- R53: every step keeps the invariant. -/
def Obligations.EveryStepKeepsTheInvariant : Prop :=
  ∀ s t : State, s.Inv → step s = .next t → t.Inv

/-! ## What a tree is -/

/-- R137: `WellFormedTree(r)` is true exactly where `r` is an index of the store, every node that a path from `r` reaches is a
leaf with a positive count or an internal node whose two children have lower indices and whose frequency is the sum of theirs,
and no two paths reach leaves of the same symbol. -/
def Obligations.WellFormedTreeAcceptsExactlyTheTrees : Prop :=
  ∀ (s : State) (r : Nat), s.wellFormedTree r = true ↔
    r < s.params.nodeMax ∧
    (∀ p i, s.follow r p = some i →
      ((s.nodeAt i).kind = .leaf ∧ 0 < (s.nodeAt i).freq) ∨
      ((s.nodeAt i).kind = .internal ∧ (s.nodeAt i).left < i ∧ (s.nodeAt i).right < i ∧
        (s.nodeAt i).freq = (s.nodeAt (s.nodeAt i).left).freq + (s.nodeAt (s.nodeAt i).right).freq)) ∧
    (∀ p q i j, s.follow r p = some i → (s.nodeAt i).kind = .leaf → s.follow r q = some j → (s.nodeAt j).kind = .leaf →
      (s.nodeAt i).sym = (s.nodeAt j).sym → p = q)
end

