-- ==== Sys2Proof/Laws/Store.lean ====
section
/-!
SUPPORT. The laws of the stores: reading after writing, and that writing keeps the canonical form.
-/
namespace Sys2Proof.Machine

variable {α : Type} {d : α}

@[simp] theorem Store.get_nil (i : Nat) : Store.get d ([] : Store α) i = d := rfl

@[simp] theorem Store.get_cons (e : Nat × α) (m : Store α) (i : Nat) :
    Store.get d (e :: m) i = if e.1 = i then e.2 else Store.get d m i := rfl

/-- An index that is not listed reads as the default. -/
theorem Store.get_of_notMem {m : Store α} {i : Nat} (h : ∀ e ∈ m, e.1 ≠ i) : Store.get d m i = d := by
  induction m with
  | nil => rfl
  | cons e m ih =>
    rw [Store.get_cons, if_neg (h e (by simp)), ih fun e' he' => h e' (by simp [he'])]

theorem Store.get_erase (m : Store α) (i j : Nat) :
    Store.get d (Store.erase m i) j = if i = j then d else Store.get d m j := by
  induction m with
  | nil => simp [Store.erase]
  | cons e m ih =>
    rw [Store.erase] at ih
    by_cases he : e.1 = i
    · by_cases hj : i = j <;> simp_all [Store.erase]
    · by_cases hj : i = j
      · subst hj; simp_all [Store.erase]
      · simp_all [Store.erase]

theorem Store.get_insert {m : Store α} {i : Nat} (h : ∀ e ∈ m, e.1 ≠ i) (v : α) (j : Nat) :
    Store.get d (Store.insert m i v) j = if i = j then v else Store.get d m j := by
  induction m with
  | nil => rfl
  | cons e m ih =>
    have he : e.1 ≠ i := h e (by simp)
    have ih := ih fun e' he' => h e' (by simp [he'])
    simp only [Store.insert]
    split
    · simp
    · rw [Store.get_cons, ih, Store.get_cons]
      by_cases hj : i = j
      · subst hj; simp [he]
      · simp [hj]

/-- A read after a write: the value written at its own index, what was there at every other. -/
@[simp] theorem Store.get_set [DecidableEq α] (m : Store α) (i : Nat) (v : α) (j : Nat) :
    Store.get d (Store.set d m i v) j = if i = j then v else Store.get d m j := by
  unfold Store.set
  split
  · next h => rw [Store.get_erase, h]
  · rw [Store.get_insert (by simp [Store.erase]), Store.get_erase]
    by_cases hj : i = j <;> simp [hj]

/-- The entries of the store after a write: the new one and the old ones of other indices. -/
theorem Store.mem_insert {m : Store α} {i : Nat} {v : α} {e : Nat × α} :
    e ∈ Store.insert m i v ↔ e = (i, v) ∨ e ∈ m := by
  induction m with
  | nil => simp [Store.insert]
  | cons x m ih =>
    simp only [Store.insert]
    split
    · simp
    · simp only [List.mem_cons, ih]; tauto

theorem Store.mem_of_mem_set [DecidableEq α] {m : Store α} {i : Nat} {v : α} {e : Nat × α}
    (h : e ∈ Store.set d m i v) : e = (i, v) ∨ e ∈ m := by
  unfold Store.set at h
  split at h
  · exact .inr (List.mem_filter.mp h).1
  · exact (Store.mem_insert.mp h).imp_right fun h => (List.mem_filter.mp h).1

theorem Store.wf_iff [DecidableEq α] {m : Store α} :
    Store.wf d m = true ↔ (m.map Prod.fst).Pairwise (· < ·) ∧ ∀ e ∈ m, e.2 ≠ d := by
  simp [Store.wf]

theorem Store.pairwise_erase {m : Store α} (h : (m.map Prod.fst).Pairwise (· < ·)) (i : Nat) :
    ((Store.erase m i).map Prod.fst).Pairwise (· < ·) :=
  h.sublist (List.Sublist.map _ List.filter_sublist)

theorem Store.pairwise_insert {m : Store α} {i : Nat} {v : α} (h : (m.map Prod.fst).Pairwise (· < ·))
    (hi : ∀ e ∈ m, e.1 ≠ i) : ((Store.insert m i v).map Prod.fst).Pairwise (· < ·) := by
  induction m with
  | nil => simp [Store.insert]
  | cons x m ih =>
    have hx : x.1 ≠ i := hi x (by simp)
    have hm : ∀ e ∈ m, e.1 ≠ i := fun e he => hi e (by simp [he])
    simp only [List.map_cons, List.pairwise_cons] at h
    simp only [Store.insert]
    split
    · next hlt =>
      simp only [List.map_cons, List.pairwise_cons]
      refine ⟨fun k hk => ?_, h.1, h.2⟩
      rcases List.mem_cons.mp hk with rfl | hk
      · exact hlt
      · exact lt_trans hlt (h.1 k hk)
    · next hlt =>
      simp only [List.map_cons, List.pairwise_cons]
      refine ⟨fun k hk => ?_, ih h.2 hm⟩
      obtain ⟨e, he, rfl⟩ := List.mem_map.mp hk
      rcases Store.mem_insert.mp he with rfl | he
      · show x.1 < i
        omega
      · exact h.1 _ (List.mem_map_of_mem he)

/-- Every write keeps the canonical form. -/
theorem Store.wf_set [DecidableEq α] {m : Store α} (h : Store.wf d m = true) (i : Nat) (v : α) :
    Store.wf d (Store.set d m i v) = true := by
  rw [Store.wf_iff] at h ⊢
  unfold Store.set
  split
  · exact ⟨Store.pairwise_erase h.1 i, fun e he => h.2 e (List.mem_filter.mp he).1⟩
  · next hv =>
    refine ⟨Store.pairwise_insert (Store.pairwise_erase h.1 i) (by simp [Store.erase]), fun e he => ?_⟩
    rcases Store.mem_insert.mp he with rfl | he
    · exact hv
    · exact h.2 e (List.mem_filter.mp he).1

@[simp] theorem Store.wf_nil [DecidableEq α] : Store.wf d ([] : Store α) = true := by simp [Store.wf]

/-- A listed index of a canonical store holds what is listed. -/
theorem Store.get_of_mem {m : Store α} (h : (m.map Prod.fst).Pairwise (· < ·)) {e : Nat × α} (he : e ∈ m) :
    Store.get d m e.1 = e.2 := by
  induction m with
  | nil => simp at he
  | cons x m ih =>
    simp only [List.map_cons, List.pairwise_cons] at h
    rcases List.mem_cons.mp he with rfl | he
    · simp
    · have := h.1 _ (List.mem_map_of_mem he)
      rw [Store.get_cons, if_neg (by omega), ih h.2 he]

/-- Two canonical stores that read alike at every index are the same list. -/
theorem Store.ext_of_get [DecidableEq α] {m n : Store α} (hm : Store.wf d m = true) (hn : Store.wf d n = true)
    (h : ∀ i, Store.get d m i = Store.get d n i) : m = n := by
  rw [Store.wf_iff] at hm hn
  induction m generalizing n with
  | nil =>
    cases n with
    | nil => rfl
    | cons y n =>
      have := h y.1
      rw [Store.get_of_mem hn.1 (by simp : y ∈ y :: n)] at this
      exact absurd this.symm (hn.2 y (by simp))
  | cons x m ih =>
    cases n with
    | nil =>
      have := h x.1
      rw [Store.get_of_mem hm.1 (by simp : x ∈ x :: m)] at this
      exact absurd this (hm.2 x (by simp))
    | cons y n =>
      have hx := h x.1
      have hy := h y.1
      rw [Store.get_of_mem hm.1 (by simp : x ∈ x :: m)] at hx
      rw [Store.get_of_mem hn.1 (by simp : y ∈ y :: n)] at hy
      have hm1 := hm.1
      have hn1 := hn.1
      simp only [List.map_cons, List.pairwise_cons] at hm1 hn1
      have hmem : ∀ {z : Nat × α} {l : Store α} {i : Nat}, (∀ k ∈ l.map Prod.fst, z.1 < k) → i < z.1 →
          Store.get d (z :: l) i = d := by
        intro z l i hz hi
        apply Store.get_of_notMem
        intro e he
        rcases List.mem_cons.mp he with rfl | he
        · omega
        · have := hz _ (List.mem_map_of_mem he); omega
      have hk : x.1 = y.1 := by
        rcases lt_trichotomy x.1 y.1 with hlt | heq | hgt
        · rw [hmem hn1.1 hlt] at hx; exact absurd hx (hm.2 x (by simp))
        · exact heq
        · rw [hmem hm1.1 hgt] at hy; exact absurd hy.symm (hn.2 y (by simp))
      have hv : x.2 = y.2 := by rw [hx, hk]; simp
      have hxy : x = y := Prod.ext hk hv
      subst hxy
      congr 1
      refine ih ⟨hm1.2, fun e he => hm.2 e (by simp [he])⟩ ⟨hn1.2, fun e he => hn.2 e (by simp [he])⟩ fun i => ?_
      have hi := h i
      simp only [Store.get_cons] at hi
      by_cases hxi : x.1 = i
      · subst hxi
        rw [Store.get_of_notMem fun e he => (hm1.1 _ (List.mem_map_of_mem he)).ne',
          Store.get_of_notMem fun e he => (hn1.1 _ (List.mem_map_of_mem he)).ne']
      · simpa [hxi] using hi

end Sys2Proof.Machine
end

