-- ==== Sys2Proof/Laws/Tree.lean ====
section
/-!
SUPPORT. `WellFormedTree` said as an inductive predicate: what its walk accepts, and that it accepts every such tree.
-/
namespace Sys2Proof.Machine

/-- The entries at and below index `i` form a tree laid out as R137 asks, its leaves' symbols `syms` from left to right. -/
inductive Subtree (nd : Nat → NodeEntry) : Nat → List Nat → Prop where
  | leaf {i : Nat} (hk : (nd i).kind = .leaf) (hf : (nd i).freq ≠ 0) : Subtree nd i [(nd i).sym]
  | internal {i : Nat} {a b : List Nat} (hk : (nd i).kind = .internal) (hl : (nd i).left < i) (hr : (nd i).right < i)
      (ha : Subtree nd (nd i).left a) (hb : Subtree nd (nd i).right b)
      (hf : (nd i).freq = (nd (nd i).left).freq + (nd (nd i).right).freq) : Subtree nd i (a ++ b)

theorem Subtree.kind_ne_empty {nd : Nat → NodeEntry} {i : Nat} {syms : List Nat} (h : Subtree nd i syms) :
    (nd i).kind ≠ .empty := by
  cases h <;> simp_all

theorem Subtree.ne_nil {nd : Nat → NodeEntry} {i : Nat} {syms : List Nat} (h : Subtree nd i syms) : syms ≠ [] := by
  induction h <;> simp_all

theorem Subtree.freq_pos {nd : Nat → NodeEntry} {i : Nat} {syms : List Nat} (h : Subtree nd i syms) : 0 < (nd i).freq := by
  induction h <;> omega

/-- A subtree depends on the entries at and below its index only. -/
theorem Subtree.congr {nd nd' : Nat → NodeEntry} {i : Nat} {syms : List Nat} (h : Subtree nd i syms)
    (heq : ∀ j ≤ i, nd' j = nd j) : Subtree nd' i syms := by
  induction h with
  | @leaf i hk hf =>
    have h := heq i le_rfl
    rw [← h]
    exact .leaf (by rw [h, hk]) (by rw [h]; exact hf)
  | @internal i a b hk hl hr _ _ hf iha ihb =>
    have h := heq i le_rfl
    refine .internal (by rw [h, hk]) (by rw [h]; exact hl) (by rw [h]; exact hr) ?_ ?_ ?_
    · rw [h]; exact iha fun j hj => heq j (by omega)
    · rw [h]; exact ihb fun j hj => heq j (by omega)
    · rw [h, heq _ hl.le, heq _ hr.le, hf]

/-- What the walk of R137 accepts is a subtree, its symbols new and distinct. -/
theorem wellFormedFrom_sound {s : State} {n i : Nat} {seen res : List Nat}
    (h : wellFormedFrom s n i seen = some res) (hs : seen.Nodup) :
    ∃ syms, Subtree s.nodeAt i syms ∧ res = syms.reverse ++ seen ∧ res.Nodup := by
  induction n generalizing i seen res with
  | zero => simp [wellFormedFrom] at h
  | succ n ih =>
    simp only [wellFormedFrom] at h
    split at h
    · next hk =>
      split at h
      · exact absurd h (by simp)
      · next hc =>
        push Not at hc
        obtain rfl : (s.nodeAt i).sym :: seen = res := by simpa using h
        exact ⟨[(s.nodeAt i).sym], .leaf hk hc.1, by simp, List.nodup_cons.mpr ⟨hc.2, hs⟩⟩
    · next hk =>
      split at h
      · exact absurd h (by simp)
      · next hc =>
        push Not at hc
        split at h
        · exact absurd h (by simp)
        · next seenL hL =>
          split at h
          · exact absurd h (by simp)
          · next seenR hR =>
            split at h
            · next hf =>
              obtain rfl : seenR = res := by simpa using h
              obtain ⟨a, ha, rfl, hna⟩ := ih hL hs
              obtain ⟨b, hb, rfl, hnb⟩ := ih hR hna
              exact ⟨a ++ b, .internal hk hc.1 hc.2 ha hb hf, by simp, hnb⟩
            · exact absurd h (by simp)
    · exact absurd h (by simp)

/-- The walk of R137 accepts every subtree whose symbols are new and distinct. -/
theorem wellFormedFrom_complete {s : State} {i : Nat} {syms : List Nat} (h : Subtree s.nodeAt i syms) :
    ∀ {n : Nat} {seen : List Nat}, i < n → (syms.reverse ++ seen).Nodup →
      wellFormedFrom s n i seen = some (syms.reverse ++ seen) := by
  induction h with
  | @leaf i hk hf =>
    intro n seen hi hn
    obtain ⟨n, rfl⟩ : ∃ k, n = k + 1 := ⟨n - 1, by omega⟩
    have hn : (s.nodeAt i).sym ∉ seen := by
      rw [List.reverse_singleton, List.singleton_append, List.nodup_cons] at hn
      exact hn.1
    simp [wellFormedFrom, hk, hf, hn]
  | @internal i a b hk hl hr _ _ hf iha ihb =>
    intro n seen hi hn
    obtain ⟨n, rfl⟩ : ∃ k, n = k + 1 := ⟨n - 1, by omega⟩
    have hn' : (b.reverse ++ (a.reverse ++ seen)).Nodup := by simpa using hn
    have ha := iha (n := n) (seen := seen) (by omega) (List.Nodup.of_append_right hn')
    have hb := ihb (n := n) (seen := a.reverse ++ seen) (by omega) hn'
    have hc : ¬(i ≤ (s.nodeAt i).left ∨ i ≤ (s.nodeAt i).right) := by omega
    simp [wellFormedFrom, hk, hc, ha, hb, hf]

/-- `WellFormedTree(r)` says: `r` is the index of an entry and the entries below it form a tree with distinct symbols. -/
theorem State.wellFormedTree_iff {s : State} {r : Nat} :
    s.wellFormedTree r = true ↔ r < s.params.nodeMax ∧ ∃ syms, Subtree s.nodeAt r syms ∧ syms.Nodup := by
  simp only [State.wellFormedTree, Bool.and_eq_true, decide_eq_true_eq]
  refine and_congr_right fun _ => ⟨fun h => ?_, fun ⟨syms, h, hn⟩ => ?_⟩
  · obtain ⟨res, hres⟩ := Option.isSome_iff_exists.mp h
    obtain ⟨syms, hsub, rfl, hn⟩ := wellFormedFrom_sound hres List.nodup_nil
    exact ⟨syms, hsub, by simpa using hn⟩
  · rw [wellFormedFrom_complete h (Nat.lt_succ_self r) (by simpa using hn)]
    rfl

end Sys2Proof.Machine
end

