-- ==== Sys2Proof/Laws/Build.lean ====
section
/-!
SUPPORT. The priority structure and `BUILD`: the minimum exists and is the least, every merge keeps the forest, and what the
last merge leaves.
-/
namespace Sys2Proof.Machine

/-! ## The order of R131 -/

/-- The key of R132: frequency, leaf before internal, symbol or index. -/
def orderKey (p : Params) (node : Store NodeEntry) (x : Nat) : Nat × Nat × Nat :=
  let e := nodeGet p node x
  match e.kind with
  | .leaf => (e.freq, 0, e.sym)
  | .internal => (e.freq, 1, x)
  | .empty => (e.freq, 2, x)

/-- The lexicographic order of the keys. -/
def keyLt (a b : Nat × Nat × Nat) : Prop :=
  a.1 < b.1 ∨ (a.1 = b.1 ∧ (a.2.1 < b.2.1 ∨ (a.2.1 = b.2.1 ∧ a.2.2 < b.2.2)))

/-- On entries that are not `EMPTY`, `Less` decides the order of the keys. -/
theorem less_eq_some {p : Params} {node : Store NodeEntry} {x y : Nat} (hx : (nodeGet p node x).kind ≠ .empty)
    (hy : (nodeGet p node y).kind ≠ .empty) :
    ∃ b, less p node x y = some b ∧ (b = true ↔ keyLt (orderKey p node x) (orderKey p node y)) := by
  unfold less orderKey keyLt
  by_cases hf : (nodeGet p node x).freq = (nodeGet p node y).freq
  · rcases hkx : (nodeGet p node x).kind with _ | _ | _ <;> rcases hky : (nodeGet p node y).kind with _ | _ | _ <;>
      simp_all
  · rcases hkx : (nodeGet p node x).kind with _ | _ | _ <;> rcases hky : (nodeGet p node y).kind with _ | _ | _ <;>
      simp_all

theorem keyLt_trans {a b c : Nat × Nat × Nat} (h1 : keyLt a b) (h2 : keyLt b c) : keyLt a c := by
  unfold keyLt at *; omega

theorem keyLt_irrefl (a : Nat × Nat × Nat) : ¬keyLt a a := by unfold keyLt; omega

theorem keyLt_total {a b : Nat × Nat × Nat} (h : a ≠ b) : keyLt a b ∨ keyLt b a := by
  obtain ⟨a1, a2, a3⟩ := a
  obtain ⟨b1, b2, b3⟩ := b
  simp only [ne_eq, Prod.mk.injEq, not_and] at h
  unfold keyLt
  simp only
  omega

theorem orderKey_injective {p : Params} {node : Store NodeEntry} {x y : Nat} (hx : (nodeGet p node x).kind ≠ .empty)
    (hy : (nodeGet p node y).kind ≠ .empty)
    (hs : (nodeGet p node x).kind = .leaf → (nodeGet p node y).kind = .leaf →
      (nodeGet p node x).sym = (nodeGet p node y).sym → x = y)
    (h : orderKey p node x = orderKey p node y) : x = y := by
  unfold orderKey at h
  rcases hkx : (nodeGet p node x).kind with _ | _ | _ <;> rcases hky : (nodeGet p node y).kind with _ | _ | _ <;>
    simp_all

/-- The least member exists, is a member, and no other sorts before it. -/
theorem minimum_spec {p : Params} {node : Store NodeEntry} (q : List Nat) :
    ∀ m : Nat, (∀ x ∈ m :: q, (nodeGet p node x).kind ≠ .empty) →
      ∃ r, minimum p node m q = some r ∧ r ∈ m :: q ∧
        ∀ y ∈ m :: q, ¬keyLt (orderKey p node y) (orderKey p node r) := by
  induction q with
  | nil => intro m _; exact ⟨m, rfl, by simp, by simp [keyLt_irrefl]⟩
  | cons x q ih =>
    intro m h
    obtain ⟨b, hb, hlt⟩ := less_eq_some (h x (by simp)) (h m (by simp))
    cases b with
    | true =>
      obtain ⟨r, hr, hmem, hmin⟩ := ih x fun y hy => h y (by simp only [List.mem_cons] at hy ⊢; tauto)
      refine ⟨r, by simp [minimum, hb, hr], by simp only [List.mem_cons] at hmem ⊢; tauto, fun y hy => ?_⟩
      rcases List.mem_cons.mp hy with rfl | hy
      · intro hlt'
        exact hmin x (by simp) (keyLt_trans (hlt.mp rfl) hlt')
      · exact hmin y hy
    | false =>
      obtain ⟨r, hr, hmem, hmin⟩ := ih m fun y hy => h y (by simp only [List.mem_cons] at hy ⊢; tauto)
      refine ⟨r, by simp [minimum, hb, hr], by simp only [List.mem_cons] at hmem ⊢; tauto, fun y hy => ?_⟩
      have hxm : ¬keyLt (orderKey p node x) (orderKey p node m) := fun h => by simpa using hlt.mpr h
      simp only [List.mem_cons] at hy
      rcases hy with rfl | rfl | hy
      · exact hmin _ (by simp)
      · intro hlt'
        by_cases hmr : orderKey p node m = orderKey p node r
        · exact hxm (hmr ▸ hlt')
        · rcases keyLt_total hmr with h1 | h1
          · exact hmin m (by simp) h1
          · exact hxm (keyLt_trans hlt' h1)
      · exact hmin y (by simp [hy])

/-- Dequeuing takes out a member that no other sorts before. -/
theorem dequeue_spec {p : Params} {node : Store NodeEntry} {q : List Nat} (hq : q ≠ [])
    (h : ∀ x ∈ q, (nodeGet p node x).kind ≠ .empty) :
    ∃ m, dequeue p node q = some (m, q.erase m) ∧ m ∈ q ∧
      ∀ y ∈ q, ¬keyLt (orderKey p node y) (orderKey p node m) := by
  cases q with
  | nil => exact absurd rfl hq
  | cons x q =>
    obtain ⟨r, hr, hmem, hmin⟩ := minimum_spec q x h
    exact ⟨r, by simp [dequeue, hr], hmem, hmin⟩

/-! ## Forests -/

@[simp] theorem Forest.create_node (f : Forest) (q : List Nat) (e : NodeEntry) :
    (f.create q e).node = Store.set NodeEntry.blank f.node f.seq e := rfl
@[simp] theorem Forest.create_seq (f : Forest) (q : List Nat) (e : NodeEntry) : (f.create q e).seq = f.seq + 1 := rfl
@[simp] theorem Forest.create_queue (f : Forest) (q : List Nat) (e : NodeEntry) :
    (f.create q e).queue = f.seq :: q := rfl

/-- `nodeGet` after a node was stored at a free index. -/
theorem nodeGet_set (p : Params) (node : Store NodeEntry) (i : Nat) (e : NodeEntry) (j : Nat) :
    nodeGet p (Store.set NodeEntry.blank node i e) j = if i = j ∧ j < p.nodeMax then e else nodeGet p node j := by
  unfold nodeGet
  rw [Store.get_set]
  by_cases hj : j < p.nodeMax <;> by_cases hi : i = j <;> simp [hi, hj]

/-- What holds of the forest while `BUILD` runs: `n` leaves were planted, `total` is the sum of their counts and `symbols`
their symbols; `syms i` are those below root `i`. -/
structure Forest.Good (p : Params) (n total : Nat) (symbols : List Nat) (f : Forest) (syms : Nat → List Nat) : Prop where
  size : f.seq + f.queue.length = 2 * n
  bound : n ≤ p.nsym
  below : ∀ i ∈ f.queue, i < f.seq
  distinct : f.queue.Nodup
  trees : ∀ i ∈ f.queue, Subtree (nodeGet p f.node) i (syms i)
  leaves : (f.queue.flatMap syms).Perm symbols
  sum : (f.queue.map fun i => (nodeGet p f.node i).freq).sum = total
  fresh : ∀ e ∈ f.node, e.1 < f.seq
  entries : ∀ i < f.seq, (nodeGet p f.node i).kind ≠ .empty
  fits : ∀ e ∈ f.node, e.2.freq ≤ total ∧ (e.2.sym = 0 ∨ e.2.sym ∈ symbols) ∧
    (e.2.left = 0 ∨ e.2.left < f.seq) ∧ (e.2.right = 0 ∨ e.2.right < f.seq)
  wf : Store.wf NodeEntry.blank f.node = true
  last : f.queue = [] ∨ (f.queue.length < n → f.seq - 1 ∈ f.queue)

theorem Forest.Good.seq_lt {p : Params} {n total : Nat} {symbols : List Nat} {f : Forest} {syms : Nat → List Nat}
    (h : f.Good p n total symbols syms) (hq : 2 ≤ f.queue.length) : f.seq < p.nodeMax := by
  have := h.size
  have := h.bound
  unfold Params.nodeMax
  omega

/-- Storing a node at the next index leaves the trees of lower indices as they are. -/
theorem Subtree.stored {p : Params} {node : Store NodeEntry} {k : Nat} {e : NodeEntry} {i : Nat} {syms : List Nat}
    (h : Subtree (nodeGet p node) i syms) (hi : i < k) :
    Subtree (nodeGet p (Store.set NodeEntry.blank node k e)) i syms :=
  h.congr fun j hj => by rw [nodeGet_set, if_neg (by omega)]

theorem sum_map_erase {q : List Nat} {m : Nat} (g : Nat → Nat) (hm : m ∈ q) :
    g m + ((q.erase m).map g).sum = (q.map g).sum := by
  have := (List.perm_cons_erase hm).map g
  simpa using (this.sum_eq).symm

/-- A merge joins two different trees of a forest of two or more, and the forest stays good. -/
theorem mergeOnce_spec {p : Params} {n total : Nat} {symbols : List Nat} {f : Forest} {syms : Nat → List Nat}
    (h : f.Good p n total symbols syms) (hq : 2 ≤ f.queue.length) :
    ∃ g syms', mergeOnce p f = some g ∧ g.Good p n total symbols syms' ∧ g.queue.length + 1 = f.queue.length := by
  obtain ⟨a, ha, hamem, -⟩ := dequeue_spec (p := p) (node := f.node) (q := f.queue) (by intro h0; simp [h0] at hq)
    fun x hx => h.entries x (h.below x hx)
  have hlen1 : (f.queue.erase a).length = f.queue.length - 1 := List.length_erase_of_mem hamem
  have hsub : ∀ x ∈ f.queue.erase a, x ∈ f.queue := fun x hx => List.mem_of_mem_erase hx
  obtain ⟨b, hb, hbmem, -⟩ := dequeue_spec (p := p) (node := f.node) (q := f.queue.erase a)
    (by intro h0; simp [h0] at hlen1; omega) fun x hx => h.entries x (h.below x (hsub x hx))
  have hlen2 : ((f.queue.erase a).erase b).length = f.queue.length - 2 := by
    rw [List.length_erase_of_mem hbmem, hlen1]; omega
  have hseq := h.seq_lt hq
  have hbq := hsub b hbmem
  have hsub2 : ∀ x ∈ (f.queue.erase a).erase b, x ∈ f.queue := fun x hx => hsub x (List.mem_of_mem_erase hx)
  have halt := h.below a hamem
  have hblt := h.below b hbq
  set e : NodeEntry :=
    { kind := .internal
      freq := (nodeGet p f.node a).freq + (nodeGet p f.node b).freq
      sym := 0
      left := a
      right := b } with he
  have hget : ∀ j, nodeGet p (Store.set NodeEntry.blank f.node f.seq e) j =
      if f.seq = j then e else nodeGet p f.node j := by
    intro j
    rw [nodeGet_set]
    by_cases hj : f.seq = j
    · simp [hj, hj ▸ hseq]
    · simp [hj]
  have hsum := sum_map_erase (fun i => (nodeGet p f.node i).freq) hamem
  have hsum2 := sum_map_erase (fun i => (nodeGet p f.node i).freq) hbmem
  have hperm : f.queue.Perm (a :: b :: (f.queue.erase a).erase b) :=
    (List.perm_cons_erase hamem).trans ((List.perm_cons_erase hbmem).cons a)
  refine ⟨f.create ((f.queue.erase a).erase b) e, fun i => if i = f.seq then syms a ++ syms b else syms i, ?_, ?_, ?_⟩
  · simp only [mergeOnce, ha, hb]
    rfl
  · have hne : ∀ x ∈ (f.queue.erase a).erase b, x ≠ f.seq := fun x hx => (h.below x (hsub2 x hx)).ne
    refine ⟨?_, h.bound, ?_, ?_, ?_, ?_, ?_, ?_, ?_, ?_, ?_, .inr fun _ => by simp [Forest.create]⟩
    · have := h.size
      simp only [Forest.create, List.length_cons, hlen2]
      omega
    · intro i hi
      rcases List.mem_cons.mp hi with rfl | hi
      · simp [Forest.create]
      · have := h.below i (hsub2 i hi)
        simp only [Forest.create]; omega
    · exact List.nodup_cons.mpr ⟨fun hin => hne _ hin rfl, (h.distinct.erase a).erase b⟩
    · intro i hi
      rcases List.mem_cons.mp hi with rfl | hi
      · simp only [if_true, Forest.create]
        have hs := hget f.seq
        rw [if_pos rfl] at hs
        have hA := hget a
        have hB := hget b
        rw [if_neg (by omega)] at hA hB
        refine .internal (by rw [hs]) (by rw [hs]; exact halt) (by rw [hs]; exact hblt) ?_ ?_ ?_
        · rw [hs]; exact (h.trees a hamem).stored halt
        · rw [hs]; exact (h.trees b hbq).stored hblt
        · rw [hs, hA, hB]
      · simp only [Forest.create, if_neg (hne i hi)]
        exact (h.trees i (hsub2 i hi)).stored (h.below i (hsub2 i hi))
    · refine List.Perm.trans ?_ h.leaves
      refine List.Perm.trans ?_ (hperm.flatMap_right syms).symm
      simp only [Forest.create, List.flatMap_cons, if_true, List.append_assoc]
      refine List.Perm.append_left _ (List.Perm.append_left _ ?_)
      rw [List.flatMap_congr fun x hx => if_neg (hne x hx)]
    · simp only [Forest.create, List.map_cons, List.sum_cons]
      have hs := hget f.seq
      rw [if_pos rfl] at hs
      have hrest : ((f.queue.erase a).erase b).map (fun i =>
          (nodeGet p (Store.set NodeEntry.blank f.node f.seq e) i).freq) =
          ((f.queue.erase a).erase b).map fun i => (nodeGet p f.node i).freq :=
        List.map_congr_left fun x hx => by rw [hget, if_neg (hne x hx).symm]
      rw [hrest, hs]
      have := h.sum
      simp only [he]
      omega
    · intro x hx
      rw [Forest.create_node] at hx
      rcases Store.mem_of_mem_set hx with rfl | hx
      · simp [Forest.create]
      · have := h.fresh x hx
        simp only [Forest.create]; omega
    · intro i hi
      simp only [Forest.create] at hi ⊢
      rw [hget]
      split
      · simp [he]
      · exact h.entries i (by omega)
    · intro x hx
      have htot := h.sum
      rw [Forest.create_node] at hx
      rcases Store.mem_of_mem_set hx with rfl | hx
      · refine ⟨?_, .inl rfl, .inr ?_, .inr ?_⟩
        · simp only [he]; omega
        · simp only [he, Forest.create]; omega
        · simp only [he, Forest.create]; omega
      · obtain ⟨h1, h2, h3, h4⟩ := h.fits x hx
        simp only [Forest.create]
        exact ⟨h1, h2, by omega, by omega⟩
    · rw [Forest.create_node]; exact Store.wf_set h.wf _ _
  · simp only [Forest.create, List.length_cons, hlen2]
    omega

/-- The merges end with one tree, or none where there was none. -/
theorem mergeAll_spec {p : Params} {n total : Nat} {symbols : List Nat} (k : Nat) :
    ∀ {f : Forest} {syms : Nat → List Nat}, f.Good p n total symbols syms → f.queue.length ≤ k + 1 →
      ∃ g syms', mergeAll p k f = some g ∧ g.Good p n total symbols syms' ∧ g.queue.length = min 1 f.queue.length := by
  induction k with
  | zero =>
    intro f syms h hk
    exact ⟨f, syms, rfl, h, by omega⟩
  | succ k ih =>
    intro f syms h hk
    by_cases hq : f.queue.length ≤ 1
    · exact ⟨f, syms, by simp [mergeAll, hq], h, by omega⟩
    · obtain ⟨g, syms', hg, hgood, hlen⟩ := mergeOnce_spec h (by omega)
      obtain ⟨g', syms'', hg', hgood', hlen'⟩ := ih hgood (by omega)
      exact ⟨g', syms'', by simp [mergeAll, hq, hg, hg'], hgood', by omega⟩

/-! ## Planting -/

/-- The symbols that have an entry in the frequency table, in the order given. -/
def plantedOf (freqOf : Nat → Nat) (symbols : List Nat) : List Nat := symbols.filter fun sym => 0 < freqOf sym

theorem plantLeaves_append_singleton (freqOf : Nat → Nat) (l : List Nat) (x : Nat) :
    plantLeaves freqOf (l ++ [x]) = plantLeaf freqOf (plantLeaves freqOf l) x := by
  simp [plantLeaves]

/-- Planting leaves one leaf per symbol with a count, at the indices `0, 1, ...` in the order of the symbols. -/
theorem plantLeaves_spec (freqOf : Nat → Nat) (symbols : List Nat) :
    (plantLeaves freqOf symbols).seq = (plantedOf freqOf symbols).length ∧
    (plantLeaves freqOf symbols).queue.reverse = List.range (plantedOf freqOf symbols).length ∧
    (∀ e ∈ (plantLeaves freqOf symbols).node, e.1 < (plantedOf freqOf symbols).length) ∧
    Store.wf NodeEntry.blank (plantLeaves freqOf symbols).node = true ∧
    ∀ (i : Nat) (hi : i < (plantedOf freqOf symbols).length),
      Store.get NodeEntry.blank (plantLeaves freqOf symbols).node i =
        { kind := .leaf, freq := freqOf (plantedOf freqOf symbols)[i], sym := (plantedOf freqOf symbols)[i],
          left := 0, right := 0 } := by
  induction symbols using List.reverseRecOn with
  | nil => simp [plantLeaves, plantedOf]
  | append_singleton l x ih =>
    obtain ⟨h1, h2, h3, h4, h5⟩ := ih
    rw [plantLeaves_append_singleton]
    by_cases hx : 0 < freqOf x
    · have hp : plantedOf freqOf (l ++ [x]) = plantedOf freqOf l ++ [x] := by simp [plantedOf, hx]
      simp only [plantLeaf, hx, if_true, Forest.create, hp, List.length_append, List.length_singleton]
      refine ⟨by rw [h1], ?_, ?_, Store.wf_set h4 _ _, ?_⟩
      · rw [List.reverse_cons, h2, h1, List.range_succ]
      · intro e he
        rcases Store.mem_of_mem_set he with rfl | he
        · simp only; omega
        · have := h3 e he; omega
      · intro i hi
        rw [Store.get_set, h1]
        split
        · next heq => subst heq; simp
        · next hne =>
          rw [h5 i (by omega)]
          congr 1 <;> rw [List.getElem_append_left]
    · have hp : plantedOf freqOf (l ++ [x]) = plantedOf freqOf l := by simp [plantedOf, hx]
      simp only [plantLeaf, hx, if_false, hp]
      exact ⟨h1, h2, h3, h4, h5⟩

theorem plantedOf_pos {freqOf : Nat → Nat} {symbols : List Nat} {sym : Nat} (h : sym ∈ plantedOf freqOf symbols) :
    0 < freqOf sym := by
  simpa using (List.mem_filter.mp h).2

/-- A symbol without a count adds nothing to the sum. -/
theorem sum_plantedOf (freqOf : Nat → Nat) (symbols : List Nat) :
    ((plantedOf freqOf symbols).map freqOf).sum = (symbols.map freqOf).sum := by
  induction symbols with
  | nil => rfl
  | cons x l ih =>
    unfold plantedOf at ih ⊢
    by_cases hx : 0 < freqOf x
    · simp [hx, ih]
    · have : freqOf x = 0 := by omega
      simp [this, ih]

/-- The planted forest is good: one tree per leaf. -/
theorem plantLeaves_good (p : Params) (freqOf : Nat → Nat) :
    let symbols := plantedOf freqOf (List.range p.nsym)
    (plantLeaves freqOf (List.range p.nsym)).Good p symbols.length (((List.range p.nsym).map freqOf).sum) symbols
      (fun i => [symbols.getD i 0]) := by
  intro symbols
  obtain ⟨h1, h2, h3, h4, h5⟩ := plantLeaves_spec freqOf (List.range p.nsym)
  set f := plantLeaves freqOf (List.range p.nsym) with hf
  change f.seq = symbols.length at h1
  change f.queue.reverse = List.range symbols.length at h2
  have hmem : ∀ i, i ∈ f.queue ↔ i < symbols.length := fun i => by rw [← List.mem_reverse, h2, List.mem_range]
  have hlen : f.queue.length = symbols.length := by rw [← List.length_reverse, h2, List.length_range]
  have hbound : symbols.length ≤ p.nsym := by
    have := List.length_filter_le (fun sym => decide (0 < freqOf sym)) (List.range p.nsym)
    rw [List.length_range] at this
    exact this
  have hget : ∀ (i : Nat) (hi : i < symbols.length), nodeGet p f.node i =
      { kind := .leaf, freq := freqOf symbols[i], sym := symbols[i], left := 0, right := 0 } := by
    intro i hi
    have : i < p.nodeMax := by unfold Params.nodeMax; omega
    rw [nodeGet, if_pos this, h5 i hi]
  have hall : (List.range symbols.length).map (fun i => symbols.getD i 0) = symbols := by
    apply List.ext_getElem (by simp)
    intro i h1 h2
    simp [List.getElem?_eq_getElem h2]
  have hsum : (symbols.map freqOf).sum = ((List.range p.nsym).map freqOf).sum := sum_plantedOf _ _
  refine ⟨by omega, hbound, fun i hi => by rw [h1]; exact (hmem i).mp hi, ?_, ?_, ?_, ?_, fun e he => by rw [h1]; exact h3 e he,
    ?_, ?_, h4, ?_⟩
  · rw [← List.nodup_reverse, h2]; exact List.nodup_range
  · intro i hi
    have hi := (hmem i).mp hi
    have hg := hget i hi
    have := Subtree.leaf (nd := nodeGet p f.node) (i := i) (by rw [hg])
      (by rw [hg]; exact (plantedOf_pos (List.getElem_mem hi)).ne')
    rw [hg] at this
    simpa [List.getElem?_eq_getElem hi] using this
  · have hrev : (f.queue.flatMap fun i => [symbols.getD i 0]).Perm (f.queue.reverse.flatMap fun i => [symbols.getD i 0]) :=
      (List.reverse_perm f.queue).symm.flatMap_right _
    refine hrev.trans (List.Perm.of_eq ?_)
    rw [h2, ← List.map_eq_flatMap, hall]
  · have hrev : (f.queue.map fun i => (nodeGet p f.node i).freq).sum =
        (f.queue.reverse.map fun i => (nodeGet p f.node i).freq).sum :=
      ((List.reverse_perm f.queue).symm.map _).sum_eq
    rw [hrev, h2, ← hsum]
    congr 1
    conv_rhs => rw [← hall, List.map_map]
    apply List.map_congr_left
    intro i hi
    have hi := List.mem_range.mp hi
    simp [hget i hi, List.getElem?_eq_getElem hi]
  · intro i hi
    rw [h1] at hi
    rw [hget i hi]
    simp
  · intro e he
    have hlt := h3 e he
    have hval := Store.get_of_mem (d := NodeEntry.blank) (Store.wf_iff.mp h4).1 he
    rw [h5 e.1 hlt] at hval
    rw [← hval]
    refine ⟨?_, .inr (List.getElem_mem _), .inl rfl, .inl rfl⟩
    rw [← hsum]
    exact List.single_le_sum (by simp) _ (List.mem_map_of_mem (List.getElem_mem _))
  · exact .inr fun h => by omega

/-- `BUILD`'s forest exists in every state, and it is the good forest of at most one tree. -/
theorem growForest_spec (p : Params) (freqOf : Nat → Nat) :
    let symbols := plantedOf freqOf (List.range p.nsym)
    ∃ f syms, growForest p freqOf = some f ∧
      f.Good p symbols.length (((List.range p.nsym).map freqOf).sum) symbols syms ∧
      f.queue.length = min 1 symbols.length := by
  intro symbols
  have hgood := plantLeaves_good p freqOf
  obtain ⟨f, syms, hf, hg, hlen⟩ := mergeAll_spec _ hgood (Nat.le_succ _)
  have hq : (plantLeaves freqOf (List.range p.nsym)).queue.length = symbols.length := by
    have := (plantLeaves_spec freqOf (List.range p.nsym)).2.1
    rw [← List.length_reverse, this, List.length_range]
  exact ⟨f, syms, hf, hg, by rw [hlen, hq]⟩

end Sys2Proof.Machine
end

