-- ==== Sys2Proof/Laws/Decode.lean ====
section
/-!
SUPPORT. The fields of an encoded command and of any word, and the formats read back what was written.
-/
namespace Sys2Proof

theorem encode_eq (i : Instr) : encode i = (i.opcode ++ i.operandBits : BitVec (8 + 24)) := rfl

@[simp] theorem opField_append (o : BitVec 8) (a : BitVec 24) : opField (o ++ a : BitVec (8 + 24)) = o :=
  BitVec.extractLsb'_append_eq_left

@[simp] theorem argField_append (o : BitVec 8) (a : BitVec 24) : argField (o ++ a : BitVec (8 + 24)) = a :=
  BitVec.extractLsb'_append_eq_right

@[simp] theorem opField_encode (i : Instr) : opField (encode i) = i.opcode := opField_append _ _

@[simp] theorem argField_encode (i : Instr) : argField (encode i) = i.operandBits := argField_append _ _

/-- A word is its two fields. -/
theorem append_fields (w : Word) : (opField w ++ argField w : BitVec (8 + 24)) = w := by
  apply BitVec.eq_of_toNat_eq
  simp only [opField, argField, BitVec.toNat_append, BitVec.extractLsb'_toNat, Nat.shiftRight_zero]
  rw [← Nat.shiftLeft_add_eq_or_of_lt (Nat.mod_lt _ (by decide)), Nat.shiftLeft_eq, Nat.shiftRight_eq_div_pow]
  have := w.isLt
  omega

theorem opField_toNat (w : Word) : (opField w).toNat = w.toNat / 2 ^ 24 := by
  have := w.isLt
  rw [opField, BitVec.extractLsb'_toNat, Nat.shiftRight_eq_div_pow]
  omega

theorem argField_toNat (w : Word) : (argField w).toNat = w.toNat % 2 ^ 24 := by
  rw [argField, BitVec.extractLsb'_toNat, Nat.shiftRight_zero]

/-- The must-be-zero bits above an operand of `n` bits are zero exactly when `arg` is below `2 ^ n`. -/
theorem restIsZero_iff (n : Nat) (arg : BitVec 24) : restIsZero n arg ↔ arg.toNat < 2 ^ n := by
  rw [restIsZero, ← BitVec.toNat_inj, BitVec.toNat_ushiftRight, Nat.shiftRight_eq_div_pow]
  simp only [BitVec.toNat_ofNat, Nat.zero_mod]
  rw [Nat.div_eq_zero_iff]
  have : 0 < 2 ^ n := Nat.two_pow_pos n
  omega

/-! ## The formats -/

theorem formatN_ok {arg : BitVec 24} {i j : Instr} : formatN arg i = .ok j ↔ arg.toNat < 1 ∧ j = i := by
  have hz := restIsZero_iff 0 arg
  unfold formatN
  by_cases h : restIsZero 0 arg
  · rw [if_pos h, Except.ok.injEq, eq_comm]
    exact ⟨fun hj => ⟨hz.mp h, hj⟩, fun hj => hj.2⟩
  · rw [if_neg h]
    exact ⟨fun hj => absurd hj (by simp), fun hj => absurd (hz.mpr hj.1) h⟩

theorem formatS_ok {p : Params} {arg : BitVec 24} {mk : BitVec 8 → Instr} {j : Instr} :
    formatS p arg mk = .ok j ↔ arg.toNat < 2 ^ p.symW ∧ j = mk (arg.setWidth 8) := by
  have hz := restIsZero_iff p.symW arg
  unfold formatS
  by_cases h : restIsZero p.symW arg
  · rw [if_pos h, Except.ok.injEq, eq_comm]
    exact ⟨fun hj => ⟨hz.mp h, hj⟩, fun hj => hj.2⟩
  · rw [if_neg h]
    exact ⟨fun hj => absurd hj (by simp), fun hj => absurd (hz.mpr hj.1) h⟩

theorem formatB_ok {arg : BitVec 24} {mk : Bool → Instr} {j : Instr} :
    formatB arg mk = .ok j ↔ arg.toNat < 2 ∧ j = mk (arg.getLsbD 0) := by
  have hz := restIsZero_iff 1 arg
  unfold formatB
  by_cases h : restIsZero 1 arg
  · rw [if_pos h, Except.ok.injEq, eq_comm]
    exact ⟨fun hj => ⟨hz.mp h, hj⟩, fun hj => hj.2⟩
  · rw [if_neg h]
    exact ⟨fun hj => absurd hj (by simp), fun hj => absurd (hz.mpr hj.1) h⟩

theorem formatI_ok {p : Params} {arg : BitVec 24} {mk : BitVec 9 → Instr} {j : Instr} :
    formatI p arg mk = .ok j ↔ arg.toNat < 2 ^ p.nidxW ∧ j = mk (arg.setWidth 9) := by
  have hz := restIsZero_iff p.nidxW arg
  unfold formatI
  by_cases h : restIsZero p.nidxW arg
  · rw [if_pos h, Except.ok.injEq, eq_comm]
    exact ⟨fun hj => ⟨hz.mp h, hj⟩, fun hj => hj.2⟩
  · rw [if_neg h]
    exact ⟨fun hj => absurd hj (by simp), fun hj => absurd (hz.mpr hj.1) h⟩

/-- `SYM_W` is at most 8 and `NIDX_W` at most 9 in a legal instance (R10). -/
theorem Params.Legal.two_pow_le {p : Params} (h : p.Legal) : 2 ^ p.symW ≤ 2 ^ 8 ∧ 2 ^ p.nidxW ≤ 2 ^ 9 := by
  have := h.1.2
  exact ⟨Nat.pow_le_pow_right (by omega) (by omega), Nat.pow_le_pow_right (by omega) (by unfold Params.nidxW; omega)⟩

/-- An operand that fits its field is the field's bits. -/
theorem setWidth_setWidth_of_lt {n : Nat} {arg : BitVec 24} (h : arg.toNat < 2 ^ n) :
    (arg.setWidth n).setWidth 24 = arg := by
  apply BitVec.eq_of_toNat_eq
  rw [BitVec.toNat_setWidth, BitVec.toNat_setWidth, Nat.mod_eq_of_lt h, Nat.mod_eq_of_lt arg.isLt]

/-- The word of a command is determined by its two fields. -/
theorem encode_eq_of_fields {w : Word} {i : Instr} (ho : (opField w).toNat = i.opcode.toNat)
    (ha : i.operandBits = argField w) : encode i = w := by
  rw [encode_eq, ha, ← BitVec.eq_of_toNat_eq ho, append_fields]

end Sys2Proof
end

