-- ==== Sys2Proof/Laws/State.lean ====
section
/-!
SUPPORT. What each named update of the state does to each field, and what the readers of the state then return.
-/
namespace Sys2Proof.Machine

/-! ## `State.decodeRewind` -/

@[simp] theorem State.decodeRewind_params (s : State) : s.decodeRewind.params = s.params := rfl
@[simp] theorem State.decodeRewind_freq (s : State) : s.decodeRewind.freq = s.freq := rfl
@[simp] theorem State.decodeRewind_total (s : State) : s.decodeRewind.total = s.total := rfl
@[simp] theorem State.decodeRewind_flock (s : State) : s.decodeRewind.flock = s.flock := rfl
@[simp] theorem State.decodeRewind_node (s : State) : s.decodeRewind.node = s.node := rfl
@[simp] theorem State.decodeRewind_seq (s : State) : s.decodeRewind.seq = s.seq := rfl
@[simp] theorem State.decodeRewind_root (s : State) : s.decodeRewind.root = s.root := rfl
@[simp] theorem State.decodeRewind_treeValid (s : State) : s.decodeRewind.treeValid = s.treeValid := rfl
@[simp] theorem State.decodeRewind_book (s : State) : s.decodeRewind.book = s.book := rfl
@[simp] theorem State.decodeRewind_msg (s : State) : s.decodeRewind.msg = s.msg := rfl
@[simp] theorem State.decodeRewind_msgRd (s : State) : s.decodeRewind.msgRd = 0 := rfl
@[simp] theorem State.decodeRewind_cur (s : State) : s.decodeRewind.cur = s.root := rfl
@[simp] theorem State.decodeRewind_out (s : State) : s.decodeRewind.out = [] := rfl
@[simp] theorem State.decodeRewind_decDone (s : State) : s.decodeRewind.decDone = false := rfl
@[simp] theorem State.decodeRewind_err (s : State) : s.decodeRewind.err = s.err := rfl
@[simp] theorem State.decodeRewind_errSub (s : State) : s.decodeRewind.errSub = s.errSub := rfl
@[simp] theorem State.decodeRewind_errInfo (s : State) : s.decodeRewind.errInfo = s.errInfo := rfl
@[simp] theorem State.decodeRewind_idx (s : State) : s.decodeRewind.idx = s.idx := rfl
@[simp] theorem State.decodeRewind_pending (s : State) : s.decodeRewind.pending = s.pending := rfl
@[simp] theorem State.decodeRewind_reply (s : State) : s.decodeRewind.reply = s.reply := rfl
@[simp] theorem State.decodeRewind_freqAt (s : State) : s.decodeRewind.freqAt = s.freqAt := rfl
@[simp] theorem State.decodeRewind_nodeAt (s : State) : s.decodeRewind.nodeAt = s.nodeAt := rfl
@[simp] theorem State.decodeRewind_bookAt (s : State) : s.decodeRewind.bookAt = s.bookAt := rfl
@[simp] theorem State.decodeRewind_msgLen (s : State) : s.decodeRewind.msgLen = s.msgLen := rfl

/-! ## `State.bookClear` -/

@[simp] theorem State.bookClear_params (s : State) : s.bookClear.params = s.params := rfl
@[simp] theorem State.bookClear_freq (s : State) : s.bookClear.freq = s.freq := rfl
@[simp] theorem State.bookClear_total (s : State) : s.bookClear.total = s.total := rfl
@[simp] theorem State.bookClear_flock (s : State) : s.bookClear.flock = s.flock := rfl
@[simp] theorem State.bookClear_node (s : State) : s.bookClear.node = s.node := rfl
@[simp] theorem State.bookClear_seq (s : State) : s.bookClear.seq = s.seq := rfl
@[simp] theorem State.bookClear_root (s : State) : s.bookClear.root = s.root := rfl
@[simp] theorem State.bookClear_treeValid (s : State) : s.bookClear.treeValid = s.treeValid := rfl
@[simp] theorem State.bookClear_book (s : State) : s.bookClear.book = [] := rfl
@[simp] theorem State.bookClear_msg (s : State) : s.bookClear.msg = s.msg := rfl
@[simp] theorem State.bookClear_msgRd (s : State) : s.bookClear.msgRd = s.msgRd := rfl
@[simp] theorem State.bookClear_cur (s : State) : s.bookClear.cur = s.cur := rfl
@[simp] theorem State.bookClear_out (s : State) : s.bookClear.out = s.out := rfl
@[simp] theorem State.bookClear_decDone (s : State) : s.bookClear.decDone = s.decDone := rfl
@[simp] theorem State.bookClear_err (s : State) : s.bookClear.err = s.err := rfl
@[simp] theorem State.bookClear_errSub (s : State) : s.bookClear.errSub = s.errSub := rfl
@[simp] theorem State.bookClear_errInfo (s : State) : s.bookClear.errInfo = s.errInfo := rfl
@[simp] theorem State.bookClear_idx (s : State) : s.bookClear.idx = s.idx := rfl
@[simp] theorem State.bookClear_pending (s : State) : s.bookClear.pending = s.pending := rfl
@[simp] theorem State.bookClear_reply (s : State) : s.bookClear.reply = s.reply := rfl
@[simp] theorem State.bookClear_freqAt (s : State) : s.bookClear.freqAt = s.freqAt := rfl
@[simp] theorem State.bookClear_nodeAt (s : State) : s.bookClear.nodeAt = s.nodeAt := rfl
@[simp] theorem State.bookClear_msgLen (s : State) : s.bookClear.msgLen = s.msgLen := rfl
@[simp] theorem State.bookClear_outCnt (s : State) : s.bookClear.outCnt = s.outCnt := rfl

/-! ## `State.raise` -/

@[simp] theorem State.raise_params (s : State) (e : ErrCode) (sub : BitVec 4) (w : Word) : (s.raise e sub w).params = s.params := rfl
@[simp] theorem State.raise_freq (s : State) (e : ErrCode) (sub : BitVec 4) (w : Word) : (s.raise e sub w).freq = s.freq := rfl
@[simp] theorem State.raise_total (s : State) (e : ErrCode) (sub : BitVec 4) (w : Word) : (s.raise e sub w).total = s.total := rfl
@[simp] theorem State.raise_flock (s : State) (e : ErrCode) (sub : BitVec 4) (w : Word) : (s.raise e sub w).flock = s.flock := rfl
@[simp] theorem State.raise_node (s : State) (e : ErrCode) (sub : BitVec 4) (w : Word) : (s.raise e sub w).node = s.node := rfl
@[simp] theorem State.raise_seq (s : State) (e : ErrCode) (sub : BitVec 4) (w : Word) : (s.raise e sub w).seq = s.seq := rfl
@[simp] theorem State.raise_root (s : State) (e : ErrCode) (sub : BitVec 4) (w : Word) : (s.raise e sub w).root = s.root := rfl
@[simp] theorem State.raise_treeValid (s : State) (e : ErrCode) (sub : BitVec 4) (w : Word) : (s.raise e sub w).treeValid = s.treeValid := rfl
@[simp] theorem State.raise_book (s : State) (e : ErrCode) (sub : BitVec 4) (w : Word) : (s.raise e sub w).book = s.book := rfl
@[simp] theorem State.raise_msg (s : State) (e : ErrCode) (sub : BitVec 4) (w : Word) : (s.raise e sub w).msg = s.msg := rfl
@[simp] theorem State.raise_msgRd (s : State) (e : ErrCode) (sub : BitVec 4) (w : Word) : (s.raise e sub w).msgRd = s.msgRd := rfl
@[simp] theorem State.raise_cur (s : State) (e : ErrCode) (sub : BitVec 4) (w : Word) : (s.raise e sub w).cur = s.cur := rfl
@[simp] theorem State.raise_out (s : State) (e : ErrCode) (sub : BitVec 4) (w : Word) : (s.raise e sub w).out = s.out := rfl
@[simp] theorem State.raise_decDone (s : State) (e : ErrCode) (sub : BitVec 4) (w : Word) : (s.raise e sub w).decDone = s.decDone := rfl
@[simp] theorem State.raise_err (s : State) (e : ErrCode) (sub : BitVec 4) (w : Word) : (s.raise e sub w).err = e := rfl
@[simp] theorem State.raise_errSub (s : State) (e : ErrCode) (sub : BitVec 4) (w : Word) : (s.raise e sub w).errSub = sub := rfl
@[simp] theorem State.raise_errInfo (s : State) (e : ErrCode) (sub : BitVec 4) (w : Word) : (s.raise e sub w).errInfo = w := rfl
@[simp] theorem State.raise_idx (s : State) (e : ErrCode) (sub : BitVec 4) (w : Word) : (s.raise e sub w).idx = s.idx := rfl
@[simp] theorem State.raise_pending (s : State) (e : ErrCode) (sub : BitVec 4) (w : Word) : (s.raise e sub w).pending = s.pending := rfl
@[simp] theorem State.raise_reply (s : State) (e : ErrCode) (sub : BitVec 4) (w : Word) : (s.raise e sub w).reply = s.reply := rfl
@[simp] theorem State.raise_freqAt (s : State) (e : ErrCode) (sub : BitVec 4) (w : Word) : (s.raise e sub w).freqAt = s.freqAt := rfl
@[simp] theorem State.raise_nodeAt (s : State) (e : ErrCode) (sub : BitVec 4) (w : Word) : (s.raise e sub w).nodeAt = s.nodeAt := rfl
@[simp] theorem State.raise_bookAt (s : State) (e : ErrCode) (sub : BitVec 4) (w : Word) : (s.raise e sub w).bookAt = s.bookAt := rfl
@[simp] theorem State.raise_msgLen (s : State) (e : ErrCode) (sub : BitVec 4) (w : Word) : (s.raise e sub w).msgLen = s.msgLen := rfl
@[simp] theorem State.raise_outCnt (s : State) (e : ErrCode) (sub : BitVec 4) (w : Word) : (s.raise e sub w).outCnt = s.outCnt := rfl

/-! ## `State.errClear` -/

@[simp] theorem State.errClear_params (s : State) : s.errClear.params = s.params := rfl
@[simp] theorem State.errClear_freq (s : State) : s.errClear.freq = s.freq := rfl
@[simp] theorem State.errClear_total (s : State) : s.errClear.total = s.total := rfl
@[simp] theorem State.errClear_flock (s : State) : s.errClear.flock = s.flock := rfl
@[simp] theorem State.errClear_node (s : State) : s.errClear.node = s.node := rfl
@[simp] theorem State.errClear_seq (s : State) : s.errClear.seq = s.seq := rfl
@[simp] theorem State.errClear_root (s : State) : s.errClear.root = s.root := rfl
@[simp] theorem State.errClear_treeValid (s : State) : s.errClear.treeValid = s.treeValid := rfl
@[simp] theorem State.errClear_book (s : State) : s.errClear.book = s.book := rfl
@[simp] theorem State.errClear_msg (s : State) : s.errClear.msg = s.msg := rfl
@[simp] theorem State.errClear_msgRd (s : State) : s.errClear.msgRd = s.msgRd := rfl
@[simp] theorem State.errClear_cur (s : State) : s.errClear.cur = s.cur := rfl
@[simp] theorem State.errClear_out (s : State) : s.errClear.out = s.out := rfl
@[simp] theorem State.errClear_decDone (s : State) : s.errClear.decDone = s.decDone := rfl
@[simp] theorem State.errClear_err (s : State) : s.errClear.err = .none := rfl
@[simp] theorem State.errClear_errSub (s : State) : s.errClear.errSub = 0 := rfl
@[simp] theorem State.errClear_errInfo (s : State) : s.errClear.errInfo = 0 := rfl
@[simp] theorem State.errClear_idx (s : State) : s.errClear.idx = s.idx := rfl
@[simp] theorem State.errClear_pending (s : State) : s.errClear.pending = s.pending := rfl
@[simp] theorem State.errClear_reply (s : State) : s.errClear.reply = s.reply := rfl
@[simp] theorem State.errClear_freqAt (s : State) : s.errClear.freqAt = s.freqAt := rfl
@[simp] theorem State.errClear_nodeAt (s : State) : s.errClear.nodeAt = s.nodeAt := rfl
@[simp] theorem State.errClear_bookAt (s : State) : s.errClear.bookAt = s.bookAt := rfl
@[simp] theorem State.errClear_msgLen (s : State) : s.errClear.msgLen = s.msgLen := rfl
@[simp] theorem State.errClear_outCnt (s : State) : s.errClear.outCnt = s.outCnt := rfl

/-! ## `State.append` -/

@[simp] theorem State.append_params (s : State) (c : Bits) : (s.append c).params = s.params := rfl
@[simp] theorem State.append_freq (s : State) (c : Bits) : (s.append c).freq = s.freq := rfl
@[simp] theorem State.append_total (s : State) (c : Bits) : (s.append c).total = s.total := rfl
@[simp] theorem State.append_flock (s : State) (c : Bits) : (s.append c).flock = s.flock := rfl
@[simp] theorem State.append_node (s : State) (c : Bits) : (s.append c).node = s.node := rfl
@[simp] theorem State.append_seq (s : State) (c : Bits) : (s.append c).seq = s.seq := rfl
@[simp] theorem State.append_root (s : State) (c : Bits) : (s.append c).root = s.root := rfl
@[simp] theorem State.append_treeValid (s : State) (c : Bits) : (s.append c).treeValid = s.treeValid := rfl
@[simp] theorem State.append_book (s : State) (c : Bits) : (s.append c).book = s.book := rfl
@[simp] theorem State.append_msg (s : State) (c : Bits) : (s.append c).msg = s.msg ++ c := rfl
@[simp] theorem State.append_msgRd (s : State) (c : Bits) : (s.append c).msgRd = s.msgRd := rfl
@[simp] theorem State.append_cur (s : State) (c : Bits) : (s.append c).cur = s.cur := rfl
@[simp] theorem State.append_out (s : State) (c : Bits) : (s.append c).out = s.out := rfl
@[simp] theorem State.append_decDone (s : State) (c : Bits) : (s.append c).decDone = s.decDone := rfl
@[simp] theorem State.append_err (s : State) (c : Bits) : (s.append c).err = s.err := rfl
@[simp] theorem State.append_errSub (s : State) (c : Bits) : (s.append c).errSub = s.errSub := rfl
@[simp] theorem State.append_errInfo (s : State) (c : Bits) : (s.append c).errInfo = s.errInfo := rfl
@[simp] theorem State.append_idx (s : State) (c : Bits) : (s.append c).idx = s.idx := rfl
@[simp] theorem State.append_pending (s : State) (c : Bits) : (s.append c).pending = s.pending := rfl
@[simp] theorem State.append_reply (s : State) (c : Bits) : (s.append c).reply = s.reply := rfl
@[simp] theorem State.append_freqAt (s : State) (c : Bits) : (s.append c).freqAt = s.freqAt := rfl
@[simp] theorem State.append_nodeAt (s : State) (c : Bits) : (s.append c).nodeAt = s.nodeAt := rfl
@[simp] theorem State.append_bookAt (s : State) (c : Bits) : (s.append c).bookAt = s.bookAt := rfl
@[simp] theorem State.append_outCnt (s : State) (c : Bits) : (s.append c).outCnt = s.outCnt := rfl

/-! ## `State.emit` -/

@[simp] theorem State.emit_params (s : State) (sym : Nat) : (s.emit sym).params = s.params := rfl
@[simp] theorem State.emit_freq (s : State) (sym : Nat) : (s.emit sym).freq = s.freq := rfl
@[simp] theorem State.emit_total (s : State) (sym : Nat) : (s.emit sym).total = s.total := rfl
@[simp] theorem State.emit_flock (s : State) (sym : Nat) : (s.emit sym).flock = s.flock := rfl
@[simp] theorem State.emit_node (s : State) (sym : Nat) : (s.emit sym).node = s.node := rfl
@[simp] theorem State.emit_seq (s : State) (sym : Nat) : (s.emit sym).seq = s.seq := rfl
@[simp] theorem State.emit_root (s : State) (sym : Nat) : (s.emit sym).root = s.root := rfl
@[simp] theorem State.emit_treeValid (s : State) (sym : Nat) : (s.emit sym).treeValid = s.treeValid := rfl
@[simp] theorem State.emit_book (s : State) (sym : Nat) : (s.emit sym).book = s.book := rfl
@[simp] theorem State.emit_msg (s : State) (sym : Nat) : (s.emit sym).msg = s.msg := rfl
@[simp] theorem State.emit_msgRd (s : State) (sym : Nat) : (s.emit sym).msgRd = s.msgRd := rfl
@[simp] theorem State.emit_cur (s : State) (sym : Nat) : (s.emit sym).cur = s.cur := rfl
@[simp] theorem State.emit_out (s : State) (sym : Nat) : (s.emit sym).out = s.out ++ [sym] := rfl
@[simp] theorem State.emit_decDone (s : State) (sym : Nat) : (s.emit sym).decDone = s.decDone := rfl
@[simp] theorem State.emit_err (s : State) (sym : Nat) : (s.emit sym).err = s.err := rfl
@[simp] theorem State.emit_errSub (s : State) (sym : Nat) : (s.emit sym).errSub = s.errSub := rfl
@[simp] theorem State.emit_errInfo (s : State) (sym : Nat) : (s.emit sym).errInfo = s.errInfo := rfl
@[simp] theorem State.emit_idx (s : State) (sym : Nat) : (s.emit sym).idx = s.idx := rfl
@[simp] theorem State.emit_pending (s : State) (sym : Nat) : (s.emit sym).pending = s.pending := rfl
@[simp] theorem State.emit_reply (s : State) (sym : Nat) : (s.emit sym).reply = s.reply := rfl
@[simp] theorem State.emit_freqAt (s : State) (sym : Nat) : (s.emit sym).freqAt = s.freqAt := rfl
@[simp] theorem State.emit_nodeAt (s : State) (sym : Nat) : (s.emit sym).nodeAt = s.nodeAt := rfl
@[simp] theorem State.emit_bookAt (s : State) (sym : Nat) : (s.emit sym).bookAt = s.bookAt := rfl
@[simp] theorem State.emit_msgLen (s : State) (sym : Nat) : (s.emit sym).msgLen = s.msgLen := rfl

/-! ## `State.decodeFail` -/

@[simp] theorem State.decodeFail_params (s : State) (e : ErrCode) (sub : BitVec 4) (w : Word) : (s.decodeFail e sub w).params = s.params := rfl
@[simp] theorem State.decodeFail_freq (s : State) (e : ErrCode) (sub : BitVec 4) (w : Word) : (s.decodeFail e sub w).freq = s.freq := rfl
@[simp] theorem State.decodeFail_total (s : State) (e : ErrCode) (sub : BitVec 4) (w : Word) : (s.decodeFail e sub w).total = s.total := rfl
@[simp] theorem State.decodeFail_flock (s : State) (e : ErrCode) (sub : BitVec 4) (w : Word) : (s.decodeFail e sub w).flock = s.flock := rfl
@[simp] theorem State.decodeFail_node (s : State) (e : ErrCode) (sub : BitVec 4) (w : Word) : (s.decodeFail e sub w).node = s.node := rfl
@[simp] theorem State.decodeFail_seq (s : State) (e : ErrCode) (sub : BitVec 4) (w : Word) : (s.decodeFail e sub w).seq = s.seq := rfl
@[simp] theorem State.decodeFail_root (s : State) (e : ErrCode) (sub : BitVec 4) (w : Word) : (s.decodeFail e sub w).root = s.root := rfl
@[simp] theorem State.decodeFail_treeValid (s : State) (e : ErrCode) (sub : BitVec 4) (w : Word) : (s.decodeFail e sub w).treeValid = s.treeValid := rfl
@[simp] theorem State.decodeFail_book (s : State) (e : ErrCode) (sub : BitVec 4) (w : Word) : (s.decodeFail e sub w).book = s.book := rfl
@[simp] theorem State.decodeFail_msg (s : State) (e : ErrCode) (sub : BitVec 4) (w : Word) : (s.decodeFail e sub w).msg = s.msg := rfl
@[simp] theorem State.decodeFail_msgRd (s : State) (e : ErrCode) (sub : BitVec 4) (w : Word) : (s.decodeFail e sub w).msgRd = s.msgRd := rfl
@[simp] theorem State.decodeFail_cur (s : State) (e : ErrCode) (sub : BitVec 4) (w : Word) : (s.decodeFail e sub w).cur = s.cur := rfl
@[simp] theorem State.decodeFail_out (s : State) (e : ErrCode) (sub : BitVec 4) (w : Word) : (s.decodeFail e sub w).out = [] := rfl
@[simp] theorem State.decodeFail_decDone (s : State) (e : ErrCode) (sub : BitVec 4) (w : Word) : (s.decodeFail e sub w).decDone = s.decDone := rfl
@[simp] theorem State.decodeFail_err (s : State) (e : ErrCode) (sub : BitVec 4) (w : Word) : (s.decodeFail e sub w).err = e := rfl
@[simp] theorem State.decodeFail_errSub (s : State) (e : ErrCode) (sub : BitVec 4) (w : Word) : (s.decodeFail e sub w).errSub = sub := rfl
@[simp] theorem State.decodeFail_errInfo (s : State) (e : ErrCode) (sub : BitVec 4) (w : Word) : (s.decodeFail e sub w).errInfo = w := rfl
@[simp] theorem State.decodeFail_idx (s : State) (e : ErrCode) (sub : BitVec 4) (w : Word) : (s.decodeFail e sub w).idx = s.idx := rfl
@[simp] theorem State.decodeFail_pending (s : State) (e : ErrCode) (sub : BitVec 4) (w : Word) : (s.decodeFail e sub w).pending = s.pending := rfl
@[simp] theorem State.decodeFail_reply (s : State) (e : ErrCode) (sub : BitVec 4) (w : Word) : (s.decodeFail e sub w).reply = s.reply := rfl
@[simp] theorem State.decodeFail_freqAt (s : State) (e : ErrCode) (sub : BitVec 4) (w : Word) : (s.decodeFail e sub w).freqAt = s.freqAt := rfl
@[simp] theorem State.decodeFail_nodeAt (s : State) (e : ErrCode) (sub : BitVec 4) (w : Word) : (s.decodeFail e sub w).nodeAt = s.nodeAt := rfl
@[simp] theorem State.decodeFail_bookAt (s : State) (e : ErrCode) (sub : BitVec 4) (w : Word) : (s.decodeFail e sub w).bookAt = s.bookAt := rfl
@[simp] theorem State.decodeFail_msgLen (s : State) (e : ErrCode) (sub : BitVec 4) (w : Word) : (s.decodeFail e sub w).msgLen = s.msgLen := rfl

/-! ## `State.takeAccess` -/

@[simp] theorem State.takeAccess_params (s : State) (rest : List Access) : (s.takeAccess rest).params = s.params := rfl
@[simp] theorem State.takeAccess_freq (s : State) (rest : List Access) : (s.takeAccess rest).freq = s.freq := rfl
@[simp] theorem State.takeAccess_total (s : State) (rest : List Access) : (s.takeAccess rest).total = s.total := rfl
@[simp] theorem State.takeAccess_flock (s : State) (rest : List Access) : (s.takeAccess rest).flock = s.flock := rfl
@[simp] theorem State.takeAccess_node (s : State) (rest : List Access) : (s.takeAccess rest).node = s.node := rfl
@[simp] theorem State.takeAccess_seq (s : State) (rest : List Access) : (s.takeAccess rest).seq = s.seq := rfl
@[simp] theorem State.takeAccess_root (s : State) (rest : List Access) : (s.takeAccess rest).root = s.root := rfl
@[simp] theorem State.takeAccess_treeValid (s : State) (rest : List Access) : (s.takeAccess rest).treeValid = s.treeValid := rfl
@[simp] theorem State.takeAccess_book (s : State) (rest : List Access) : (s.takeAccess rest).book = s.book := rfl
@[simp] theorem State.takeAccess_msg (s : State) (rest : List Access) : (s.takeAccess rest).msg = s.msg := rfl
@[simp] theorem State.takeAccess_msgRd (s : State) (rest : List Access) : (s.takeAccess rest).msgRd = s.msgRd := rfl
@[simp] theorem State.takeAccess_cur (s : State) (rest : List Access) : (s.takeAccess rest).cur = s.cur := rfl
@[simp] theorem State.takeAccess_out (s : State) (rest : List Access) : (s.takeAccess rest).out = s.out := rfl
@[simp] theorem State.takeAccess_decDone (s : State) (rest : List Access) : (s.takeAccess rest).decDone = s.decDone := rfl
@[simp] theorem State.takeAccess_err (s : State) (rest : List Access) : (s.takeAccess rest).err = s.err := rfl
@[simp] theorem State.takeAccess_errSub (s : State) (rest : List Access) : (s.takeAccess rest).errSub = s.errSub := rfl
@[simp] theorem State.takeAccess_errInfo (s : State) (rest : List Access) : (s.takeAccess rest).errInfo = s.errInfo := rfl
@[simp] theorem State.takeAccess_idx (s : State) (rest : List Access) : (s.takeAccess rest).idx = s.idx := rfl
@[simp] theorem State.takeAccess_pending (s : State) (rest : List Access) : (s.takeAccess rest).pending = rest := rfl
@[simp] theorem State.takeAccess_reply (s : State) (rest : List Access) : (s.takeAccess rest).reply = none := rfl
@[simp] theorem State.takeAccess_freqAt (s : State) (rest : List Access) : (s.takeAccess rest).freqAt = s.freqAt := rfl
@[simp] theorem State.takeAccess_nodeAt (s : State) (rest : List Access) : (s.takeAccess rest).nodeAt = s.nodeAt := rfl
@[simp] theorem State.takeAccess_bookAt (s : State) (rest : List Access) : (s.takeAccess rest).bookAt = s.bookAt := rfl
@[simp] theorem State.takeAccess_msgLen (s : State) (rest : List Access) : (s.takeAccess rest).msgLen = s.msgLen := rfl
@[simp] theorem State.takeAccess_outCnt (s : State) (rest : List Access) : (s.takeAccess rest).outCnt = s.outCnt := rfl

/-! ## Readers after the updates of what they read -/

@[simp] theorem State.decodeRewind_outCnt (s : State) : s.decodeRewind.outCnt = 0 := rfl
@[simp] theorem State.decodeFail_outCnt (s : State) (e : ErrCode) (sub : BitVec 4) (w : Word) :
    (s.decodeFail e sub w).outCnt = 0 := rfl
@[simp] theorem State.bookClear_bookAt (s : State) (sym : Nat) : s.bookClear.bookAt sym = BookEntry.blank := rfl
@[simp] theorem State.append_msgLen (s : State) (c : Bits) : (s.append c).msgLen = s.msgLen + c.length := by
  simp [State.msgLen]
@[simp] theorem State.emit_outCnt (s : State) (sym : Nat) : (s.emit sym).outCnt = s.outCnt + 1 := by
  simp [State.outCnt]

end Sys2Proof.Machine
end

