-- ==== Sys2Proof/Laws/Exec.lean ====
section
/-!
SUPPORT. What each shared operation and each meaning can do, said once: if it answers a next state, then which.
-/
namespace Sys2Proof.Machine

/-! ## The frozen test -/

theorem whenLive_of_live {s : State} (h : s.Live) (b : Result) : whenLive s b = b := by simp [whenLive, h]

theorem whenLive_of_frozen {s : State} (h : ¬s.Live) (b : Result) : whenLive s b = .next s := by simp [whenLive, h]

/-- A gated meaning answers its body's next state, or the state unchanged while frozen. -/
theorem whenLive_next {s t : State} {b : Result} (h : whenLive s b = .next t) : (¬s.Live ∧ t = s) ∨ (s.Live ∧ b = .next t) := by
  by_cases hs : s.Live
  · exact .inr ⟨hs, by rwa [whenLive_of_live hs] at h⟩
  · rw [whenLive_of_frozen hs] at h
    exact .inl ⟨hs, by simpa using h.symm⟩

/-- A word that is no command raises `IllegalCommand`, or is ignored while frozen. -/
theorem rejectWord_eq (e : DecodeError) (w : Word) (s : State) :
    rejectWord e w s = .next (if s.err = .none then s.raise .illegalCommand e.subCause w else s) := by
  unfold rejectWord whenLive
  split <;> rfl

/-! ## The command words by their numbers (R96) -/

theorem encode_count (sym : BitVec 8) : encode (.count sym) = 0x02000000 ||| sym.setWidth 32 := by
  revert sym; decide

theorem encode_pack (sym : BitVec 8) : encode (.pack sym) = 0x05000000 ||| sym.setWidth 32 := by
  revert sym; decide

theorem encode_putbit (bit : Bool) : encode (.putbit bit) = if bit then 0x06000001 else 0x06000000 := by
  cases bit <;> decide

theorem encode_adopt (node : BitVec 9) : encode (.adopt node) = 0x08000000 ||| node.setWidth 32 := by
  revert node; decide

/-! ## One step of decoding -/

/-- Every state `UnpackStep` can leave (R182): one bit taken, with a symbol or a move, or the state of a decode error. -/
theorem unpackStep_cases (w : Word) (s : State) :
    (∃ sym, unpackStep w s = .ok { s with out := s.out ++ [sym], cur := s.root, msgRd := s.msgRd + 1 } ∧
      s.treeValid = true ∧ s.out.length ≠ s.params.outCap ∧ (s.nodeAt s.root).kind ≠ .leaf ∧
      (s.nodeAt s.cur).kind = .internal ∧
      ((s.nodeAt (s.child s.cur (s.msgBit s.msgRd))).kind = .leaf ∧
        (s.nodeAt (s.child s.cur (s.msgBit s.msgRd))).sym = sym)) ∨
    (unpackStep w s = .ok { s with out := s.out ++ [(s.nodeAt s.root).sym], msgRd := s.msgRd + 1 } ∧
      s.treeValid = true ∧ s.out.length ≠ s.params.outCap ∧ (s.nodeAt s.root).kind = .leaf) ∨
    (unpackStep w s = .ok { s with cur := s.child s.cur (s.msgBit s.msgRd), msgRd := s.msgRd + 1 } ∧
      s.treeValid = true ∧ (s.nodeAt s.root).kind ≠ .leaf ∧ (s.nodeAt s.cur).kind = .internal ∧
      (s.nodeAt (s.child s.cur (s.msgBit s.msgRd))).kind = .internal) ∨
    (unpackStep w s = .error (s.decodeFail .outOverflow 0 w) ∧ s.out.length = s.params.outCap) ∨
    (unpackStep w s = .error (s.decodeFail .malformedInput 2 w) ∧ s.treeValid = false) ∨
    (unpackStep w s = .error (s.decodeFail .malformedInput 3 w) ∧ s.treeValid = true ∧ (s.nodeAt s.root).kind ≠ .leaf ∧
      (s.nodeAt s.cur).kind ≠ .internal) ∨
    (unpackStep w s = .error (s.decodeFail .internalFault 2 w) ∧ s.treeValid = true ∧ (s.nodeAt s.root).kind ≠ .leaf ∧
      (s.nodeAt s.cur).kind = .internal ∧ (s.nodeAt (s.child s.cur (s.msgBit s.msgRd))).kind = .empty) := by
  unfold unpackStep
  by_cases hv : s.treeValid = true
  · by_cases hr : (s.nodeAt s.root).kind = .leaf
    · by_cases ho : s.outCnt = s.params.outCap
      · refine .inr (.inr (.inr (.inl ⟨?_, ho⟩)))
        simp [hv, hr, ho]
      · refine .inr (.inl ⟨?_, hv, ho, hr⟩)
        simp [hv, hr, ho, State.emit]
    · by_cases hc : (s.nodeAt s.cur).kind = .internal
      · rcases hk : (s.nodeAt (s.child s.cur (s.msgBit s.msgRd))).kind with _ | _ | _
        · simp [hv, hr, hc, hk]
        · by_cases ho : s.outCnt = s.params.outCap
          · refine .inr (.inr (.inr (.inl ⟨?_, ho⟩)))
            simp [hv, hr, hc, hk, ho]
          · refine .inl ⟨_, ?_, hv, ho, hr, hc, rfl, rfl⟩
            simp [hv, hr, hc, hk, ho, State.emit]
        · simp [hv, hr, hc, hk]
      · simp [hv, hr, hc]
  · have hv : s.treeValid = false := by simpa using hv
    simp [hv]

/-- A step that succeeds changes `OUT`, `CUR` and `MSG_RD` only, and takes one bit. -/
theorem unpackStep_ok {w : Word} {s t : State} (h : unpackStep w s = .ok t) :
    t = { s with out := t.out, cur := t.cur, msgRd := s.msgRd + 1 } ∧ s.treeValid = true := by
  rcases unpackStep_cases w s with ⟨sym, h', hv, -⟩ | ⟨h', hv, -⟩ | ⟨h', hv, -⟩ | ⟨h', -⟩ | ⟨h', -⟩ | ⟨h', -⟩ | ⟨h', -⟩ <;>
    rw [h'] at h
  · obtain rfl := Except.ok.inj h; exact ⟨rfl, hv⟩
  · obtain rfl := Except.ok.inj h; exact ⟨rfl, hv⟩
  · obtain rfl := Except.ok.inj h; exact ⟨rfl, hv⟩
  all_goals exact absurd h (by simp)

/-- A step that fails leaves the state of `DecodeFail` with one of the errors of R182. -/
theorem unpackStep_error {w : Word} {s t : State} (h : unpackStep w s = .error t) :
    ∃ e sub, t = s.decodeFail e sub w ∧
      ((e = .outOverflow ∧ sub = 0) ∨ (e = .malformedInput ∧ (sub = 2 ∨ sub = 3)) ∨ (e = .internalFault ∧ sub = 2)) := by
  rcases unpackStep_cases w s with ⟨sym, h', -⟩ | ⟨h', -⟩ | ⟨h', -⟩ | ⟨h', -⟩ | ⟨h', -⟩ | ⟨h', -⟩ | ⟨h', -⟩ <;>
    rw [h'] at h
  · exact absurd h (by simp)
  · exact absurd h (by simp)
  · exact absurd h (by simp)
  · exact ⟨_, _, (Except.error.inj h).symm, .inl ⟨rfl, rfl⟩⟩
  · exact ⟨_, _, (Except.error.inj h).symm, .inr (.inl ⟨rfl, .inl rfl⟩)⟩
  · exact ⟨_, _, (Except.error.inj h).symm, .inr (.inl ⟨rfl, .inr rfl⟩)⟩
  · exact ⟨_, _, (Except.error.inj h).symm, .inr (.inr ⟨rfl, rfl⟩)⟩

/-- Whether a step succeeds does not depend on the command word, nor does the state it then leaves. -/
theorem unpackStep_ok_word {w : Word} {s t : State} (h : unpackStep w s = .ok t) (w' : Word) : unpackStep w' s = .ok t := by
  unfold unpackStep at h ⊢
  by_cases hv : s.treeValid = true <;> by_cases hr : (s.nodeAt s.root).kind = .leaf <;>
    by_cases hc : (s.nodeAt s.cur).kind = .internal <;> by_cases ho : s.outCnt = s.params.outCap <;>
    rcases hk : (s.nodeAt (s.child s.cur (s.msgBit s.msgRd))).kind with _ | _ | _ <;> simp_all

/-- A step succeeds or fails alike whatever the command word, which only `ERRINFO` keeps. -/
theorem unpackStep_word (s : State) (w w' : Word) :
    (∃ t, unpackStep w s = .ok t ∧ unpackStep w' s = .ok t) ∨
    ∃ e sub, e ≠ .none ∧ unpackStep w s = .error (s.decodeFail e sub w) ∧
      unpackStep w' s = .error (s.decodeFail e sub w') := by
  unfold unpackStep
  by_cases hv : s.treeValid = true <;> by_cases hr : (s.nodeAt s.root).kind = .leaf <;>
    by_cases hc : (s.nodeAt s.cur).kind = .internal <;> by_cases ho : s.outCnt = s.params.outCap <;>
    rcases hk : (s.nodeAt (s.child s.cur (s.msgBit s.msgRd))).kind with _ | _ | _ <;> simp [hv, hr, hc, ho, hk] <;>
    exact ⟨_, by simp, _, rfl, rfl⟩

/-- The loop of `DRUN` when every turn succeeds: it takes `n` bits and changes `OUT`, `CUR` and `MSG_RD` only. -/
theorem unpackLoop_ok {w : Word} {n : Nat} {s t : State} (h : unpackLoop w n s = .ok t) :
    t = { s with out := t.out, cur := t.cur, msgRd := s.msgRd + n } := by
  induction n generalizing s with
  | zero => obtain rfl := Except.ok.inj h; rfl
  | succ n ih =>
    simp only [unpackLoop] at h
    split at h
    · exact absurd h (by simp)
    · next u hu =>
      have h1 := (unpackStep_ok hu).1
      have h2 := ih h
      rw [h2, h1]
      simp only [State.mk.injEq, true_and, and_true]
      omega

/-- The loop of `DRUN` when a turn fails: the bits before it were taken, and the failing step leaves `DecodeFail`. -/
theorem unpackLoop_error {w : Word} {n : Nat} {s t : State} (h : unpackLoop w n s = .error t) :
    ∃ k u, k < n ∧ unpackLoop w k s = .ok u ∧ unpackStep w u = .error t := by
  induction n generalizing s with
  | zero => exact absurd h (by simp [unpackLoop])
  | succ n ih =>
    simp only [unpackLoop] at h
    split at h
    · next e he =>
      obtain rfl := Except.error.inj h
      exact ⟨0, s, by omega, rfl, he⟩
    · next u hu =>
      obtain ⟨k, v, hk, hv, hstep⟩ := ih h
      exact ⟨k + 1, v, by omega, by simp [unpackLoop, hu, hv], hstep⟩

theorem unpackLoop_ok_word {w : Word} {n : Nat} {s t : State} (h : unpackLoop w n s = .ok t) (w' : Word) :
    unpackLoop w' n s = .ok t := by
  induction n generalizing s with
  | zero => exact h
  | succ n ih =>
    simp only [unpackLoop] at h ⊢
    split at h
    · exact absurd h (by simp)
    · next u hu => rw [unpackStep_ok_word hu w']; exact ih h

/-- Two runs of the loop one after the other. -/
theorem unpackLoop_add {w : Word} {m n : Nat} {s t : State} (h : unpackLoop w m s = .ok t) :
    unpackLoop w (m + n) s = unpackLoop w n t := by
  induction m generalizing s with
  | zero => obtain rfl := Except.ok.inj h; rw [Nat.zero_add]
  | succ m ih =>
    rw [Nat.succ_add]
    simp only [unpackLoop] at h ⊢
    split at h
    · exact absurd h (by simp)
    · next u hu => exact ih h

/-! ## `BUILD`, `DRUN` and the frozen instance -/

/-- What `BUILD` writes with its final forest. -/
theorem State.withForest_eq (s : State) (f : Forest) : s.withForest f =
    { s with
      seq := f.seq, node := f.node, flock := true, book := [], msgRd := 0, out := [], decDone := false,
      root := (s.withForest f).root, treeValid := (s.withForest f).treeValid, cur := (s.withForest f).root } := by
  unfold State.withForest
  split <;> rfl

/-- Every state `DRUN` can leave while live: a finished call is an illegal command; else `k` steps took a bit each, and then
the next step failed, or the end check failed or passed. -/
theorem execDrun_cases {s t : State} (hl : s.Live) (h : execDrun s = .next t) :
    (s.decDone = true ∧ t = s.raise .illegalCommand 3 (encode .drun)) ∨
    (s.decDone = false ∧ ∃ (u : State) (k : Nat), unpackLoop (encode .drun) k s = .ok u ∧
      ((k < s.msgLen - s.msgRd ∧ unpackStep (encode .drun) u = .error t) ∨
        (k = s.msgLen - s.msgRd ∧ t = endCheck (encode .drun) u))) := by
  simp only [execDrun, whenLive_of_live hl] at h
  split at h
  · next hd => exact .inl ⟨hd, (Host.Outcome.next.inj h).symm⟩
  · next hd =>
    refine .inr ⟨by simpa using hd, ?_⟩
    split at h
    · next e he =>
      obtain rfl := Host.Outcome.next.inj h
      obtain ⟨k, u, hk, hu, hs⟩ := unpackLoop_error he
      exact ⟨u, k, hu, .inl ⟨hk, hs⟩⟩
    · next u hu => exact ⟨u, _, hu, .inr ⟨rfl, (Host.Outcome.next.inj h).symm⟩⟩

/-- While frozen a command changes nothing, or clears a non-fatal error (R222, R225). -/
theorem exec_of_frozen {s : State} (hl : ¬s.Live) (i : Instr) :
    exec i s = .next s ∨
      (s.err ≠ .internalFault ∧ ∃ t, exec i s = .next t ∧ t.err = .none ∧ t.errSub = 0 ∧ t.errInfo = 0) := by
  by_cases hf : s.err = .internalFault
  · left
    cases i with
    | nop => rfl
    | clr => exact if_pos hf
    | errack => exact if_pos (.inr hf)
    | _ => exact whenLive_of_frozen hl _
  · cases i with
    | nop => exact .inl rfl
    | clr =>
      have he : exec .clr s = .next _ := if_neg hf
      exact .inr ⟨hf, _, he, rfl, rfl, rfl⟩
    | errack =>
      have he : exec .errack s = .next s.errClear := if_neg fun h => h.elim hl hf
      exact .inr ⟨hf, _, he, rfl, rfl, rfl⟩
    | _ => exact .inl (whenLive_of_frozen hl _)

/-! ## Runs of commands -/

@[simp] theorem runCommands_nil (s : State) : runCommands [] s = .next s := rfl

theorem runCommands_cons_next {i : Instr} {s t : State} (h : exec i s = .next t) (l : List Instr) :
    runCommands (i :: l) s = runCommands l t := by
  simp [runCommands, h]

theorem runCommands_append_next {l : List Instr} {s t : State} (h : runCommands l s = .next t) (m : List Instr) :
    runCommands (l ++ m) s = runCommands m t := by
  induction l generalizing s with
  | nil => obtain rfl : s = t := by simpa using h
           rfl
  | cons i l ih =>
    rw [List.cons_append]
    simp only [runCommands] at h ⊢
    split at h
    · next u hu => exact ih h
    · exact absurd h (by simp)
    · exact absurd h (by simp)

end Sys2Proof.Machine
end

