-- ==== Sys2Proof/Laws/Paths.lean ====
section
/-!
SUPPORT. Paths in the tree, the walk of `GENC` and the book it fills.
-/
namespace Sys2Proof.Machine

/-! ## Following a path -/

@[simp] theorem State.follow_nil (s : State) (i : Nat) : s.follow i [] = some i := rfl

theorem State.follow_cons (s : State) (i : Nat) (b : Bool) (p : Bits) :
    s.follow i (b :: p) = if (s.nodeAt i).kind = .internal then s.follow (s.child i b) p else none := rfl

/-- A path depends on the node entries only. -/
theorem State.follow_congr {s t : State} (h : t.nodeAt = s.nodeAt) (i : Nat) (p : Bits) : t.follow i p = s.follow i p := by
  induction p generalizing i with
  | nil => rfl
  | cons b p ih => simp [State.follow_cons, State.child, h, ih]

theorem State.follow_append {s : State} {i j : Nat} {p : Bits} (h : s.follow i p = some j) (q : Bits) :
    s.follow i (p ++ q) = s.follow j q := by
  induction p generalizing i with
  | nil => simp_all
  | cons b p ih =>
    rw [State.follow_cons] at h
    split at h
    · next hk => rw [List.cons_append, State.follow_cons, if_pos hk, ih h]
    · exact absurd h (by simp)

/-- A path that goes on from a node that is not internal leads nowhere. -/
theorem State.follow_of_not_internal {s : State} {i j : Nat} {p : Bits} (hk : (s.nodeAt i).kind ≠ .internal)
    (h : s.follow i p = some j) : p = [] ∧ j = i := by
  cases p with
  | nil => simp_all
  | cons b p => rw [State.follow_cons, if_neg hk] at h; exact absurd h (by simp)

/-- Two paths to leaves, one a prefix of the other, are the same path. -/
theorem State.follow_prefix_eq {s : State} {i l m : Nat} {p q : Bits} (hp : s.follow i p = some l)
    (hl : (s.nodeAt l).kind = .leaf) (hq : s.follow i (p ++ q) = some m) : q = [] := by
  rw [State.follow_append hp] at hq
  exact (State.follow_of_not_internal (by simp [hl]) hq).1

/-- In a tree every path stays in it: the node it reaches heads a tree of its own, with some of the symbols. -/
theorem Subtree.follow {s : State} {i : Nat} {syms : List Nat} (h : Subtree s.nodeAt i syms) :
    ∀ {p : Bits} {j : Nat}, s.follow i p = some j → ∃ sub, Subtree s.nodeAt j sub ∧ sub ⊆ syms ∧
      p.length + sub.length ≤ syms.length := by
  induction h with
  | @leaf i hk hf =>
    intro p j hp
    obtain ⟨rfl, rfl⟩ := State.follow_of_not_internal (by simp [hk]) hp
    exact ⟨_, .leaf hk hf, fun _ h => h, by simp⟩
  | @internal i a b hk hl hr ha hb hf iha ihb =>
    intro p j hp
    cases p with
    | nil =>
      simp only [State.follow_nil, Option.some.injEq] at hp
      subst hp
      exact ⟨_, .internal hk hl hr ha hb hf, fun _ h => h, by simp⟩
    | cons c p =>
      have hla := List.length_pos_iff.mpr ha.ne_nil
      have hlb := List.length_pos_iff.mpr hb.ne_nil
      rw [State.follow_cons, if_pos hk] at hp
      cases c with
      | false =>
        obtain ⟨sub, h1, h2, h3⟩ := iha hp
        refine ⟨sub, h1, fun x hx => List.mem_append_left _ (h2 hx), ?_⟩
        simp only [List.length_cons, List.length_append]; omega
      | true =>
        obtain ⟨sub, h1, h2, h3⟩ := ihb hp
        refine ⟨sub, h1, fun x hx => List.mem_append_right _ (h2 hx), ?_⟩
        simp only [List.length_cons, List.length_append]; omega

/-- Every symbol of a tree has a path to its leaf. -/
theorem Subtree.exists_path {s : State} {i : Nat} {syms : List Nat} (h : Subtree s.nodeAt i syms) :
    ∀ sym ∈ syms, ∃ p l, s.follow i p = some l ∧ (s.nodeAt l).kind = .leaf ∧ (s.nodeAt l).sym = sym := by
  induction h with
  | @leaf i hk hf =>
    intro sym hs
    obtain rfl : sym = (s.nodeAt i).sym := by simpa using hs
    exact ⟨[], i, rfl, hk, rfl⟩
  | @internal i a b hk _ _ _ _ _ iha ihb =>
    intro sym hs
    rcases List.mem_append.mp hs with hs | hs
    · obtain ⟨p, l, h1, h2, h3⟩ := iha sym hs
      exact ⟨false :: p, l, by rw [State.follow_cons, if_pos hk]; exact h1, h2, h3⟩
    · obtain ⟨p, l, h1, h2, h3⟩ := ihb sym hs
      exact ⟨true :: p, l, by rw [State.follow_cons, if_pos hk]; exact h1, h2, h3⟩

/-- The leaf a path of a tree reaches carries one of the tree's symbols. -/
theorem Subtree.leaf_mem {s : State} {i l : Nat} {syms : List Nat} {p : Bits} (h : Subtree s.nodeAt i syms)
    (hp : s.follow i p = some l) (hl : (s.nodeAt l).kind = .leaf) : (s.nodeAt l).sym ∈ syms := by
  obtain ⟨sub, hsub, hss, -⟩ := h.follow hp
  cases hsub with
  | leaf => exact hss (by simp)
  | internal hk => simp [hl] at hk

/-- With distinct symbols, two paths to the leaf of one symbol are the same path. -/
theorem Subtree.path_unique {s : State} {i : Nat} {syms : List Nat} (h : Subtree s.nodeAt i syms) :
    syms.Nodup → ∀ {p q : Bits} {l m : Nat}, s.follow i p = some l → (s.nodeAt l).kind = .leaf → s.follow i q = some m →
      (s.nodeAt m).kind = .leaf → (s.nodeAt l).sym = (s.nodeAt m).sym → p = q := by
  induction h with
  | @leaf i hk hf =>
    intro _ p q l m hp _ hq _ _
    rw [(State.follow_of_not_internal (by simp [hk]) hp).1, (State.follow_of_not_internal (by simp [hk]) hq).1]
  | @internal i a b hk _ _ ha hb _ iha ihb =>
    intro hn p q l m hp hl hq hm hsym
    have hna := List.Nodup.of_append_left hn
    have hnb := List.Nodup.of_append_right hn
    have hdis := List.disjoint_of_nodup_append hn
    cases p with
    | nil => simp at hp; subst hp; simp [hk] at hl
    | cons c p =>
      cases q with
      | nil => simp at hq; subst hq; simp [hk] at hm
      | cons e q =>
        rw [State.follow_cons, if_pos hk] at hp hq
        cases c <;> cases e
        · rw [iha hna hp hl hq hm hsym]
        · exact absurd (hsym ▸ hb.leaf_mem hq hm) (hdis (ha.leaf_mem hp hl))
        · exact absurd (hsym ▸ hb.leaf_mem hp hl) (hdis (ha.leaf_mem hq hm))
        · rw [ihb hnb hp hl hq hm hsym]

/-! ## The walk -/

/-- A walk that ends has met exactly the leaves that paths lead to, each with its path. -/
theorem walk_mem {s : State} {n i : Nat} {p : Bits} {leaves : List (Nat × Bits)} (h : walk s n i p = .ok leaves)
    (sym : Nat) (c : Bits) : (sym, c) ∈ leaves ↔
      ∃ q l, c = p ++ q ∧ s.follow i q = some l ∧ (s.nodeAt l).kind = .leaf ∧ (s.nodeAt l).sym = sym := by
  induction n generalizing i p leaves with
  | zero => simp [walk] at h
  | succ n ih =>
    simp only [walk] at h
    split at h
    · next hk =>
      obtain rfl : [((s.nodeAt i).sym, p)] = leaves := by simpa using h
      constructor
      · intro hm
        obtain ⟨rfl, rfl⟩ : sym = (s.nodeAt i).sym ∧ c = p := by simpa using hm
        exact ⟨[], i, by simp, rfl, hk, rfl⟩
      · rintro ⟨q, l, rfl, hq, hl, rfl⟩
        obtain ⟨rfl, rfl⟩ := State.follow_of_not_internal (by simp [hk]) hq
        simp
    · next hk =>
      split at h
      · exact absurd h (by simp)
      · next l hl =>
        split at h
        · exact absurd h (by simp)
        · next r hr =>
          obtain rfl : l ++ r = leaves := by simpa using h
          rw [List.mem_append, ih hl, ih hr]
          constructor
          · rintro (⟨q, m, rfl, hq, hm⟩ | ⟨q, m, rfl, hq, hm⟩)
            · exact ⟨false :: q, m, by simp, by rw [State.follow_cons, if_pos hk]; exact hq, hm⟩
            · exact ⟨true :: q, m, by simp, by rw [State.follow_cons, if_pos hk]; exact hq, hm⟩
          · rintro ⟨q, m, rfl, hq, hm⟩
            cases q with
            | nil => simp at hq; subst hq; simp [hk] at hm
            | cons b q =>
              rw [State.follow_cons, if_pos hk] at hq
              cases b
              · exact .inl ⟨q, m, by simp, hq, hm⟩
              · exact .inr ⟨q, m, by simp, hq, hm⟩
    · exact absurd h (by simp)

/-- The walk of a tree ends, and it meets the leaves from left to right. -/
theorem walk_ok {s : State} {i : Nat} {syms : List Nat} (h : Subtree s.nodeAt i syms) :
    ∀ {n : Nat} (p : Bits), i < n → ∃ leaves, walk s n i p = .ok leaves ∧ leaves.map Prod.fst = syms := by
  induction h with
  | @leaf i hk hf =>
    intro n p hi
    obtain ⟨n, rfl⟩ : ∃ k, n = k + 1 := ⟨n - 1, by omega⟩
    exact ⟨[((s.nodeAt i).sym, p)], by simp [walk, hk], rfl⟩
  | @internal i a b hk hl hr _ _ hf iha ihb =>
    intro n p hi
    obtain ⟨n, rfl⟩ : ∃ k, n = k + 1 := ⟨n - 1, by omega⟩
    obtain ⟨la, h1, h2⟩ := iha (n := n) (p ++ [false]) (by omega)
    obtain ⟨lb, h3, h4⟩ := ihb (n := n) (p ++ [true]) (by omega)
    exact ⟨la ++ lb, by simp [walk, hk, h1, h3], by simp [h2, h4]⟩

/-! ## The book -/

theorem fillBook_append (leaves : List (Nat × Bits)) (leaf : Nat × Bits) :
    fillBook (leaves ++ [leaf]) =
      Store.set BookEntry.blank (fillBook leaves) leaf.1 { valid := true, code := leaf.2 } := by
  simp [fillBook]

theorem fillBook_wf (leaves : List (Nat × Bits)) : Store.wf BookEntry.blank (fillBook leaves) = true := by
  induction leaves using List.reverseRecOn with
  | nil => exact Store.wf_nil
  | append_singleton l x ih => rw [fillBook_append]; exact Store.wf_set ih _ _

/-- The entries of a filled book are valid, each the code of a leaf. -/
theorem fillBook_entry {leaves : List (Nat × Bits)} {e : Nat × BookEntry} (h : e ∈ fillBook leaves) :
    e.2.valid = true ∧ (e.1, e.2.code) ∈ leaves := by
  induction leaves using List.reverseRecOn with
  | nil => simp [fillBook] at h
  | append_singleton l x ih =>
    rw [fillBook_append] at h
    rcases Store.mem_of_mem_set h with rfl | h
    · simp
    · exact ⟨(ih h).1, List.mem_append_left _ (ih h).2⟩

theorem fillBook_get_of_notMem {leaves : List (Nat × Bits)} {sym : Nat} (h : sym ∉ leaves.map Prod.fst) :
    Store.get BookEntry.blank (fillBook leaves) sym = BookEntry.blank := by
  induction leaves using List.reverseRecOn with
  | nil => rfl
  | append_singleton l x ih =>
    simp only [List.map_append, List.mem_append, not_or, List.map_cons, List.map_nil, List.mem_singleton] at h
    rw [fillBook_append, Store.get_set, if_neg (Ne.symm h.2), ih h.1]

/-- With distinct symbols the filled book holds each leaf's code. -/
theorem fillBook_get {leaves : List (Nat × Bits)} (hn : (leaves.map Prod.fst).Nodup) {sym : Nat} {c : Bits}
    (h : (sym, c) ∈ leaves) : Store.get BookEntry.blank (fillBook leaves) sym = { valid := true, code := c } := by
  induction leaves using List.reverseRecOn with
  | nil => simp at h
  | append_singleton l x ih =>
    rw [List.map_append, List.map_singleton] at hn
    have hx : x.1 ∉ l.map Prod.fst := fun hx => List.disjoint_of_nodup_append hn hx (by simp)
    rw [fillBook_append, Store.get_set]
    rcases List.mem_append.mp h with h | h
    · have : sym ∈ l.map Prod.fst := List.mem_map_of_mem h
      rw [if_neg (fun heq : x.1 = sym => hx (heq ▸ this)), ih (List.Nodup.of_append_left hn) h]
    · obtain rfl : (sym, c) = x := by simpa using h
      simp

/-- An entry of a filled book is valid exactly where it holds a leaf's code. -/
theorem fillBook_get_iff {leaves : List (Nat × Bits)} (hn : (leaves.map Prod.fst).Nodup) (sym : Nat) (c : Bits) :
    Store.get BookEntry.blank (fillBook leaves) sym = { valid := true, code := c } ↔ (sym, c) ∈ leaves := by
  refine ⟨fun h => ?_, fillBook_get hn⟩
  by_cases hs : sym ∈ leaves.map Prod.fst
  · obtain ⟨⟨sym', c'⟩, hm, rfl⟩ := List.mem_map.mp hs
    rw [fillBook_get hn hm] at h
    obtain rfl : c' = c := by simpa using h
    exact hm
  · rw [fillBook_get_of_notMem hs] at h
    simp [BookEntry.blank] at h

end Sys2Proof.Machine
end

