-- ==== Sys2Proof/Laws/Memory.lean ====
section
/-!
SUPPORT. Every operation that writes a store keeps the canonical form, and the reset state has it.
-/
namespace Sys2Proof.Machine

theorem Memory.wf_iff {s : State} : Memory.wf s = true ↔
    Store.wf 0 s.freq = true ∧ Store.wf NodeEntry.blank s.node = true ∧ Store.wf BookEntry.blank s.book = true := by
  simp [Memory.wf, and_assoc]

theorem Memory.wf_reset : Memory.wf State.reset = true := rfl

theorem Memory.wf_resetInstance (s : State) : Memory.wf s.resetInstance = true := rfl

/-- The canonical form depends on the three stores only. -/
theorem Memory.wf_congr {s t : State} (hf : t.freq = s.freq) (hn : t.node = s.node) (hb : t.book = s.book) :
    Memory.wf t = Memory.wf s := by
  simp only [Memory.wf, hf, hn, hb]

/-- Writing one entry of `FREQ`, as `COUNT` does, keeps the form. -/
theorem Memory.wf_setFreq {s : State} (h : Memory.wf s = true) (sym n total : Nat) :
    Memory.wf { s with freq := Store.set 0 s.freq sym n, total := total } = true :=
  have h := Memory.wf_iff.mp h
  Memory.wf_iff.mpr ⟨Store.wf_set (m := s.freq) h.1 sym n, h.2⟩

/-- Clearing the book keeps the form. -/
theorem Memory.wf_bookClear {s : State} (h : Memory.wf s = true) : Memory.wf s.bookClear = true :=
  have h := Memory.wf_iff.mp h
  Memory.wf_iff.mpr ⟨h.1, h.2.1, Store.wf_nil⟩

/-- Filling the book, as `GENC` does, keeps the form. -/
theorem Memory.wf_fillBook {s : State} (h : Memory.wf s = true) (leaves : List (Nat × Bits)) :
    Memory.wf { s.bookClear with book := fillBook leaves } = true :=
  have h := Memory.wf_iff.mp h
  Memory.wf_iff.mpr ⟨h.1, h.2.1, fillBook_wf leaves⟩

/-- Taking over a canonical forest, as `BUILD` does, keeps the form. -/
theorem Memory.wf_withForest {s : State} (h : Memory.wf s = true) {f : Forest}
    (hf : Store.wf NodeEntry.blank f.node = true) : Memory.wf (s.withForest f) = true := by
  rw [State.withForest_eq]
  exact Memory.wf_iff.mpr ⟨(Memory.wf_iff.mp h).1, hf, Store.wf_nil⟩

/-- A node-window write keeps the form. -/
theorem Memory.wf_nodeWindowWrite {s : State} (h : Memory.wf s = true) (f : NodeEntry → NodeEntry) :
    Memory.wf (nodeWindowWrite f s) = true := by
  unfold nodeWindowWrite
  split
  · have h := Memory.wf_iff.mp h
    exact Memory.wf_iff.mpr ⟨h.1, Store.wf_set (m := s.node) h.2.1 s.window (f (s.nodeAt s.window)), Store.wf_nil⟩
  · exact h

end Sys2Proof.Machine
end

