-- ==== Sys2Proof/Laws/Invariant.lean ====
section
/-!
SUPPORT. What the invariant and the vocabulary of the claims depend on, and what the host's side of the state cannot change.
-/
namespace Sys2Proof.Machine

/-- Two states with the same node entries have the same well-formed trees. -/
theorem State.wellFormedTree_congr {s t : State} (hp : t.params = s.params) (hn : t.node = s.node) (r : Nat) :
    t.wellFormedTree r = s.wellFormedTree r := by
  have hat : t.nodeAt = s.nodeAt := by funext i; simp only [State.nodeAt, hp, hn]
  rw [Bool.eq_iff_iff, State.wellFormedTree_iff, State.wellFormedTree_iff, hat, hp]

/-- The codes of the present tree depend on the node entries and the root only. -/
theorem State.Codes_congr {s t : State} (hn : t.nodeAt = s.nodeAt) (hr : t.root = s.root) (sym : Nat) (code : Bits) :
    t.Codes sym code ↔ s.Codes sym code := by
  unfold State.Codes
  rw [hn, hr, State.follow_congr hn]

/-- `IDX`, the accesses waiting and the last reply are outside the invariant. -/
theorem State.Inv.of_host_eq {s t : State} (h : s.Inv)
    (ht : t = { s with idx := t.idx, pending := t.pending, reply := t.reply }) : t.Inv := by
  have hat : t.nodeAt = s.nodeAt := by rw [ht]; rfl
  have hroot : t.root = s.root := by rw [ht]
  have htree := State.wellFormedTree_congr (s := s) (t := t) (by rw [ht]) (by rw [ht])
  have hcodes := State.Codes_congr hat hroot
  have hfollow := State.follow_congr hat
  refine ⟨?_, ?_, ⟨?_, ?_, ?_, ?_, ?_, ?_, ?_, ?_⟩, ?_, ?_, ?_, ?_, ?_, ?_, ?_, ?_, ?_⟩
  · rw [ht]; exact h.legal
  · rw [ht]; exact h.stores
  · rw [ht]; exact h.fits.freq
  · rw [ht]; exact h.fits.total
  · rw [ht]; exact h.fits.node
  · rw [ht]; exact h.fits.seq
  · rw [ht]; exact h.fits.root
  · rw [ht]; exact h.fits.cur
  · rw [ht]; exact h.fits.book
  · rw [ht]; exact h.fits.out
  · rw [ht]; exact h.counts
  · rw [ht]; exact h.taken
  · rw [ht]; exact h.stream
  · rw [ht]; exact h.output
  · rw [htree, hroot]; rw [ht]; exact h.tree
  · rw [ht]; exact h.noTree
  · simp only [hat, hfollow, hroot]; rw [ht]; exact h.cursor
  · simp only [hcodes]; rw [ht]; exact h.codes
  · rw [ht]; exact h.errors

/-- `IDX`, the accesses waiting and the last reply may be anything. -/
theorem State.Inv.host {s : State} (h : s.Inv) (idx : Word) (pending : List Access) (reply : Option Word) :
    { s with idx := idx, pending := pending, reply := reply }.Inv := h.of_host_eq rfl

/-- The entry `EMPTY` has fields of every width. -/
theorem NodeEntry.blank_fits (p : Params) : NodeEntry.blank.Fits p :=
  ⟨Nat.zero_le _, Nat.two_pow_pos _, Nat.two_pow_pos _, Nat.two_pow_pos _⟩

/-- In a state of the invariant every node entry, listed or not, has fields of the widths of R27. -/
theorem State.Inv.nodeAt_fits {s : State} (h : s.Inv) (i : Nat) : (s.nodeAt i).Fits s.params := by
  unfold State.nodeAt nodeGet
  split
  · by_cases hm : ∃ e ∈ s.node, e.1 = i
    · obtain ⟨e, he, rfl⟩ := hm
      rw [Store.get_of_mem (Store.wf_iff.mp (Memory.wf_iff.mp h.stores).2.1).1 he]
      exact (h.fits.node e he).2
    · rw [Store.get_of_notMem fun e he heq => hm ⟨e, he, heq⟩]
      exact NodeEntry.blank_fits _
  · exact NodeEntry.blank_fits _

/-- With a tree present a path leads from the root to the cursor. -/
theorem State.Inv.cursor_path {s : State} (h : s.Inv) (hv : s.treeValid = true) : ∃ p, s.follow s.root p = some s.cur := by
  rcases h.cursor hv with he | ⟨-, p, hp⟩
  · exact ⟨[], by rw [he]; rfl⟩
  · exact ⟨p, hp⟩

end Sys2Proof.Machine
end

