-- ==== Sys2Proof/Laws/PerInstr.lean ====
section
/-!
SUPPORT. Facts that hold of every command, said per constructor (spec/30_encoding.md rules R90, R96).
-/
namespace Sys2Proof.Laws.EncodedFields

/-- The word of the command holds its opcode and its operand, and the opcode is one of those R96 defines. -/
def Statement (i : Instr) : Prop :=
  opField (encode i) = i.opcode ∧ argField (encode i) = i.operandBits ∧ i.opcode.toNat ≤ 0x0D

theorem holds (i : Instr) : Statement i :=
  ⟨opField_encode i, argField_encode i, by cases i <;> simp [Instr.opcode]⟩

theorem nop : Statement .nop := holds _
theorem clr : Statement .clr := holds _
theorem count (sym : BitVec 8) : Statement (.count sym) := holds _
theorem build : Statement .build := holds _
theorem genc : Statement .genc := holds _
theorem pack (sym : BitVec 8) : Statement (.pack sym) := holds _
theorem putbit (bit : Bool) : Statement (.putbit bit) := holds _
theorem mclr : Statement .mclr := holds _
theorem adopt (node : BitVec 9) : Statement (.adopt node) := holds _
theorem dstart : Statement .dstart := holds _
theorem unpack : Statement .unpack := holds _
theorem dend : Statement .dend := holds _
theorem drun : Statement .drun := holds _
theorem errack : Statement .errack := holds _

end Sys2Proof.Laws.EncodedFields
end

