-- ==== Sys2Proof/Laws/Registers.lean ====
section
/-!
SUPPORT. The bits of the register words, and which offsets a write can have an effect at.
-/
namespace Sys2Proof.Machine

/-- A write to a register that is not `CMD`, `IDX` or one of the node window changes nothing (R41, R68). -/
theorem regAt_readOnly {offset : Nat} (h1 : offset ≠ 0x00) (h2 : offset ≠ 0x28) (h3 : offset ≠ 0x30) (h4 : offset ≠ 0x34)
    (h5 : offset ≠ 0x38) : regAt offset ≠ .cmd ∧ ∀ v s, writeReg (regAt offset) v s = s := by
  have key : ∀ (c : Prop) [Decidable c] (a b : Reg), (a ≠ .cmd ∧ ∀ v s, writeReg a v s = s) →
      (b ≠ .cmd ∧ ∀ v s, writeReg b v s = s) → (if c then a else b) ≠ .cmd ∧ ∀ v s, writeReg (if c then a else b) v s = s := by
    intro c _ a b ha hb
    split
    · exact ha
    · exact hb
  unfold regAt
  rw [if_neg h1, if_neg h2, if_neg h3, if_neg h4, if_neg h5]
  repeat' apply key
  all_goals exact ⟨by simp, fun _ _ => rfl⟩

/-- `BOOK_CODEw` stands at `0x48 + 4w` (R41). -/
theorem regAt_bookCode {w : Nat} (h : w < 8) : regAt (0x48 + 4 * w) = .bookCode w := by
  interval_cases w <;> rfl

/-- Bit `31 - j` of a packed word is bit `j` of the string, first bit highest (R49, R50). -/
theorem getLsbD_packWord (f : Nat → Bool) {j : Nat} (h : j < 32) : (packWord f).getLsbD (31 - j) = f j := by
  rw [packWord, BitVec.getLsbD_ofFnBE, dif_pos (by omega)]
  congr 1
  simp only [Fin.val_rev]
  omega

/-- The bits of a field of a written word (R12, R48). -/
theorem testBit_fieldOf (v : Word) (lo len j : Nat) :
    (fieldOf v lo len).testBit j = (decide (j < len) && v.getLsbD (lo + j)) := by
  rw [fieldOf, Nat.testBit_mod_two_pow, BitVec.testBit_toNat, BitVec.getLsbD_ushiftRight]

/-- A field of a written word as a number. -/
theorem fieldOf_eq (v : Word) (lo len : Nat) : fieldOf v lo len = v.toNat / 2 ^ lo % 2 ^ len := by
  rw [fieldOf, BitVec.toNat_ushiftRight, Nat.shiftRight_eq_div_pow]

theorem fieldOf_lt (v : Word) (lo len : Nat) : fieldOf v lo len < 2 ^ len := Nat.mod_lt _ (Nat.two_pow_pos _)

/-- A value that fits a word is shown as it is. -/
theorem zext32_toNat {n : Nat} (h : n < 2 ^ 32) : (zext32 n).toNat = n := by
  rw [zext32, BitVec.toNat_ofNat, Nat.mod_eq_of_lt h]

/-- The bits of a word of two values, the second placed at bit `k` above the first. -/
theorem getLsbD_zext32_add {a b k j : Nat} (ha : a < 2 ^ k) (hj : j < 32) :
    (zext32 (a + b * 2 ^ k)).getLsbD j = if j < k then a.testBit j else b.testBit (j - k) := by
  rw [zext32, BitVec.getLsbD_ofNat, decide_eq_true hj, Bool.true_and, Nat.add_comm, Nat.mul_comm, Nat.testBit_two_pow_mul_add _ ha]

end Sys2Proof.Machine
end

