-- ==== Sys2Proof/Tests/Slice0.lean ====
section
/-!
SUPPORT. Tests of the model against spec/95_test_vectors.md and the encodings of spec/30_encoding.md, and for every obligation
that has hypotheses a witness that meets them all.
-/
namespace Sys2Proof.Tests
open Sys2Proof Sys2Proof.Machine

/-! ## Helpers -/

/-- A question about the state a result answers with; false where it answers none. -/
def holdsIn (r : Result) (q : State → Bool) : Bool :=
  match r with
  | .next t => q t
  | .fault _ => false
  | .refused _ => false

def leaf (freq sym : Nat) : NodeEntry := { kind := .leaf, freq := freq, sym := sym, left := 0, right := 0 }

def internal (freq left right : Nat) : NodeEntry := { kind := .internal, freq := freq, sym := 0, left := left, right := right }

/-- A one-bit instance: symbols 0 and 1, counts to 15, 32 bits, 2 symbols of output. -/
def tiny : Params := { symW := 1, cntW := 4, msgCap := 32, outCap := 2 }

/-- A two-bit instance. -/
def small : Params := { symW := 2, cntW := 2, msgCap := 32, outCap := 2 }

/-- After `ENCODE "ab"` (vectors B3, M1) in the one-bit instance, 0 for a and 1 for b. -/
def two : State :=
  { State.resetWith tiny with
    freq := [(0, 1), (1, 1)], total := 2, flock := true, node := [(0, leaf 1 0), (1, leaf 1 1), (2, internal 2 0 1)],
    seq := 3, root := 2, treeValid := true, book := [(0, { valid := true, code := [false] }), (1, { valid := true, code := [true] })],
    msg := [false, true], cur := 2 }

/-- The tree of one leaf (vector B2), a stream of two bits, no book. -/
def one : State :=
  { State.resetWith tiny with
    node := [(0, leaf 3 1)], treeValid := true, msg := [true, false] }

/-- The tree of vector B8, `0` for a, `1` for b, `2` for c, the stream "1011". -/
def three : State :=
  { State.resetWith small with
    node := [(0, leaf 1 0), (1, leaf 1 1), (2, leaf 1 2), (3, internal 2 0 1), (4, internal 3 2 3)], root := 4, treeValid := true,
    msg := [true, false, true, true], cur := 4 }

/-- Vector S6: the counts of "aaabbbddd" in the default instance. -/
def counted : State := { State.reset with freq := [(0x61, 3), (0x62, 3), (0x64, 3)], total := 9 }

/-- The tree T9 that the host of vector A1 wrote, in the default instance. -/
def t9 : State :=
  { State.reset with
    node := [(0, leaf 3 0x61), (1, leaf 2 0x62), (2, leaf 1 0x63), (3, internal 3 1 2), (4, internal 6 0 3)] }

/-- An instance frozen by an error. -/
def frozen (e : ErrCode) : State := { two with err := e, errSub := 2, errInfo := 0x00000001 }

/-! ## WellFormed: an ill-formed term for each check -/

theorem test_count_symbol_too_wide : (Instr.count 2).wf tiny = false ∧ (Instr.count 1).wf tiny = true := by decide

theorem test_pack_symbol_too_wide : (Instr.pack 4).wf small = false ∧ (Instr.pack 3).wf small = true := by decide

theorem test_adopt_node_too_wide : (Instr.adopt 4).wf tiny = false ∧ (Instr.adopt 3).wf tiny = true := by decide

/-! ## Decoding: words written from R90 to R96, opcode in bits 31:24, operand from bit 0 -/

theorem test_decode_format_n :
    decode Params.reference 0b00000000000000000000000000000000#32 = .ok .nop ∧
    decode Params.reference 0b00000001000000000000000000000000#32 = .ok .clr ∧
    decode Params.reference 0b00000011000000000000000000000000#32 = .ok .build ∧
    decode Params.reference 0b00000100000000000000000000000000#32 = .ok .genc ∧
    decode Params.reference 0b00000111000000000000000000000000#32 = .ok .mclr := by decide

theorem test_decode_format_n_decoder :
    decode Params.reference 0b00001001000000000000000000000000#32 = .ok .dstart ∧
    decode Params.reference 0b00001010000000000000000000000000#32 = .ok .unpack ∧
    decode Params.reference 0b00001011000000000000000000000000#32 = .ok .dend ∧
    decode Params.reference 0b00001100000000000000000000000000#32 = .ok .drun ∧
    decode Params.reference 0b00001101000000000000000000000000#32 = .ok .errack := by decide

theorem test_decode_operands :
    decode Params.reference 0b00000010000000000000000010000001#32 = .ok (.count 0x81) ∧
    decode Params.reference 0b00000101000000000000000001111010#32 = .ok (.pack 0x7A) ∧
    decode Params.reference 0b00000110000000000000000000000001#32 = .ok (.putbit true) ∧
    decode Params.reference 0b00000110000000000000000000000000#32 = .ok (.putbit false) ∧
    decode Params.reference 0b00001000000000000000000101000010#32 = .ok (.adopt 0x142) := by decide

/-- Vectors E2, E5, E8, E11, E13, E14. -/
theorem test_decode_rejects :
    decode Params.reference 0x00000001 = .error .mustBeZero ∧ decode Params.reference 0x02000100 = .error .mustBeZero ∧
    decode Params.reference 0x06000002 = .error .mustBeZero ∧ decode Params.reference 0x08000200 = .error .mustBeZero ∧
    decode Params.reference 0x0E000000 = .error .reservedOpcode ∧
    decode Params.reference 0xFF123456 = .error .reservedOpcode := by decide

/-- A narrow instance has more must-be-zero bits (R92, R94). -/
theorem test_decode_narrow :
    decode tiny 0x02000002 = .error .mustBeZero ∧ decode tiny 0x02000001 = .ok (.count 1) ∧
    decode tiny 0x08000004 = .error .mustBeZero ∧ decode tiny 0x08000003 = .ok (.adopt 3) := by decide

theorem test_decode_table_word :
    decodeTableWord 32 0x0C000000 = some .drun ∧ decodeTableWord 32 0x02000061 = some (.count 0x61) ∧
    decodeTableWord 32 0x0E000000 = none := by decide

/-- The first step after reset runs the offered word: vector E3, then F1's first count. -/
theorem test_offered_word_runs :
    holdsIn (step (State.reset.withFetchWord 32 0x02000061)) (fun t =>
      decide (t.freqAt 0x61 = 1) && decide (t.total = 1) && decide (t.pending = [])) = true := by decide

/-! ## One step per command, expected values from spec/95_test_vectors.md -/

/-- Vectors Y5, Y10. -/
theorem test_nop : exec .nop two = .next two ∧ exec .nop (frozen .unknownSymbol) = .next (frozen .unknownSymbol) := ⟨rfl, rfl⟩

/-- Vectors Y6, Y9: everything but `IDX` back to reset. -/
theorem test_clr :
    exec .clr { frozen .illegalCommand with idx := 5 } = .next { State.resetWith tiny with idx := 5 } ∧
    exec .clr { two with idx := 7 } = .next { State.resetWith tiny with idx := 7 } := ⟨rfl, rfl⟩

/-- R225: the fatal error stays. -/
theorem test_clr_fatal : exec .clr (frozen .internalFault) = .next (frozen .internalFault) := rfl

/-- Vectors F1, F3. -/
theorem test_count :
    holdsIn (exec (.count 0x61) counted) (fun t =>
      decide (t.freqAt 0x61 = 4) && decide (t.freqAt 0x62 = 3) && decide (t.total = 10)) = true := by decide

/-- Vectors F4, F5. -/
theorem test_count_raises :
    holdsIn (exec (.count 1) two) (fun t =>
      decide (t.err = .illegalCommand) && decide (t.errSub = 3) && decide (t.errInfo = 0x02000001) && decide (t.total = 2)) = true ∧
    holdsIn (exec (.count 1) { State.resetWith small with total := 3 }) (fun t =>
      decide (t.err = .countOverflow) && decide (t.errSub = 0) && decide (t.total = 3)) = true := by decide

/-- Vector B5: five nodes, the two leaves a and b first. -/
theorem test_build :
    holdsIn (exec .build counted) (fun t =>
      decide (t.node = [(0, leaf 3 0x61), (1, leaf 3 0x62), (2, leaf 3 0x64), (3, internal 6 0 1), (4, internal 9 2 3)]) &&
        decide (t.root = 4) && decide (t.seq = 5) && decide (t.cur = 4)) = true := by decide +kernel

/-- Vector B6: the lower frequency goes left whatever the symbols. -/
theorem test_build_lower_frequency_left :
    holdsIn (exec .build { State.resetWith tiny with freq := [(0, 2), (1, 1)], total := 3 }) (fun t =>
      decide (t.nodeAt 2 = internal 3 1 0) && t.treeValid && t.flock) = true := by decide

/-- Vector G3, on the tree T9. -/
theorem test_genc :
    holdsIn (exec .genc { t9 with treeValid := true, root := 4, cur := 4 }) (fun t =>
      decide (t.book = [(0x61, { valid := true, code := [false] }), (0x62, { valid := true, code := [true, false] }),
        (0x63, { valid := true, code := [true, true] })])) = true := by decide +kernel

/-- Vectors G1, G2. -/
theorem test_genc_degenerate :
    holdsIn (exec .genc one) (fun t => decide (t.book = [(1, { valid := true, code := [false] })])) = true ∧
    holdsIn (exec .genc { two with treeValid := false }) (fun t => decide (t.book = [])) = true := by decide

/-- Vectors K1, K3: the code goes to the end of the stream. -/
theorem test_pack :
    holdsIn (exec (.pack 1) two) (fun t => decide (t.msg = [false, true, true])) = true ∧
    holdsIn (exec (.pack 0x7A) two) (fun t =>
      decide (t.err = .unknownSymbol) && decide (t.errInfo = 0x0500007A) && decide (t.msg = [false, true])) = true := by decide

/-- Vector K9: two bits do not fit behind 31 of 32. -/
theorem test_pack_overflow :
    holdsIn (exec (.pack 0)
      { State.resetWith tiny with book := [(0, { valid := true, code := [true, false] })], msg := List.replicate 31 false })
      (fun t => decide (t.err = .msgOverflow) && decide (t.msg.length = 31) && decide (t.errInfo = 0x05000000)) = true := by decide

/-- Vector K5. -/
theorem test_putbit : holdsIn (exec (.putbit false) { State.reset with msg := [true] }) (fun t => decide (t.msg = [true, false])) = true := by
  decide

/-- Vector K11. -/
theorem test_putbit_overflow :
    holdsIn (exec (.putbit true) { State.resetWith tiny with msg := List.replicate 32 false }) (fun t =>
      decide (t.err = .msgOverflow) && decide (t.errInfo = 0x06000001) && decide (t.msg.length = 32)) = true := by decide

/-- Vector K12. -/
theorem test_mclr :
    holdsIn (exec .mclr { two with msgRd := 2, out := [0, 1], decDone := true }) (fun t =>
      decide (t.msg = []) && decide (t.msgRd = 0) && decide (t.out = []) && !t.decDone && decide (t.cur = 2) &&
        decide (t.book = two.book)) = true := by decide

/-- Vectors A1, A2. -/
theorem test_adopt :
    holdsIn (exec (.adopt 4) t9) (fun t => t.treeValid && decide (t.root = 4) && decide (t.cur = 4)) = true ∧
    holdsIn (exec (.adopt 3) t9) (fun t => t.treeValid && decide (t.root = 3)) = true := by decide

/-- Vectors A4, A5, A7, A8, A10. -/
theorem test_adopt_bad_trees :
    t9.wellFormedTree 5 = false ∧ t9.wellFormedTree 511 = false ∧
    { t9 with node := Store.set NodeEntry.blank t9.node 3 (internal 4 1 2) }.wellFormedTree 4 = false ∧
    { t9 with node := Store.set NodeEntry.blank t9.node 2 (leaf 1 0x62) }.wellFormedTree 4 = false ∧
    { t9 with node := Store.set NodeEntry.blank t9.node 3 (internal 3 3 2) }.wellFormedTree 4 = false := by decide

/-- The numbers of R232, in bits 11:8 of `STATUS`. -/
theorem test_status_codes :
    ([.none, .unknownSymbol, .malformedInput, .internalFault, .illegalCommand, .countOverflow, .msgOverflow, .outOverflow,
      .badTree].map fun e => (readReg { State.reset with err := e } (regAt 0x04)).toNat / 2 ^ 8 % 2 ^ 4) =
      [0, 1, 2, 3, 4, 5, 6, 7, 8] := by decide

/-- Vector A9: a leaf with the count 0, all sums right. -/
theorem test_adopt_zero_count :
    { t9 with
      node := [(0, leaf 3 0x61), (1, leaf 2 0x62), (2, leaf 0 0x63), (3, internal 2 1 2), (4, internal 5 0 3)]
    }.wellFormedTree 4 = false := by decide

/-- Vector U23. -/
theorem test_dstart :
    holdsIn (exec .dstart { two with msgRd := 2, out := [0, 1], decDone := true }) (fun t =>
      decide (t.msgRd = 0) && decide (t.out = []) && !t.decDone && decide (t.cur = 2) && decide (t.msg = [false, true])) = true := by
  decide

/-- Vectors U1, U2: bit 1 goes right, bit 0 left; a leaf yields its symbol and the cursor returns to the root. -/
theorem test_unpack :
    holdsIn (exec .unpack three) (fun t => decide (t.cur = 3) && decide (t.msgRd = 1) && decide (t.out = [])) = true ∧
    holdsIn (exec .unpack { three with cur := 3, msgRd := 1 }) (fun t =>
      decide (t.cur = 4) && decide (t.msgRd = 2) && decide (t.out = [0])) = true := by decide

/-- Vectors U14, U17. -/
theorem test_unpack_raises :
    holdsIn (exec .unpack { State.reset with msg := [true] }) (fun t =>
      decide (t.err = .malformedInput) && decide (t.errSub = 2) && decide (t.errInfo = 0x0A000000) && decide (t.msgRd = 0)) = true ∧
    holdsIn (exec .unpack { two with msgRd := 2, out := [0, 1] }) (fun t =>
      decide (t.err = .illegalCommand) && decide (t.errSub = 3) && decide (t.out = [0, 1])) = true := by decide

/-- Vectors U3, U16. -/
theorem test_dend :
    holdsIn (exec .dend { two with msgRd := 2, out := [0, 1] }) (fun t => t.decDone && decide (t.out = [0, 1])) = true ∧
    holdsIn (exec .dend two) (fun t => decide (t.err = .illegalCommand) && decide (t.errInfo = 0x0B000000)) = true := by decide

/-- Program P2 line 42: the cursor is inside the tree at the end of the stream. -/
theorem test_dend_dangling :
    holdsIn (exec .dend { three with cur := 3, msgRd := 4, out := [0] }) (fun t =>
      decide (t.err = .malformedInput) && decide (t.errSub = 1) && decide (t.out = []) && decide (t.cur = 3)) = true := by decide

/-- Vectors U22, U6. -/
theorem test_drun :
    holdsIn (exec .drun two) (fun t => decide (t.out = [0, 1]) && t.decDone && decide (t.msgRd = 2) && decide (t.cur = 2)) = true ∧
    holdsIn (exec .drun one) (fun t => decide (t.out = [1, 1]) && t.decDone && decide (t.msgRd = 2)) = true := by decide

/-- Vector U20: the third symbol does not fit, its bit is not taken. -/
theorem test_drun_overflow :
    holdsIn (exec .drun { one with msg := [false, false, false] }) (fun t =>
      decide (t.err = .outOverflow) && decide (t.errInfo = 0x0C000000) && decide (t.msgRd = 2) && decide (t.out = [])) = true := by
  decide

/-- Vectors Y7, Y11. -/
theorem test_errack :
    exec .errack { two with err := .unknownSymbol, errInfo := 0x0500007A } = .next two ∧ exec .errack two = .next two :=
  ⟨rfl, rfl⟩

/-- Vectors Y1, K3 (`STATUS`), F4. -/
theorem test_status :
    State.reset.status = 0x00000018 ∧ { two with err := .unknownSymbol }.status = 0x0000010B ∧
    { two with err := .illegalCommand, errSub := 3 }.status = 0x0000340B := by decide

/-- Vectors K2 (`MSG_D`), G4 (`BOOK_CODE0`), B5 (`NODE_C`), Y1 (`PARAM`). -/
theorem test_windows :
    { State.reset with
      msg := [true, false, true, false, true, false, true, true, true, true, true, true] }.msgWord 0 = 0xABF00000 ∧
    ({ valid := true, code := [true, true] } : BookEntry).wordCode 0 = 0xC0000000 ∧
    (internal 9 2 3).wordC = 0x00030002 ∧ readReg State.reset .param = 0x00002008 := by decide +kernel

/-- Vector A13: a written `kind` of 3 is stored as `EMPTY`. -/
theorem test_node_window_kind_three :
    { t9 with idx := 3 }.window = 3 ∧
    (writeReg .nodeK 3 { t9 with idx := 3, treeValid := true, root := 4 }).nodeAt 3 =
      { kind := .empty, freq := 3, sym := 0, left := 1, right := 2 } := by decide

/-! ## Witnesses: for every obligation with hypotheses, a state and operands that meet them all, per clause -/

/-- The state `two` meets the invariant of R53. -/
theorem two_inv : two.Inv where
  legal := by decide
  stores := by decide
  fits :=
    { freq := by decide
      total := by decide
      node := by unfold NodeEntry.Fits; decide
      seq := by decide
      root := by decide
      cur := by decide
      book := by decide
      out := by decide }
  counts := by decide
  taken := by decide
  stream := by decide
  output := by decide
  tree := fun _ => by decide
  noTree := fun h => absurd h (by decide)
  cursor := fun _ => .inl rfl
  codes := by
    intro sym h
    refine ⟨rfl, ?_⟩
    have hk : (two.nodeAt two.root).kind ≠ .leaf := by decide
    unfold State.Codes
    rw [if_neg hk]
    match sym, h with
    | 0, _ => exact ⟨0, by decide, by decide, by decide⟩
    | 1, _ => exact ⟨1, by decide, by decide, by decide⟩
    | n + 2, h => exact absurd h (by simp [State.bookAt, two, Store.get, BookEntry.blank])
  errors := by decide

theorem witness_DecodeReadsBackEveryCommand :
    Params.reference.Legal ∧ (Instr.adopt 511).wf Params.reference = true ∧ (Instr.pack 255).wf Params.reference = true ∧
    tiny.Legal ∧ (Instr.count 1).wf tiny = true := by decide

theorem witness_DecodedWordIsTheEncodingOfItsCommand :
    Params.reference.Legal ∧ decode Params.reference 0x080001FF = .ok (.adopt 511) := by decide

theorem witness_WordIsTheCommandOfARowByMaskAndMatch :
    ((0x08, 0x08000000, 0xFFFFFE00) : BitVec 8 × Word × Word) ∈ Claims.rows := by decide

theorem witness_WordsThatAreNoCommandAreTheReservedAndTheStray :
    Params.reference.Legal ∧ 0x0E ≤ Claims.op 0x0E000000 ∧ Claims.op 0x0D000001 ≤ 0x0D ∧
    2 ^ Claims.operandWidth Params.reference (Claims.op 0x0D000001) ≤ (0x0D000001 : Word).toNat % 2 ^ 24 := by decide

theorem witness_StepRunsTheDecodedCommand :
    decode two.params 0x0C000000 = .ok .drun ∧
    { two with pending := [.write 0x00 4 0x0C000000, .reset] }.pending = .write 0x00 4 0x0C000000 :: [.reset] := by decide

theorem witness_WordsThatAreNoCommandRaiseIllegalCommand :
    two.params.Legal ∧ two.Live ∧ 0x0E ≤ Claims.op 0xFF000000 ∧ Claims.op 0x02000002 ≤ 0x0D ∧
    2 ^ Claims.operandWidth two.params (Claims.op 0x02000002) ≤ (0x02000002 : Word).toNat % 2 ^ 24 := by decide

theorem witness_CommandWriteFollowsTheOrderOfChecks :
    two.params.Legal ∧ (frozen .internalFault).params.Legal ∧ (frozen .badTree).err ≠ .none := by decide

theorem witness_StepPerformsTheNextAccess :
    two.pending = [] ∧ { two with pending := [.read 0x04 4] }.pending = .read 0x04 4 :: [] := by decide

theorem witness_AccessOutsideTheInterfaceIsRefused : (2 ≠ 4 ∧ 0x02 % 4 ≠ 0 ∧ 0xFC < 0x100) := by decide

theorem witness_EveryAccessOfTheInterfaceCompletes :
    { two with pending := [.write 0xFC 4 1] }.Inv ∧
    { two with pending := [.write 0xFC 4 1] }.pending = [.write 0xFC 4 1] ∧
    ∃ offset ≤ 0xFC, offset % 4 = 0 ∧ (Access.write 0xFC 4 1 = .read offset 4 ∨ ∃ v, Access.write 0xFC 4 1 = .write offset 4 v) :=
  ⟨two_inv.host _ _ _, rfl, 0xFC, by decide, by decide, .inr ⟨1, rfl⟩⟩

theorem witness_ReadAnswersTheRegisterAndChangesNothing : 0x00 % 4 = 0 ∧ 0xFC % 4 = 0 ∧ 0xFC ≤ 0xFC := by decide

theorem witness_PlainRegistersShowTheirElement :
    { two with idx := 1 }.idx.toNat < two.params.nsym ∧ ¬{ two with idx := 2 }.idx.toNat < two.params.nsym ∧ 0x74 ≤ 0x74 := by
  decide

theorem witness_StreamWindowShowsTheBitsFirstHighest :
    31 < 32 ∧ two.idx.toNat < two.params.msgCap / 32 ∧ 32 * two.idx.toNat + 1 < two.msg.length ∧
    ¬32 * two.idx.toNat + 2 < two.msg.length ∧ ¬{ two with idx := 1 }.idx.toNat < two.params.msgCap / 32 := by decide

theorem witness_BookWindowShowsTheEntry :
    two.Inv ∧ two.idx.toNat < two.params.nsym ∧
    { two with idx := 2 }.Inv ∧ two.params.nsym ≤ { two with idx := 2 }.idx.toNat :=
  ⟨two_inv, by decide, two_inv.host _ _ _, by decide⟩

theorem witness_OutputIsShownOnlyAfterTheDecodeCall :
    { two with decDone := true, out := [0, 1], idx := 1 }.decDone = true ∧
    { two with decDone := true, out := [0, 1], idx := 1 }.idx.toNat < [0, 1].length ∧
    [0, 1].length ≤ { two with decDone := true, out := [0, 1], idx := 2 }.idx.toNat ∧ two.decDone = false := by decide

theorem witness_NodeWindowShowsAndReplacesTheFields :
    two.params.Legal ∧ two.Live ∧ two.params.nodeMax ≤ { two with idx := 3 }.idx.toNat ∧
    { two with idx := 2 }.idx.toNat < two.params.nodeMax ∧
    ({ two with idx := 2 }.nodeAt 2).freq ≤ two.params.cntMax ∧ ({ two with idx := 2 }.nodeAt 2).sym < two.params.nsym ∧
    ({ two with idx := 2 }.nodeAt 2).left < 2 ^ two.params.nidxW ∧ ({ two with idx := 2 }.nodeAt 2).right < 2 ^ two.params.nidxW := by
  decide

theorem witness_NodeWindowWriteDropsTheTree :
    two.Live ∧ two.idx.toNat < two.params.nodeMax ∧ { two with idx := 2 }.idx.toNat < two.params.nodeMax := by decide

theorem witness_IdxIsWrittenAndReadOnlyOffsetsAreNot :
    0x28 % 4 = 0 ∧ 0xFC % 4 = 0 ∧ 0x04 ≠ 0x00 ∧ 0xFC ≠ 0x38 := by decide

theorem witness_ResetStateMeetsTheInvariant : Params.reference.Legal ∧ tiny.Legal := by decide

theorem witness_ClrLeavesTheResetStateButIdx :
    (frozen .badTree).err ≠ .internalFault ∧ (frozen .internalFault).err = .internalFault := by decide

theorem witness_ErrackClearsTheErrorRegisters :
    (frozen .badTree).err ≠ .none ∧ (frozen .badTree).err ≠ .internalFault ∧ two.err = .none ∧
    (frozen .internalFault).err = .internalFault := by decide

theorem witness_CountCountsOneOccurrence :
    two.Live ∧ two.flock = true ∧
    { State.resetWith tiny with total := 15 }.total = 2 ^ tiny.cntW - 1 ∧ (State.resetWith tiny).flock = false ∧
    { State.resetWith tiny with total := 14 }.total ≠ 2 ^ tiny.cntW - 1 := by decide

/-- Leaves 0 and 1 of frequency 3, a leaf 2 of frequency 2, internal nodes 3 and 4 of frequency 3, an empty entry 5. -/
def orders : Store NodeEntry := [(0, leaf 3 0), (1, leaf 3 1), (2, leaf 2 0), (3, internal 3 0 0), (4, internal 3 0 0)]

theorem witness_LessFollowsTheFourLines :
    (nodeGet small orders 2).freq ≠ (nodeGet small orders 0).freq ∧
    (nodeGet small orders 0).freq = (nodeGet small orders 1).freq ∧ (nodeGet small orders 0).kind = .leaf ∧
    (nodeGet small orders 1).kind = .leaf ∧ (nodeGet small orders 3).freq = (nodeGet small orders 4).freq ∧
    (nodeGet small orders 3).kind = .internal ∧ (nodeGet small orders 4).kind = .internal ∧
    (nodeGet small orders 0).freq = (nodeGet small orders 3).freq ∧
    (nodeGet small orders 5).freq = (nodeGet small orders 6).freq ∧ (nodeGet small orders 5).kind = .empty := by decide

theorem witness_LessIsAStrictTotalOrder :
    (∀ x ∈ [0, 1, 3, 4], (nodeGet small orders x).kind ≠ .empty) ∧
    ∀ x ∈ [0, 1, 3, 4], ∀ y ∈ [0, 1, 3, 4], (nodeGet small orders x).kind = .leaf → (nodeGet small orders y).kind = .leaf →
      (nodeGet small orders x).sym = (nodeGet small orders y).sym → x = y := by decide

theorem witness_DequeueTakesTheOneMinimum :
    [3, 1, 0] ≠ [] ∧ [3, 1, 0].Nodup ∧ (∀ x ∈ [3, 1, 0], (nodeGet small orders x).kind ≠ .empty) ∧
    ∀ x ∈ [3, 1, 0], ∀ y ∈ [3, 1, 0], (nodeGet small orders x).kind = .leaf → (nodeGet small orders y).kind = .leaf →
      (nodeGet small orders x).sym = (nodeGet small orders y).sym → x = y := by decide

theorem witness_BuildCompletesAndKeepsWhatItDoesNotName : two.Live ∧ (State.resetWith small).Live := by decide

theorem witness_BuildMergesTheTwoLeastNodes :
    two.Live ∧ Claims.counted two = [0, 1] ∧ (Claims.counted two).length ≤ 2 ∧ 2 + 1 < 2 * (Claims.counted two).length := by decide

theorem witness_BuildMakesAWellFormedTree : two.Live ∧ ∃ sym < two.params.nsym, 0 < two.freqAt sym := by decide

theorem witness_BuildOfNoneOrOneSymbol :
    (State.resetWith tiny).Live ∧ (∀ sym < tiny.nsym, (State.resetWith tiny).freqAt sym = 0) ∧
    0 < { State.resetWith tiny with freq := [(1, 3)] }.freqAt 1 ∧
    ∀ k < tiny.nsym, k ≠ 1 → { State.resetWith tiny with freq := [(1, 3)] }.freqAt k = 0 := by decide

theorem witness_BuildDependsOnTheFrequenciesAlone :
    two.Live ∧ { State.resetWith tiny with freq := two.freq }.Live ∧
    ∀ sym < two.params.nsym, two.freqAt sym = { State.resetWith tiny with freq := two.freq }.freqAt sym := by decide

theorem witness_AdoptTakesExactlyTheWellFormedTrees :
    two.Live ∧ two.wellFormedTree (2 : BitVec 9).toNat = true ∧ two.wellFormedTree (3 : BitVec 9).toNat = false := by decide

theorem witness_GencWritesExactlyTheCodesOfTheTree :
    two.Live ∧ two.Inv ∧ two.treeValid = true ∧ (State.resetWith tiny).Live ∧ (State.resetWith tiny).treeValid = false :=
  ⟨by decide, two_inv, by decide, by decide, by decide⟩

theorem witness_ValidCodesFormAPrefixCode :
    two.Inv ∧ 0 ≠ 1 ∧ (two.bookAt 0).valid = true ∧ (two.bookAt 1).valid = true :=
  ⟨two_inv, by decide, by decide, by decide⟩

theorem witness_ValidCodesHaveOneToLmaxBits : two.Inv ∧ (two.bookAt 1).valid = true := ⟨two_inv, by decide⟩

/-- `two` with one bit of room, then none. -/
def nearlyFull (n : Nat) : State := { two with msg := List.replicate n false }

theorem witness_PackAppendsTheCode :
    two.Live ∧ (two.bookAt (2 : BitVec 8).toNat).valid = false ∧ (two.bookAt (1 : BitVec 8).toNat).valid = true ∧
    two.params.msgCap < (nearlyFull 32).msg.length + ((nearlyFull 32).bookAt (1 : BitVec 8).toNat).code.length ∧
    (nearlyFull 31).msg.length + ((nearlyFull 31).bookAt (1 : BitVec 8).toNat).code.length ≤ two.params.msgCap := by decide

theorem witness_PutbitAppendsItsBit :
    (nearlyFull 31).Live ∧ (nearlyFull 31).msg.length ≠ tiny.msgCap ∧ (nearlyFull 32).msg.length = tiny.msgCap := by decide

theorem witness_MclrAndDstartRewindTheDecoder : { two with msgRd := 1, out := [0] }.Live := by decide

theorem witness_PackingASequenceAppendsItsCodesInOrder :
    two.Live ∧ (∀ sym ∈ ([1, 0] : List (BitVec 8)), (two.bookAt sym.toNat).valid = true) ∧
    two.msg.length + (([1, 0] : List (BitVec 8)).flatMap fun sym => (two.bookAt sym.toNat).code).length ≤ two.params.msgCap := by
  decide

/-- `three` with the cursor at the inner node 3. -/
def inside : State := { three with cur := 3, msgRd := 1 }

/-- `three` with the leaf 2 erased, a state that no run reaches. -/
def torn : State := { three with node := Store.erase three.node 2, msg := [false] }

/-- A stream that ends inside a code: `c`, then one bit of the code of `a`. -/
def truncated : State := { three with msg := [false, true] }

/-- A stream of one symbol more than the output holds. -/
def crowded : State := { one with msg := [true, true, true] }

theorem witness_UnpackMovesTheCursorByOneBit :
    (one.Live ∧ one.msg[one.msgRd]? = some true ∧ one.treeValid = true ∧ (one.nodeAt one.root).kind = .leaf ∧
      one.out.length ≠ one.params.outCap) ∧
    (three.Live ∧ three.decDone = false ∧ three.msg[three.msgRd]? = some true ∧ three.treeValid = true ∧
      (three.nodeAt three.root).kind ≠ .leaf ∧ (three.nodeAt three.cur).kind = .internal ∧
      (three.nodeAt (three.nodeAt three.cur).right).kind = .internal) ∧
    (inside.msg[inside.msgRd]? = some false ∧ (inside.nodeAt (inside.nodeAt inside.cur).left).kind = .leaf ∧
      inside.out.length ≠ inside.params.outCap ∧ { inside with out := [0, 0] }.out.length = inside.params.outCap) ∧
    (torn.msg[torn.msgRd]? = some false ∧ torn.treeValid = true ∧ (torn.nodeAt (torn.nodeAt torn.cur).left).kind = .empty) ∧
    ({ three with cur := 0 }.nodeAt 0).kind ≠ .internal := by decide

theorem witness_UnpackRaisesWithoutABitOrATree :
    { two with decDone := true }.Live ∧ { two with msgRd := 2 }.msgRd = two.msg.length ∧
    { State.resetWith tiny with msg := [true] }.msgRd < [true].length ∧ (State.resetWith tiny).treeValid = false := by decide

theorem witness_DendEndsTheCallAtTheRoot :
    two.Live ∧ two.msgRd ≠ two.msg.length ∧ { two with decDone := true }.decDone = true ∧
    ({ three with cur := 3, msgRd := 4 }.msgRd = three.msg.length ∧ { three with cur := 3, msgRd := 4 }.cur ≠ three.root) ∧
    { two with msgRd := 2 }.msgRd = two.msg.length ∧ two.cur = two.root ∧ two.decDone = false := by decide

/-- A run that ends well, one whose stream ends inside a code, one that has no room for a symbol, and a finished call. -/
theorem witness_DrunIsTheUnpacksAndDend :
    (two.Live ∧ two.decDone = false ∧ two.msgRd ≤ two.msg.length ∧
      holdsIn (exec .drun two) (fun t => decide (t.err = .none)) = true) ∧
    (truncated.Live ∧ truncated.decDone = false ∧ truncated.msgRd ≤ truncated.msg.length ∧
      holdsIn (exec .drun truncated) (fun t => decide (t.err = .malformedInput ∧ t.msgRd = 2 ∧ t.cur = 3)) = true) ∧
    (crowded.Live ∧ crowded.decDone = false ∧ crowded.msgRd ≤ crowded.msg.length ∧
      holdsIn (exec .drun crowded) (fun t => decide (t.err = .outOverflow ∧ t.msgRd = 2 ∧ t.out = [])) = true) ∧
    { two with decDone := true }.Live ∧ { two with decDone := true }.decDone = true := by decide

theorem witness_DrunOnOneLeafCopiesItsSymbolPerBit :
    one.Live ∧ one.decDone = false ∧ one.treeValid = true ∧ (one.nodeAt one.root).kind = .leaf ∧ one.cur = one.root ∧
    one.msgRd ≤ one.msg.length ∧ one.out.length + (one.msg.length - one.msgRd) ≤ one.params.outCap := by decide

theorem witness_DecodeWithoutATree :
    State.reset.Live ∧ State.reset.treeValid = false ∧ State.reset.root = 0 ∧ State.reset.msg = [] ∧
    { State.reset with msg := [true] }.msg ≠ [] := by decide

theorem witness_DrunDecodesTheCodesOfASequence :
    two.Inv ∧ two.Live ∧ two.decDone = false ∧ two.treeValid = true ∧ two.cur = two.root ∧
    (∀ c ∈ [(0, [false]), (1, [true])], two.Codes c.1 c.2) ∧
    two.msg.drop two.msgRd = [(0, [false]), (1, [true])].flatMap Prod.snd ∧ two.out.length + 2 ≤ two.params.outCap := by
  refine ⟨two_inv, by decide, by decide, by decide, by decide, fun c hc => ?_, by decide, by decide⟩
  have hk : (two.nodeAt two.root).kind ≠ .leaf := by decide
  unfold State.Codes
  rw [if_neg hk]
  simp only [List.mem_cons, List.not_mem_nil, or_false] at hc
  rcases hc with rfl | rfl
  · exact ⟨0, by decide, by decide, by decide⟩
  · exact ⟨1, by decide, by decide, by decide⟩

theorem witness_EncodeThenDecodeReturnsTheSequence :
    two.Live ∧ (∀ sym ∈ ([0, 1] : List (BitVec 8)), sym.toNat < two.params.nsym) ∧
    ([0, 1] : List (BitVec 8)).length ≤ two.params.cntMax ∧ ([0, 1] : List (BitVec 8)).length ≤ two.params.outCap ∧
    holdsIn (runCommands (bookCall [0, 1]) two) (fun u =>
      decide ((([0, 1] : List (BitVec 8)).map fun sym => (u.bookAt sym.toNat).code.length).sum ≤ u.params.msgCap)) = true := by
  decide +kernel

theorem witness_FrozenInstanceRunsOnlyNopErrackAndClr :
    ¬(frozen .badTree).Live ∧ ¬(frozen .internalFault).Live ∧ Instr.build ≠ .nop ∧ Instr.build ≠ .errack ∧ Instr.build ≠ .clr := by
  decide

/-- A command that is no decode step; an illegal `DEND` and a failing `UNPACK`; `DRUN` after the call, failing at a step, failing
at the end of the stream. -/
theorem witness_ErrorsArePrecise :
    (two.Live ∧ holdsIn (exec (.pack 2) two) (fun t => decide (t.err = .unknownSymbol)) = true) ∧
    holdsIn (exec .dend two) (fun t => decide (t.err = .illegalCommand)) = true ∧
    ({ one with out := [0, 0] }.Live ∧
      holdsIn (exec .unpack { one with out := [0, 0] }) (fun t => decide (t.err = .outOverflow)) = true) ∧
    ({ two with decDone := true }.Live ∧
      holdsIn (exec .drun { two with decDone := true }) (fun t => decide (t.err = .illegalCommand)) = true) ∧
    (crowded.Live ∧ holdsIn (exec .drun crowded) (fun t => decide (t.err = .outOverflow)) = true) ∧
    truncated.Live ∧ holdsIn (exec .drun truncated) (fun t => decide (t.err = .malformedInput)) = true := by decide

theorem witness_EachErrorComesFromItsCommands :
    holdsIn (exec (.pack 2) two) (fun t => decide (t.err = .unknownSymbol)) = true ∧
    holdsIn (exec .drun { three with msg := [true] }) (fun t => decide (t.err = .malformedInput)) = true ∧
    holdsIn (exec .unpack torn) (fun t => decide (t.err = .internalFault)) = true ∧
    holdsIn (exec .dend two) (fun t => decide (t.err = .illegalCommand)) = true ∧
    holdsIn (exec (.count 0) { State.resetWith tiny with total := 15 }) (fun t => decide (t.err = .countOverflow)) = true ∧
    holdsIn (exec (.putbit true) (nearlyFull 32)) (fun t => decide (t.err = .msgOverflow)) = true ∧
    holdsIn (exec .unpack { one with out := [0, 0] }) (fun t => decide (t.err = .outOverflow)) = true ∧
    holdsIn (exec (.adopt 3) two) (fun t => decide (t.err = .badTree)) = true := by decide

theorem witness_FirstErrorIsKeptUntilItIsCleared :
    ¬(frozen .internalFault).Live ∧ step (frozen .internalFault) = .next (frozen .internalFault) ∧
    step { frozen .badTree with pending := [.write 0x00 4 0x0D000000] } = .next two :=
  ⟨by decide, rfl, rfl⟩

theorem witness_InternalFaultNeverArises :
    { two with pending := [.write 0x00 4 0] }.Inv ∧ two.err ≠ .internalFault ∧
    step { two with pending := [.write 0x00 4 0] } = .next two :=
  ⟨two_inv.host _ _ _, by decide, rfl⟩

theorem witness_EachElementIsWrittenByItsCommandsOnly :
    exec .mclr two = .next { two with msg := [] } ∧ exec .dstart { two with out := [1] } = .next two := ⟨rfl, rfl⟩

theorem witness_EveryStepKeepsTheStoresCanonical : Memory.wf two = true ∧ step two = .next two := ⟨by decide, rfl⟩

theorem witness_EveryStepKeepsTheInvariant :
    { two with pending := [.write 0x00 4 0x01000000] }.Inv ∧
    step { two with pending := [.write 0x00 4 0x01000000] } = .next (State.resetWith tiny) :=
  ⟨two_inv.host _ _ _, rfl⟩

end Sys2Proof.Tests
end

section
/-!
PROOFS. The length of a valid code (spec/10_state.md R31, spec/00_scope.md R11).
-/
namespace Sys2Proof.Machine

/-- In a state of the invariant the symbols of a tree are below `NSYM` (R27). -/
theorem Subtree.sym_lt_nsym {s : State} (hs : s.Inv) {i : Nat} {syms : List Nat} (h : Subtree s.nodeAt i syms) :
    ∀ sym ∈ syms, sym < s.params.nsym := by
  intro sym hsym
  obtain ⟨-, l, -, -, rfl⟩ := h.exists_path sym hsym
  obtain ⟨-, hlt, -⟩ := hs.nodeAt_fits l
  exact hlt

/-- A tree with distinct symbols has at most `NSYM` leaves. -/
theorem Subtree.length_le_nsym {s : State} (hs : s.Inv) {i : Nat} {syms : List Nat} (h : Subtree s.nodeAt i syms)
    (hn : syms.Nodup) : syms.length ≤ s.params.nsym := by
  have hsub : syms ⊆ List.range s.params.nsym := fun sym hsym => List.mem_range.mpr (h.sym_lt_nsym hs sym hsym)
  simpa using (hn.subperm hsub).length_le

/-- A path in the present tree has at most `LMAX` edges: each leaves at least one other leaf behind (R11). -/
theorem State.Inv.follow_length_le_lmax {s : State} (hs : s.Inv) (hv : s.treeValid = true) {p : Bits} {l : Nat}
    (hp : s.follow s.root p = some l) : p.length ≤ s.params.lmax := by
  obtain ⟨-, syms, htree, hn⟩ := State.wellFormedTree_iff.mp (hs.tree hv)
  obtain ⟨sub, hsub, -, hlen⟩ := htree.follow hp
  have hpos := List.length_pos_iff.mpr hsub.ne_nil
  have hle := htree.length_le_nsym hs hn
  unfold Params.lmax
  omega

/-- Legal parameters give at least two symbols, so the longest code has at least one bit (R10). -/
theorem Params.one_le_lmax_of_legal {p : Params} (h : p.Legal) : 1 ≤ p.lmax := by
  obtain ⟨⟨hw, -⟩, -⟩ := h
  have : 2 ^ 1 ≤ 2 ^ p.symW := Nat.pow_le_pow_right (by decide) hw
  unfold Params.lmax Params.nsym
  omega

/-- Every code that the present tree gives has 1 to `LMAX` bits. -/
theorem State.Inv.codes_length {s : State} (hs : s.Inv) (hv : s.treeValid = true) {sym : Nat} {code : Bits}
    (h : s.Codes sym code) : 1 ≤ code.length ∧ code.length ≤ s.params.lmax := by
  unfold State.Codes at h
  split at h
  · obtain ⟨-, rfl⟩ := h
    exact ⟨le_rfl, Params.one_le_lmax_of_legal hs.legal⟩
  · next hroot =>
    obtain ⟨l, hp, hl, -⟩ := h
    have hne : code ≠ [] := by
      rintro rfl
      obtain rfl : s.root = l := by simpa using hp
      exact hroot hl
    exact ⟨List.length_pos_iff.mpr hne, hs.follow_length_le_lmax hv hp⟩

/-- Settles O39: a valid entry holds a code of the present tree, a path whose length the number of leaves bounds. -/
theorem validCodesHaveOneToLmaxBits : Obligations.ValidCodesHaveOneToLmaxBits := by
  intro s hs sym hvalid
  obtain ⟨hv, hcode⟩ := hs.codes sym hvalid
  exact hs.codes_length hv hcode

end Sys2Proof.Machine
end

section
/-!
PROOFS. Every step keeps the stores in canonical form and the parameters (spec/10_state.md R22, spec/20_memory.md R61,
spec/00_scope.md R10).
-/
namespace Sys2Proof.Machine

/-- From `s` to `t` the parameters stay, and the stores of `t` are in canonical form where those of `s` are. -/
structure State.FormKept (s t : State) : Prop where
  wf : Memory.wf s = true → Memory.wf t = true
  params : t.params = s.params

namespace State.FormKept

/-- A change outside the stores and the parameters. -/
theorem of_stores_eq {s t : State} (hp : t.params = s.params) (hf : t.freq = s.freq) (hn : t.node = s.node)
    (hb : t.book = s.book) : s.FormKept t :=
  ⟨fun h => by rwa [Memory.wf_congr hf hn hb], hp⟩

theorem refl (s : State) : s.FormKept s := ⟨id, rfl⟩

theorem trans {s t u : State} (h : s.FormKept t) (h' : t.FormKept u) : s.FormKept u :=
  ⟨fun hs => h'.wf (h.wf hs), h'.params.trans h.params⟩

theorem raise (s : State) (e : ErrCode) (sub : BitVec 4) (w : Word) : s.FormKept (s.raise e sub w) :=
  of_stores_eq rfl rfl rfl rfl

theorem decodeFail (s : State) (e : ErrCode) (sub : BitVec 4) (w : Word) : s.FormKept (s.decodeFail e sub w) :=
  of_stores_eq rfl rfl rfl rfl

theorem decodeRewind (s : State) : s.FormKept s.decodeRewind := of_stores_eq rfl rfl rfl rfl

theorem append (s : State) (c : Bits) : s.FormKept (s.append c) := of_stores_eq rfl rfl rfl rfl

theorem errClear (s : State) : s.FormKept s.errClear := of_stores_eq rfl rfl rfl rfl

theorem takeAccess (s : State) (rest : List Access) : s.FormKept (s.takeAccess rest) := of_stores_eq rfl rfl rfl rfl

theorem bookClear (s : State) : s.FormKept s.bookClear := ⟨Memory.wf_bookClear, rfl⟩

theorem resetInstance (s : State) : s.FormKept s.resetInstance := ⟨fun _ => Memory.wf_resetInstance s, rfl⟩

end State.FormKept

/-- A next state that `r` answers keeps the form of `s`; a fault or a refusal answers none. -/
def State.AnswersKept (s : State) (r : Result) : Prop := ∀ t, r = .next t → s.FormKept t

theorem State.FormKept.answer {s t : State} (h : s.FormKept t) : s.AnswersKept (.next t) := by
  intro u hu
  rwa [← Host.Outcome.next.inj hu]

/-- A gated meaning keeps the form where its body does. -/
theorem whenLive_answersKept {s : State} {b : Result} (h : s.AnswersKept b) : s.AnswersKept (whenLive s b) := by
  intro t ht
  rcases whenLive_next ht with ⟨-, rfl⟩ | ⟨-, hb⟩
  · exact .refl t
  · exact h t hb

/-! ## Decoding -/

theorem unpackStep_ok_formKept {w : Word} {s t : State} (h : unpackStep w s = .ok t) : s.FormKept t := by
  rw [(unpackStep_ok h).1]
  exact .of_stores_eq rfl rfl rfl rfl

theorem unpackStep_error_formKept {w : Word} {s t : State} (h : unpackStep w s = .error t) : s.FormKept t := by
  obtain ⟨e, sub, rfl, -⟩ := unpackStep_error h
  exact .decodeFail s e sub w

theorem unpackLoop_ok_formKept {w : Word} {n : Nat} {s t : State} (h : unpackLoop w n s = .ok t) : s.FormKept t := by
  rw [unpackLoop_ok h]
  exact .of_stores_eq rfl rfl rfl rfl

theorem endCheck_formKept (w : Word) (s : State) : s.FormKept (endCheck w s) := by
  unfold endCheck
  split
  · exact .of_stores_eq rfl rfl rfl rfl
  · exact .decodeFail s _ _ w

theorem execUnpack_answersKept (s : State) : s.AnswersKept (execUnpack s) := by
  refine whenLive_answersKept ?_
  split
  · exact (State.FormKept.raise s _ _ _).answer
  · split
    · split
      · next h => exact (unpackStep_error_formKept h).answer
      · next h => exact (unpackStep_ok_formKept h).answer
    · exact (State.FormKept.raise s _ _ _).answer

theorem execDend_answersKept (s : State) : s.AnswersKept (execDend s) := by
  refine whenLive_answersKept ?_
  split
  · exact (State.FormKept.raise s _ _ _).answer
  · split
    · exact (endCheck_formKept _ s).answer
    · exact (State.FormKept.raise s _ _ _).answer

theorem execDrun_answersKept (s : State) : s.AnswersKept (execDrun s) := by
  intro t h
  by_cases hl : s.Live
  · rcases execDrun_cases hl h with ⟨-, rfl⟩ | ⟨-, u, k, hu, ⟨-, hfail⟩ | ⟨-, rfl⟩⟩
    · exact .raise s _ _ _
    · exact (unpackLoop_ok_formKept hu).trans (unpackStep_error_formKept hfail)
    · exact (unpackLoop_ok_formKept hu).trans (endCheck_formKept _ u)
  · rw [execDrun, whenLive_of_frozen hl] at h
    exact (State.FormKept.refl s).answer t h

/-! ## The commands that write a store -/

theorem execClr_answersKept (s : State) : s.AnswersKept (execClr s) := by
  unfold execClr
  split
  · exact (State.FormKept.refl s).answer
  · exact State.FormKept.answer ⟨fun _ => rfl, rfl⟩

theorem execCount_answersKept (sym : BitVec 8) (s : State) : s.AnswersKept (execCount sym s) := by
  refine whenLive_answersKept ?_
  split
  · exact (State.FormKept.raise s _ _ _).answer
  · split
    · exact (State.FormKept.raise s _ _ _).answer
    · exact State.FormKept.answer ⟨fun h => Memory.wf_setFreq h _ _ _, rfl⟩

theorem execBuild_answersKept (s : State) : s.AnswersKept (execBuild s) := by
  obtain ⟨f, syms, hf, hgood, -⟩ := growForest_spec s.params s.freqAt
  refine whenLive_answersKept ?_
  rw [hf]
  exact State.FormKept.answer ⟨fun h => Memory.wf_withForest h hgood.wf, by rw [State.withForest_eq]⟩

theorem fillBook_formKept (s : State) (leaves : List (Nat × Bits)) :
    s.FormKept { s.bookClear with book := fillBook leaves } :=
  ⟨fun h => Memory.wf_fillBook h leaves, rfl⟩

theorem execGenc_answersKept (s : State) : s.AnswersKept (execGenc s) := by
  refine whenLive_answersKept ?_
  split
  · split
    · exact (fillBook_formKept s _).answer
    · split
      · exact (fillBook_formKept s _).answer
      · exact (State.FormKept.raise s _ _ _).answer
      · exact fun t h => nomatch h
  · exact (State.FormKept.bookClear s).answer

theorem execAdopt_answersKept (node : BitVec 9) (s : State) : s.AnswersKept (execAdopt node s) := by
  refine whenLive_answersKept ?_
  split
  · exact State.FormKept.answer ((State.FormKept.bookClear s).trans (.of_stores_eq rfl rfl rfl rfl))
  · exact (State.FormKept.raise s _ _ _).answer

/-! ## The commands that write the stream or the error registers only -/

theorem execPack_answersKept (sym : BitVec 8) (s : State) : s.AnswersKept (execPack sym s) := by
  refine whenLive_answersKept ?_
  split
  · split
    · exact (State.FormKept.raise s _ _ _).answer
    · exact (State.FormKept.append s _).answer
  · exact (State.FormKept.raise s _ _ _).answer

theorem execPutbit_answersKept (bit : Bool) (s : State) : s.AnswersKept (execPutbit bit s) := by
  refine whenLive_answersKept ?_
  split
  · exact (State.FormKept.raise s _ _ _).answer
  · exact (State.FormKept.append s _).answer

theorem execErrack_answersKept (s : State) : s.AnswersKept (execErrack s) := by
  unfold execErrack
  split
  · exact (State.FormKept.refl s).answer
  · exact (State.FormKept.errClear s).answer

/-- Every command keeps the form, live or frozen. -/
theorem exec_answersKept (i : Instr) (s : State) : s.AnswersKept (exec i s) := by
  cases i with
  | nop => exact (State.FormKept.refl s).answer
  | clr => exact execClr_answersKept s
  | count sym => exact execCount_answersKept sym s
  | build => exact execBuild_answersKept s
  | genc => exact execGenc_answersKept s
  | pack sym => exact execPack_answersKept sym s
  | putbit bit => exact execPutbit_answersKept bit s
  | mclr => exact whenLive_answersKept (State.FormKept.answer (.of_stores_eq rfl rfl rfl rfl))
  | adopt node => exact execAdopt_answersKept node s
  | dstart => exact whenLive_answersKept (State.FormKept.decodeRewind s).answer
  | unpack => exact execUnpack_answersKept s
  | dend => exact execDend_answersKept s
  | drun => exact execDrun_answersKept s
  | errack => exact execErrack_answersKept s

/-! ## The accesses of the host -/

theorem executeWord_answersKept (w : Word) (s : State) : s.AnswersKept (executeWord w s) := by
  unfold executeWord
  split
  · exact exec_answersKept _ s
  · exact whenLive_answersKept (State.FormKept.raise s _ _ _).answer

theorem nodeWindowWrite_formKept (f : NodeEntry → NodeEntry) (s : State) : s.FormKept (nodeWindowWrite f s) := by
  refine ⟨fun h => Memory.wf_nodeWindowWrite h f, ?_⟩
  unfold nodeWindowWrite
  split <;> rfl

theorem writeReg_formKept (r : Reg) (v : Word) (s : State) : s.FormKept (writeReg r v s) := by
  cases r with
  | idx => exact .of_stores_eq rfl rfl rfl rfl
  | nodeK => exact nodeWindowWrite_formKept (·.setK s.params v) s
  | nodeF => exact nodeWindowWrite_formKept (·.setF s.params v) s
  | nodeC => exact nodeWindowWrite_formKept (·.setC s.params v) s
  | _ => exact .refl s

theorem hostWrite_answersKept (offset : Nat) (v : Word) (s : State) : s.AnswersKept (hostWrite offset v s) := by
  unfold hostWrite
  split
  · exact executeWord_answersKept v s
  · exact (writeReg_formKept _ v s).answer

theorem performAccess_answersKept (a : Access) (s : State) : s.AnswersKept (performAccess a s) := by
  cases a with
  | read offset width =>
    simp only [performAccess]
    split
    · exact State.FormKept.answer (.of_stores_eq rfl rfl rfl rfl)
    · exact fun t h => nomatch h
  | write offset width v =>
    simp only [performAccess]
    split
    · exact hostWrite_answersKept offset v s
    · exact fun t h => nomatch h
  | reset => exact (State.FormKept.resetInstance s).answer

/-- A step idles, or takes the next access and performs it. -/
theorem step_answersKept (s : State) : s.AnswersKept (step s) := by
  unfold step nextAccess
  split
  · exact (State.FormKept.refl s).answer
  · next a rest _ =>
    exact fun t h => (State.FormKept.takeAccess s rest).trans (performAccess_answersKept a _ t h)

/-- Settles O58: every command and every other access writes the stores by the operations that keep their form. -/
theorem everyStepKeepsTheStoresCanonical : Obligations.EveryStepKeepsTheStoresCanonical := by
  intro s t hwf hstep
  obtain ⟨hform, hparams⟩ := step_answersKept s t hstep
  exact ⟨hform hwf, hparams⟩

end Sys2Proof.Machine
end

section
/-!
PROOFS. The states that each command can leave, said once (spec/30_encoding.md R106).
-/
namespace Sys2Proof.Machine

/-! ## What each command can leave -/

/-- `t` is `s`, or `s` with a non-fatal error recorded. -/
def State.KeptOrRaised (s t : State) : Prop :=
  t = s ∨ ∃ e sub w, e ≠ .none ∧ e ≠ .internalFault ∧ t = s.raise e sub w

theorem State.KeptOrRaised.refl (s : State) : s.KeptOrRaised s := .inl rfl

/-- A meaning that answers a raise leaves a raise. -/
theorem State.KeptOrRaised.of_raise {s t : State} {e : ErrCode} {sub : BitVec 4} {w : Word} (he : e ≠ .none)
    (hf : e ≠ .internalFault) (h : (.next (s.raise e sub w) : Result) = .next t) : s.KeptOrRaised t :=
  .inr ⟨e, sub, w, he, hf, (Host.Outcome.next.inj h).symm⟩

/-- `CLR` leaves the reset state but for `IDX`, the parameters and the host's side (R201). -/
theorem execClr_cases {s t : State} (h : execClr s = .next t) :
    t = s ∨ t = { State.resetWith s.params with idx := s.idx, pending := s.pending, reply := s.reply } := by
  unfold execClr at h
  split at h
  · exact .inl (Host.Outcome.next.inj h).symm
  · exact .inr (Host.Outcome.next.inj h).symm

theorem execErrack_cases {s t : State} (h : execErrack s = .next t) : t = s ∨ t = s.errClear := by
  unfold execErrack at h
  split at h
  · exact .inl (Host.Outcome.next.inj h).symm
  · exact .inr (Host.Outcome.next.inj h).symm

theorem execCount_cases {sym : BitVec 8} {s t : State} (h : execCount sym s = .next t) :
    s.KeptOrRaised t ∨ (s.total ≠ s.params.cntMax ∧
      t = { s with freq := Store.set 0 s.freq sym.toNat (s.freqAt sym.toNat + 1), total := s.total + 1 }) := by
  rcases whenLive_next h with ⟨-, rfl⟩ | ⟨-, h⟩
  · exact .inl (.refl t)
  · split at h
    · exact .inl (.of_raise (by simp) (by simp) h)
    · split at h
      · exact .inl (.of_raise (by simp) (by simp) h)
      · next htotal => exact .inr ⟨htotal, (Host.Outcome.next.inj h).symm⟩

/-- `BUILD` ends with a good forest of at most one tree, so it never raises (R135 item 5). -/
theorem execBuild_cases {s t : State} (h : execBuild s = .next t) :
    t = s ∨ ∃ f n symbols syms, f.Good s.params n s.freqSum symbols syms ∧ f.queue.length = min 1 n ∧
      symbols.Nodup ∧ (∀ sym ∈ symbols, sym < s.params.nsym) ∧ t = s.withForest f := by
  rcases whenLive_next h with ⟨-, rfl⟩ | ⟨-, h⟩
  · exact .inl rfl
  · obtain ⟨f, syms, hf, hgood, hlen⟩ := growForest_spec s.params s.freqAt
    rw [hf] at h
    have hlt : ∀ sym ∈ plantedOf s.freqAt (List.range s.params.nsym), sym < s.params.nsym := fun sym hsym =>
      List.mem_range.mp (List.mem_filter.mp hsym).1
    exact .inr ⟨f, _, _, syms, hgood, hlen, List.nodup_range.filter _, hlt, (Host.Outcome.next.inj h).symm⟩

/-- The book `GENC` fills holds codes of the present tree; it raises only where the walk meets an `EMPTY` entry. -/
theorem execGenc_cases {s t : State} (h : execGenc s = .next t) :
    t = s ∨ (s.treeValid = false ∧ t = { s with book := [] }) ∨
    (s.treeValid = true ∧ ∃ leaves, t = { s with book := fillBook leaves } ∧ ∀ leaf ∈ leaves, s.Codes leaf.1 leaf.2) ∨
    (s.treeValid = true ∧ walk s (s.params.nodeMax + 1) s.root [] = .error .emptyEntry ∧
      t = s.raise .internalFault 3 (encode .genc)) := by
  rcases whenLive_next h with ⟨-, rfl⟩ | ⟨-, h⟩
  · exact .inl rfl
  · split at h
    · next hv =>
      split at h
      · next hleaf =>
        refine .inr (.inr (.inl ⟨hv, _, (Host.Outcome.next.inj h).symm, fun leaf hmem => ?_⟩))
        obtain rfl := List.mem_singleton.mp hmem
        rw [State.Codes, if_pos hleaf]
        exact ⟨rfl, rfl⟩
      · next hleaf =>
        split at h
        · next leaves hwalk =>
          refine .inr (.inr (.inl ⟨hv, leaves, (Host.Outcome.next.inj h).symm, fun leaf hmem => ?_⟩))
          obtain ⟨q, l, hq, hfollow, hl⟩ := (walk_mem hwalk leaf.1 leaf.2).mp hmem
          rw [State.Codes, if_neg hleaf, hq, List.nil_append]
          exact ⟨l, hfollow, hl⟩
        · next hwalk => exact .inr (.inr (.inr ⟨hv, hwalk, (Host.Outcome.next.inj h).symm⟩))
        · exact nomatch h
    · next hv => exact .inr (.inl ⟨by simpa using hv, (Host.Outcome.next.inj h).symm⟩)

theorem execPack_cases {sym : BitVec 8} {s t : State} (h : execPack sym s = .next t) :
    s.KeptOrRaised t ∨ ∃ c, s.msgLen + c.length ≤ s.params.msgCap ∧ t = s.append c := by
  rcases whenLive_next h with ⟨-, rfl⟩ | ⟨-, h⟩
  · exact .inl (.refl t)
  · split at h
    · split at h
      · exact .inl (.of_raise (by simp) (by simp) h)
      · next hroom => exact .inr ⟨_, not_lt.mp hroom, (Host.Outcome.next.inj h).symm⟩
    · exact .inl (.of_raise (by simp) (by simp) h)

theorem execPutbit_cases {bit : Bool} {s t : State} (h : execPutbit bit s = .next t) :
    s.KeptOrRaised t ∨ (s.msgLen ≠ s.params.msgCap ∧ t = s.append [bit]) := by
  rcases whenLive_next h with ⟨-, rfl⟩ | ⟨-, h⟩
  · exact .inl (.refl t)
  · split at h
    · exact .inl (.of_raise (by simp) (by simp) h)
    · next hroom => exact .inr ⟨hroom, (Host.Outcome.next.inj h).symm⟩

theorem execMclr_cases {s t : State} (h : execMclr s = .next t) : t = s ∨ t = { s with msg := [] }.decodeRewind := by
  rcases whenLive_next h with ⟨-, rfl⟩ | ⟨-, h⟩
  · exact .inl rfl
  · exact .inr (Host.Outcome.next.inj h).symm

theorem execAdopt_cases {node : BitVec 9} {s t : State} (h : execAdopt node s = .next t) :
    s.KeptOrRaised t ∨ (s.wellFormedTree node.toNat = true ∧
      t = { s with root := node.toNat, treeValid := true }.bookClear.decodeRewind) := by
  rcases whenLive_next h with ⟨-, rfl⟩ | ⟨-, h⟩
  · exact .inl (.refl t)
  · split at h
    · next htree => exact .inr ⟨htree, (Host.Outcome.next.inj h).symm⟩
    · exact .inl (.of_raise (by simp) (by simp) h)

theorem execDstart_cases {s t : State} (h : execDstart s = .next t) : t = s ∨ t = s.decodeRewind := by
  rcases whenLive_next h with ⟨-, rfl⟩ | ⟨-, h⟩
  · exact .inl rfl
  · exact .inr (Host.Outcome.next.inj h).symm

theorem execUnpack_cases {s t : State} (h : execUnpack s = .next t) :
    s.KeptOrRaised t ∨ (s.msgRd < s.msgLen ∧
      (unpackStep (encode .unpack) s = .ok t ∨ unpackStep (encode .unpack) s = .error t)) := by
  rcases whenLive_next h with ⟨-, rfl⟩ | ⟨-, h⟩
  · exact .inl (.refl t)
  · split at h
    · exact .inl (.of_raise (by simp) (by simp) h)
    · split at h
      · next hbit =>
        split at h
        · next hu => exact .inr ⟨hbit, .inr (by rw [hu, Host.Outcome.next.inj h])⟩
        · next hu => exact .inr ⟨hbit, .inl (by rw [hu, Host.Outcome.next.inj h])⟩
      · exact .inl (.of_raise (by simp) (by simp) h)

theorem execDend_cases {s t : State} (h : execDend s = .next t) :
    s.KeptOrRaised t ∨ t = endCheck (encode .dend) s := by
  rcases whenLive_next h with ⟨-, rfl⟩ | ⟨-, h⟩
  · exact .inl (.refl t)
  · split at h
    · exact .inl (.of_raise (by simp) (by simp) h)
    · split at h
      · exact .inr (Host.Outcome.next.inj h).symm
      · exact .inl (.of_raise (by simp) (by simp) h)

/-- The end-of-input check ends the call or empties the output and raises `MalformedInput(1)`. -/
theorem endCheck_cases (w : Word) (s : State) :
    endCheck w s = { s with decDone := true } ∨ endCheck w s = s.decodeFail .malformedInput 1 w := by
  unfold endCheck
  split
  · exact .inl rfl
  · exact .inr rfl

end Sys2Proof.Machine
end

section
/-!
PROOFS. The parts of a state that an operation replaces, and what the invariant asks of the new part
(spec/10_state.md R53).
-/
namespace Sys2Proof.Machine

/-- What a store reads at an index is its default or is listed there. -/
theorem Store.get_eq_default_or_mem {α : Type} (d : α) (m : Store α) (i : Nat) :
    Store.get d m i = d ∨ (i, Store.get d m i) ∈ m := by
  induction m with
  | nil => exact .inl rfl
  | cons e m ih =>
    rw [Store.get_cons]
    split
    · next he => exact .inr (by simp [← he])
    · exact ih.imp_right (List.mem_cons_of_mem e)

/-- `NODE_MAX` itself has `NIDX_W` bits (R95). -/
theorem nodeMax_lt_two_pow_nidxW (p : Params) : p.nodeMax < 2 ^ p.nidxW := by
  have : 0 < 2 ^ p.symW := Nat.two_pow_pos _
  unfold Params.nodeMax Params.nsym Params.nidxW
  omega

/-! R53 items 3, 5 and 6 carry over to a state with the same nodes and the same root. -/

theorem State.wellFormedTree_of_eq {s t : State} {r : Nat} (h : s.wellFormedTree r = true) (hp : t.params = s.params)
    (hn : t.node = s.node) : t.wellFormedTree r = true :=
  (State.wellFormedTree_congr hp hn r).trans h

theorem State.cursor_of_eq {s t : State} {root cur : Nat}
    (h : cur = root ∨ ((s.nodeAt cur).kind = .internal ∧ ∃ p, s.follow root p = some cur)) (hn : t.nodeAt = s.nodeAt) :
    cur = root ∨ ((t.nodeAt cur).kind = .internal ∧ ∃ p, t.follow root p = some cur) := by
  simpa only [hn, State.follow_congr hn] using h

theorem State.code_of_eq {s t : State} {valid : Prop} {sym : Nat} {code : Bits} (h : valid ∧ s.Codes sym code)
    (hn : t.nodeAt = s.nodeAt) (hr : t.root = s.root) : valid ∧ t.Codes sym code :=
  h.imp_right (State.Codes_congr hn hr sym code).mpr

theorem State.Inv.withError {s : State} (h : s.Inv) {e : ErrCode} {sub : BitVec 4} {w : Word}
    (he : e = .none → sub = 0 ∧ w = 0) : { s with err := e, errSub := sub, errInfo := w }.Inv :=
  { h with
    fits := { h.fits with }
    tree := fun hv => State.wellFormedTree_of_eq (h.tree hv) rfl rfl
    cursor := fun hv => State.cursor_of_eq (h.cursor hv) rfl
    codes := fun sym hsym => State.code_of_eq (h.codes sym hsym) rfl rfl
    errors := he }

/-- The stream, the cursor and the output that the invariant allows beside the tree and the parameters of `s`. -/
structure State.DecoderFits (s : State) (msg : Bits) (msgRd cur : Nat) (out : List Nat) : Prop where
  curFits : cur < 2 ^ s.params.nidxW
  outFits : ∀ sym ∈ out, sym < s.params.nsym
  taken : msgRd ≤ msg.length
  stream : msg.length ≤ s.params.msgCap
  output : out.length ≤ s.params.outCap
  noTree : s.treeValid = false → cur = 0 ∧ msgRd = 0 ∧ out = []
  cursor : s.treeValid = true → cur = s.root ∨ ((s.nodeAt cur).kind = .internal ∧ ∃ p, s.follow s.root p = some cur)

theorem State.Inv.decoderFits {s : State} (h : s.Inv) : s.DecoderFits s.msg s.msgRd s.cur s.out where
  curFits := h.fits.cur
  outFits := h.fits.out
  taken := h.taken
  stream := h.stream
  output := h.output
  noTree hv := by
    obtain ⟨-, hcur, hrd, hout, -⟩ := h.noTree hv
    exact ⟨hcur, hrd, List.length_eq_zero_iff.mp hout⟩
  cursor := h.cursor

theorem State.Inv.withDecoder {s : State} (h : s.Inv) {msg : Bits} {msgRd cur : Nat} {out : List Nat}
    (hd : s.DecoderFits msg msgRd cur out) (decDone : Bool) :
    { s with msg := msg, msgRd := msgRd, cur := cur, out := out, decDone := decDone }.Inv :=
  { h with
    fits := { h.fits with cur := hd.curFits, out := hd.outFits }
    taken := hd.taken
    stream := hd.stream
    output := hd.output
    tree := fun hv => State.wellFormedTree_of_eq (h.tree hv) rfl rfl
    noTree := fun hv => by
      obtain ⟨hroot, -, -, -, hbook⟩ := h.noTree hv
      obtain ⟨hcur, hrd, hout⟩ := hd.noTree hv
      exact ⟨hroot, hcur, hrd, List.length_eq_zero_iff.mpr hout, hbook⟩
    cursor := fun hv => State.cursor_of_eq (hd.cursor hv) rfl
    codes := fun sym hsym => State.code_of_eq (h.codes sym hsym) rfl rfl }

/-- With the stream replaced the decoder may always start over (R38). -/
theorem State.Inv.rewindFits {s : State} (h : s.Inv) {msg : Bits} (hmsg : msg.length ≤ s.params.msgCap) :
    s.DecoderFits msg 0 s.root [] where
  curFits := h.fits.root
  outFits := nofun
  taken := Nat.zero_le _
  stream := hmsg
  output := Nat.zero_le _
  noTree hv := ⟨(h.noTree hv).1, rfl, rfl⟩
  cursor _ := .inl rfl

/-- A symbol that has a code in the tree is below `NSYM`. -/
theorem State.Inv.codes_sym_lt {s : State} (h : s.Inv) {sym : Nat} {code : Bits} (hc : s.Codes sym code) :
    sym < s.params.nsym := by
  have hlt : ∀ i, (s.nodeAt i).sym < s.params.nsym := fun i =>
    have ⟨_, hsym, _⟩ := h.nodeAt_fits i
    hsym
  unfold State.Codes at hc
  split at hc
  · exact hc.1 ▸ hlt s.root
  · obtain ⟨l, -, -, rfl⟩ := hc
    exact hlt l

/-- A book of codes of the present tree may replace the book, the empty one always. -/
theorem State.Inv.withBook {s : State} (h : s.Inv) {book : Store BookEntry} (hwf : Store.wf BookEntry.blank book = true)
    (hbook : ∀ e ∈ book, e.2.valid = true ∧ s.treeValid = true ∧ s.Codes e.1 e.2.code) : { s with book := book }.Inv :=
  have hcodes : ∀ sym, (Store.get BookEntry.blank book sym).valid = true →
      s.treeValid = true ∧ s.Codes sym (Store.get BookEntry.blank book sym).code := fun sym hsym => by
    rcases Store.get_eq_default_or_mem BookEntry.blank book sym with hblank | hmem
    · rw [hblank] at hsym
      exact absurd hsym (by decide)
    · exact (hbook _ hmem).2
  have hstores := Memory.wf_iff.mp h.stores
  { h with
    stores := Memory.wf_iff.mpr ⟨hstores.1, hstores.2.1, hwf⟩
    fits := { h.fits with book := fun e he => ⟨h.codes_sym_lt (hbook e he).2.2, (hbook e he).1⟩ }
    tree := fun hv => State.wellFormedTree_of_eq (h.tree hv) rfl rfl
    noTree := fun hv => by
      obtain ⟨hroot, hcur, hrd, hout, -⟩ := h.noTree hv
      refine ⟨hroot, hcur, hrd, hout, fun sym => Bool.eq_false_iff.mpr fun hsym => ?_⟩
      exact absurd ((hcodes sym hsym).1.symm.trans hv) (by decide)
    cursor := fun hv => State.cursor_of_eq (h.cursor hv) rfl
    codes := fun sym hsym => State.code_of_eq (hcodes sym hsym) rfl rfl }

/-- What `BUILD`, `ADOPT` and a node-window write leave: other nodes and another root or none, the book empty and the decoder
rewound. -/
def State.withTree (s : State) (node : Store NodeEntry) (seq : Nat) (flock : Bool) (root : Nat) (treeValid : Bool) : State :=
  { s with
    node := node, seq := seq, flock := flock, root := root, treeValid := treeValid, book := [], msgRd := 0, out := [],
    decDone := false, cur := root }

theorem State.Inv.withTree {s : State} (h : s.Inv) {node : Store NodeEntry} {seq root : Nat} {flock treeValid : Bool}
    (hwf : Store.wf NodeEntry.blank node = true) (hnode : ∀ e ∈ node, e.1 < s.params.nodeMax ∧ e.2.Fits s.params)
    (hseq : seq ≤ s.params.nodeMax) (hroot : root < 2 ^ s.params.nidxW)
    (htree : treeValid = true → { s with node := node }.wellFormedTree root = true)
    (hnone : treeValid = false → root = 0) : (s.withTree node seq flock root treeValid).Inv :=
  have hstores := Memory.wf_iff.mp h.stores
  { h with
    stores := Memory.wf_iff.mpr ⟨hstores.1, hwf, Store.wf_nil⟩
    fits := { h.fits with node := hnode, seq := hseq, root := hroot, cur := hroot, book := nofun, out := nofun }
    taken := Nat.zero_le _
    output := Nat.zero_le _
    tree := fun hv => State.wellFormedTree_of_eq (htree hv) rfl rfl
    noTree := fun hv => ⟨hnone hv, hnone hv, rfl, rfl, fun _ => rfl⟩
    cursor := fun _ => .inl rfl
    codes := nofun }

/-! ## Counting -/

/-- In a state of the invariant no count passes the total (R53 item 1). -/
theorem State.Inv.freqAt_le_total {s : State} (h : s.Inv) {k : Nat} (hk : k < s.params.nsym) : s.freqAt k ≤ s.total := by
  have := sum_map_erase s.freqAt (List.mem_range.mpr hk)
  rw [h.counts, State.freqSum]
  omega

/-- One more occurrence of one symbol is one more in the sum. -/
theorem sum_map_range_count {f g : Nat → Nat} {k n : Nat} (hk : k < n) (hat : g k = f k + 1)
    (hother : ∀ i, i ≠ k → g i = f i) : ((List.range n).map g).sum = ((List.range n).map f).sum + 1 := by
  have hf := sum_map_erase f (List.mem_range.mpr hk)
  have hg := sum_map_erase g (List.mem_range.mpr hk)
  have hrest : ((List.range n).erase k).map g = ((List.range n).erase k).map f :=
    List.map_congr_left fun i hi => hother i (List.nodup_range.mem_erase_iff.mp hi).1
  rw [hrest] at hg
  omega

theorem State.Inv.counted {s : State} (h : s.Inv) {k : Nat} (hk : k < s.params.nsym) (htotal : s.total ≠ s.params.cntMax) :
    { s with freq := Store.set 0 s.freq k (s.freqAt k + 1), total := s.total + 1 }.Inv :=
  have hle := h.freqAt_le_total hk
  have hlt : s.total < s.params.cntMax := lt_of_le_of_ne h.fits.total htotal
  { h with
    stores := Memory.wf_setFreq h.stores _ _ _
    fits := { h.fits with
      freq := fun e (he : e ∈ Store.set 0 s.freq k (s.freqAt k + 1)) => by
        rcases Store.mem_of_mem_set he with rfl | he
        · exact ⟨hk, by simp only; omega⟩
        · exact h.fits.freq e he
      total := hlt }
    counts := by
      have hsum := sum_map_range_count (f := s.freqAt)
        (g := Store.get 0 (Store.set 0 s.freq k (s.freqAt k + 1))) hk (by simp)
        fun i hi => by rw [Store.get_set, if_neg hi.symm]; rfl
      exact (congrArg (· + 1) h.counts).trans hsum.symm
    tree := fun hv => State.wellFormedTree_of_eq (h.tree hv) rfl rfl
    cursor := fun hv => State.cursor_of_eq (h.cursor hv) rfl
    codes := fun sym hsym => State.code_of_eq (h.codes sym hsym) rfl rfl }

/-! ## Building -/

/-- A good forest of at most one tree fills at most the node store. -/
theorem Forest.Good.seq_le_nodeMax {p : Params} {n total : Nat} {symbols : List Nat} {f : Forest} {syms : Nat → List Nat}
    (h : f.Good p n total symbols syms) (hlen : f.queue.length = min 1 n) : f.seq ≤ p.nodeMax := by
  have := h.size
  have := h.bound
  unfold Params.nodeMax
  omega

/-- The nodes of a good forest have their indices and fields in range where the total has. -/
theorem Forest.Good.node_fits {p : Params} {n total : Nat} {symbols : List Nat} {f : Forest} {syms : Nat → List Nat}
    (h : f.Good p n total symbols syms) (hseq : f.seq ≤ p.nodeMax) (htotal : total ≤ p.cntMax)
    (hsymbols : ∀ sym ∈ symbols, sym < p.nsym) : ∀ e ∈ f.node, e.1 < p.nodeMax ∧ e.2.Fits p := by
  intro e he
  obtain ⟨hfreq, hsym, hleft, hright⟩ := h.fits e he
  have hmax := nodeMax_lt_two_pow_nidxW p
  refine ⟨(h.fresh e he).trans_le hseq, hfreq.trans htotal, ?_, by omega, by omega⟩
  rcases hsym with hsym | hsym
  · exact hsym ▸ Nat.two_pow_pos _
  · exact hsymbols _ hsym

/-- The one tree of a good forest is well formed. -/
theorem Forest.Good.wellFormedTree {s : State} {n total : Nat} {symbols : List Nat} {f : Forest} {syms : Nat → List Nat}
    (h : f.Good s.params n total symbols syms) (hn : symbols.Nodup) (hseq : f.seq ≤ s.params.nodeMax) {r : Nat}
    (hr : f.queue = [r]) : { s with node := f.node }.wellFormedTree r = true := by
  have hmem : r ∈ f.queue := by simp [hr]
  have hperm : (syms r).Perm symbols := by simpa [hr] using h.leaves
  exact State.wellFormedTree_iff.mpr ⟨(h.below r hmem).trans_le hseq, syms r, h.trees r hmem, hperm.nodup_iff.mpr hn⟩

end Sys2Proof.Machine
end

section
/-!
PROOFS. Every step keeps the invariant and raises no fatal error: command by command, then access by access
(spec/10_state.md R53 with its item 8, spec/60_exceptions.md R225).
-/
namespace Sys2Proof.Machine

/-- A step from `s` to `t` ends in a state of the invariant and does not raise the fatal error. -/
structure State.Sound (s t : State) : Prop where
  inv : t.Inv
  fatal : t.err = .internalFault → s.err = .internalFault

namespace State.Sound

theorem refl {s : State} (h : s.Inv) : s.Sound s := ⟨h, id⟩

/-- A change that leaves the error alone. -/
theorem of_err_eq {s t : State} (h : t.Inv) (he : t.err = s.err) : s.Sound t := ⟨h, fun hf => he ▸ hf⟩

theorem trans {s t u : State} (h : s.Sound t) (h' : t.Sound u) : s.Sound u := ⟨h'.inv, h.fatal ∘ h'.fatal⟩

theorem raise {s : State} (h : s.Inv) {e : ErrCode} (he : e ≠ .none) (hf : e ≠ .internalFault) (sub : BitVec 4) (w : Word) :
    s.Sound (s.raise e sub w) := ⟨h.withError fun hn => absurd hn he, fun hf' => absurd hf' hf⟩

theorem errClear {s : State} (h : s.Inv) : s.Sound s.errClear := ⟨h.withError fun _ => ⟨rfl, rfl⟩, nofun⟩

theorem keptOrRaised {s t : State} (h : s.Inv) (ht : s.KeptOrRaised t) : s.Sound t := by
  rcases ht with rfl | ⟨e, sub, w, he, hf, rfl⟩
  · exact .refl h
  · exact .raise h he hf sub w

theorem decodeRewind {s : State} (h : s.Inv) : s.Sound s.decodeRewind :=
  .of_err_eq (h.withDecoder (h.rewindFits h.stream) false) rfl

/-- Dropping the decoded symbols and recording a non-fatal error (R181). -/
theorem decodeFail {s : State} (h : s.Inv) {e : ErrCode} (he : e ≠ .none) (hf : e ≠ .internalFault) (sub : BitVec 4)
    (w : Word) : s.Sound (s.decodeFail e sub w) := by
  have hd : s.DecoderFits s.msg s.msgRd s.cur [] :=
    { h.decoderFits with
      outFits := nofun
      output := Nat.zero_le _
      noTree := fun hv =>
        have ⟨hcur, hrd, _⟩ := h.decoderFits.noTree hv
        ⟨hcur, hrd, rfl⟩ }
  exact ⟨(raise (h.withDecoder hd s.decDone) he hf sub w).inv, fun hf' => absurd hf' hf⟩

theorem append {s : State} (h : s.Inv) {c : Bits} (hroom : s.msgLen + c.length ≤ s.params.msgCap) :
    s.Sound (s.append c) := by
  have hd : s.DecoderFits (s.msg ++ c) s.msgRd s.cur s.out :=
    { h.decoderFits with
      taken := h.taken.trans (by simp [State.msgLen])
      stream := by rw [List.length_append]; exact hroom }
  exact .of_err_eq (h.withDecoder hd s.decDone) rfl

end State.Sound

theorem State.resetWith_inv {p : Params} (hp : p.Legal) : (State.resetWith p).Inv where
  legal := hp
  stores := rfl
  fits :=
    { freq := nofun
      total := Nat.zero_le _
      node := nofun
      seq := Nat.zero_le _
      root := Nat.two_pow_pos _
      cur := Nat.two_pow_pos _
      book := nofun
      out := nofun }
  counts := (List.sum_eq_zero fun _ hx => by
    obtain ⟨_, -, rfl⟩ := List.mem_map.mp hx
    rfl).symm
  taken := le_rfl
  stream := Nat.zero_le _
  output := Nat.zero_le _
  tree := nofun
  noTree _ := ⟨rfl, rfl, rfl, rfl, fun _ => rfl⟩
  cursor := nofun
  codes := nofun
  errors _ := ⟨rfl, rfl⟩

/-- Settles O23: nothing is counted, stored or decoded yet, and there is no tree. -/
theorem resetStateMeetsTheInvariant : Obligations.ResetStateMeetsTheInvariant := fun _ hp => State.resetWith_inv hp

/-! ## Walking the tree -/

/-- Every node on a path from the root of the present tree heads a tree of its own. -/
theorem State.Inv.subtree_of_follow {s : State} (h : s.Inv) (hv : s.treeValid = true) {p : Bits} {i : Nat}
    (hp : s.follow s.root p = some i) : ∃ syms, Subtree s.nodeAt i syms := by
  obtain ⟨-, syms, htree, -⟩ := State.wellFormedTree_iff.mp (h.tree hv)
  obtain ⟨sub, hsub, -⟩ := htree.follow hp
  exact ⟨sub, hsub⟩

/-- From a cursor at an internal node the path goes on to either child. -/
theorem State.Inv.child_path {s : State} (h : s.Inv) (hv : s.treeValid = true) (hk : (s.nodeAt s.cur).kind = .internal)
    (b : Bool) : ∃ p, s.follow s.root p = some (s.child s.cur b) := by
  obtain ⟨p, hp⟩ := h.cursor_path hv
  exact ⟨p ++ [b], by rw [State.follow_append hp, State.follow_cons, if_pos hk, State.follow_nil]⟩

theorem State.Inv.child_lt {s : State} (h : s.Inv) (i : Nat) (b : Bool) : s.child i b < 2 ^ s.params.nidxW := by
  obtain ⟨-, -, hleft, hright⟩ := h.nodeAt_fits i
  unfold State.child
  split
  · exact hright
  · exact hleft

/-- A bit taken and a symbol put out, the cursor left where it is or at the root. -/
theorem State.Inv.emitFits {s : State} (h : s.Inv) (hv : s.treeValid = true) (hbit : s.msgRd < s.msgLen)
    (hout : s.out.length ≠ s.params.outCap) (i : Nat) {cur : Nat} (hcur : cur = s.cur ∨ cur = s.root) :
    s.DecoderFits s.msg (s.msgRd + 1) cur (s.out ++ [(s.nodeAt i).sym]) where
  curFits := by
    rcases hcur with rfl | rfl
    · exact h.fits.cur
    · exact h.fits.root
  outFits sym hsym := by
    rcases List.mem_append.mp hsym with hsym | hsym
    · exact h.fits.out sym hsym
    · obtain ⟨-, hlt, -⟩ := h.nodeAt_fits i
      exact List.mem_singleton.mp hsym ▸ hlt
  taken := hbit
  stream := h.stream
  output := by
    rw [List.length_append]
    exact lt_of_le_of_ne h.output hout
  noTree hv' := absurd (hv.symm.trans hv') (by decide)
  cursor _ := by
    rcases hcur with rfl | rfl
    · exact h.cursor hv
    · exact .inl rfl

/-- A bit taken and the cursor moved to an internal child. -/
theorem State.Inv.moveFits {s : State} (h : s.Inv) (hv : s.treeValid = true) (hbit : s.msgRd < s.msgLen) (b : Bool)
    (hk : (s.nodeAt s.cur).kind = .internal) (hchild : (s.nodeAt (s.child s.cur b)).kind = .internal) :
    s.DecoderFits s.msg (s.msgRd + 1) (s.child s.cur b) s.out :=
  { h.decoderFits with
    curFits := h.child_lt s.cur b
    taken := hbit
    noTree := fun hv' => absurd (hv.symm.trans hv') (by decide)
    cursor := fun _ => .inr ⟨hchild, h.child_path hv hk b⟩ }

theorem unpackStep_ok_sound {w : Word} {s t : State} (h : s.Inv) (hbit : s.msgRd < s.msgLen)
    (ht : unpackStep w s = .ok t) : s.Sound t := by
  rcases unpackStep_cases w s with ⟨sym, h', hv, hout, -, -, -, rfl⟩ | ⟨h', hv, hout, -⟩ | ⟨h', hv, -, hk, hchild⟩ |
    ⟨h', -⟩ | ⟨h', -⟩ | ⟨h', -⟩ | ⟨h', -⟩ <;> rw [h'] at ht
  · obtain rfl := Except.ok.inj ht
    exact .of_err_eq (h.withDecoder (h.emitFits hv hbit hout _ (.inr rfl)) s.decDone) rfl
  · obtain rfl := Except.ok.inj ht
    exact .of_err_eq (h.withDecoder (h.emitFits hv hbit hout _ (.inl rfl)) s.decDone) rfl
  · obtain rfl := Except.ok.inj ht
    exact .of_err_eq (h.withDecoder (h.moveFits hv hbit _ hk hchild) s.decDone) rfl
  all_goals exact nomatch ht

/-- A failing step raises no fatal error: the child it would need to be `EMPTY` is on a path of the present tree. -/
theorem unpackStep_error_sound {w : Word} {s t : State} (h : s.Inv) (ht : unpackStep w s = .error t) : s.Sound t := by
  rcases unpackStep_cases w s with ⟨sym, h', -⟩ | ⟨h', -⟩ | ⟨h', -⟩ | ⟨h', -⟩ | ⟨h', -⟩ | ⟨h', -⟩ |
    ⟨h', hv, -, hk, hchild⟩ <;> rw [h'] at ht
  · exact nomatch ht
  · exact nomatch ht
  · exact nomatch ht
  · exact Except.error.inj ht ▸ .decodeFail h (by simp) (by simp) _ _
  · exact Except.error.inj ht ▸ .decodeFail h (by simp) (by simp) _ _
  · exact Except.error.inj ht ▸ .decodeFail h (by simp) (by simp) _ _
  · obtain ⟨p, hp⟩ := h.child_path hv hk (s.msgBit s.msgRd)
    obtain ⟨syms, hsub⟩ := h.subtree_of_follow hv hp
    exact absurd hchild hsub.kind_ne_empty

theorem unpackLoop_ok_sound {w : Word} {n : Nat} {s t : State} (h : s.Inv) (hn : s.msgRd + n ≤ s.msgLen)
    (ht : unpackLoop w n s = .ok t) : s.Sound t := by
  induction n generalizing s with
  | zero => exact Except.ok.inj ht ▸ .refl h
  | succ n ih =>
    simp only [unpackLoop] at ht
    split at ht
    · exact nomatch ht
    · next u hu =>
      have hstep := unpackStep_ok_sound h (by omega) hu
      have hbits : u.msgRd + n ≤ u.msgLen := by
        rw [(unpackStep_ok hu).1]
        exact (by omega : s.msgRd + 1 + n ≤ s.msgLen)
      exact hstep.trans (ih hstep.inv hbits ht)

theorem endCheck_sound {s : State} (h : s.Inv) (w : Word) : s.Sound (endCheck w s) := by
  rcases endCheck_cases w s with he | he <;> rw [he]
  · exact .of_err_eq (h.withDecoder h.decoderFits true) rfl
  · exact .decodeFail h (by simp) (by simp) 1 w

/-! ## The commands -/

theorem execClr_sound {s t : State} (h : s.Inv) (ht : execClr s = .next t) : s.Sound t := by
  rcases execClr_cases ht with rfl | rfl
  · exact .refl h
  · exact ⟨(State.resetWith_inv h.legal).host s.idx s.pending s.reply, nofun⟩

theorem execCount_sound {sym : BitVec 8} {s t : State} (h : s.Inv) (hsym : sym.toNat < s.params.nsym)
    (ht : execCount sym s = .next t) : s.Sound t := by
  rcases execCount_cases ht with ht | ⟨htotal, rfl⟩
  · exact .keptOrRaised h ht
  · exact .of_err_eq (h.counted hsym htotal) rfl

theorem execBuild_sound {s t : State} (h : s.Inv) (ht : execBuild s = .next t) : s.Sound t := by
  rcases execBuild_cases ht with rfl | ⟨f, n, symbols, syms, hgood, hlen, hnodup, hsymbols, rfl⟩
  · exact .refl h
  · have hseq := hgood.seq_le_nodeMax hlen
    have hnode := hgood.node_fits hseq (h.counts ▸ h.fits.total) hsymbols
    rcases hq : f.queue with _ | ⟨r, rest⟩
    · have heq : s.withForest f = s.withTree f.node f.seq true 0 false := by simp only [State.withForest, hq]; rfl
      rw [heq]
      exact .of_err_eq (h.withTree hgood.wf hnode hseq (Nat.two_pow_pos _) nofun fun _ => rfl) rfl
    · obtain rfl : rest = [] := List.length_eq_zero_iff.mp (by rw [hq, List.length_cons] at hlen; omega)
      have hr : r < s.params.nodeMax := (hgood.below r (by simp [hq])).trans_le hseq
      have heq : s.withForest f = s.withTree f.node f.seq true r true := by simp only [State.withForest, hq]; rfl
      rw [heq]
      exact .of_err_eq (h.withTree hgood.wf hnode hseq (hr.trans (nodeMax_lt_two_pow_nidxW _))
        (fun _ => hgood.wellFormedTree hnodup hseq hq) nofun) rfl

/-- `GENC` raises no fatal error: the walk of a tree ends with its leaves. -/
theorem execGenc_sound {s t : State} (h : s.Inv) (ht : execGenc s = .next t) : s.Sound t := by
  rcases execGenc_cases ht with rfl | ⟨-, rfl⟩ | ⟨hv, leaves, rfl, hleaves⟩ | ⟨hv, hwalk, -⟩
  · exact .refl h
  · exact .of_err_eq (h.withBook Store.wf_nil nofun) rfl
  · refine .of_err_eq (h.withBook (fillBook_wf leaves) fun e he => ?_) rfl
    obtain ⟨hvalid, hmem⟩ := fillBook_entry he
    exact ⟨hvalid, hv, hleaves _ hmem⟩
  · obtain ⟨hroot, syms, htree, -⟩ := State.wellFormedTree_iff.mp (h.tree hv)
    obtain ⟨leaves, hok, -⟩ := walk_ok htree [] (Nat.lt_succ_of_lt hroot)
    exact nomatch hwalk.symm.trans hok

theorem execPack_sound {sym : BitVec 8} {s t : State} (h : s.Inv) (ht : execPack sym s = .next t) : s.Sound t := by
  rcases execPack_cases ht with ht | ⟨c, hroom, rfl⟩
  · exact .keptOrRaised h ht
  · exact .append h hroom

theorem execPutbit_sound {bit : Bool} {s t : State} (h : s.Inv) (ht : execPutbit bit s = .next t) : s.Sound t := by
  rcases execPutbit_cases ht with ht | ⟨hroom, rfl⟩
  · exact .keptOrRaised h ht
  · exact .append h (lt_of_le_of_ne h.stream hroom)

theorem execMclr_sound {s t : State} (h : s.Inv) (ht : execMclr s = .next t) : s.Sound t := by
  rcases execMclr_cases ht with rfl | rfl
  · exact .refl h
  · exact .of_err_eq (h.withDecoder (h.rewindFits (msg := []) (Nat.zero_le _)) false) rfl

theorem execAdopt_sound {node : BitVec 9} {s t : State} (h : s.Inv) (ht : execAdopt node s = .next t) : s.Sound t := by
  rcases execAdopt_cases ht with ht | ⟨htree, rfl⟩
  · exact .keptOrRaised h ht
  · have hroot := (State.wellFormedTree_iff.mp htree).1.trans (nodeMax_lt_two_pow_nidxW _)
    exact .of_err_eq (h.withTree (flock := s.flock) (Memory.wf_iff.mp h.stores).2.1 h.fits.node h.fits.seq hroot
      (fun _ => htree) nofun) rfl

theorem execDstart_sound {s t : State} (h : s.Inv) (ht : execDstart s = .next t) : s.Sound t := by
  rcases execDstart_cases ht with rfl | rfl
  · exact .refl h
  · exact .decodeRewind h

theorem execUnpack_sound {s t : State} (h : s.Inv) (ht : execUnpack s = .next t) : s.Sound t := by
  rcases execUnpack_cases ht with ht | ⟨hbit, hu | hu⟩
  · exact .keptOrRaised h ht
  · exact unpackStep_ok_sound h hbit hu
  · exact unpackStep_error_sound h hu

theorem execDend_sound {s t : State} (h : s.Inv) (ht : execDend s = .next t) : s.Sound t := by
  rcases execDend_cases ht with ht | rfl
  · exact .keptOrRaised h ht
  · exact endCheck_sound h _

theorem execDrun_sound {s t : State} (h : s.Inv) (ht : execDrun s = .next t) : s.Sound t := by
  have htaken := h.taken
  by_cases hl : s.Live
  · rcases execDrun_cases hl ht with ⟨-, rfl⟩ | ⟨-, u, k, hu, ⟨hk, hfail⟩ | ⟨rfl, rfl⟩⟩
    · exact .raise h (by simp) (by simp) _ _
    · have hloop := unpackLoop_ok_sound h (by omega) hu
      exact hloop.trans (unpackStep_error_sound hloop.inv hfail)
    · have hloop := unpackLoop_ok_sound h (by omega) hu
      exact hloop.trans (endCheck_sound hloop.inv _)
  · rw [execDrun, whenLive_of_frozen hl] at ht
    exact Host.Outcome.next.inj ht ▸ .refl h

theorem execErrack_sound {s t : State} (h : s.Inv) (ht : execErrack s = .next t) : s.Sound t := by
  rcases execErrack_cases ht with rfl | rfl
  · exact .refl h
  · exact .errClear h

/-- Every command whose operand fits the parameters is sound, live or frozen. -/
theorem exec_sound {i : Instr} {s t : State} (h : s.Inv) (hi : i.wf s.params = true) (ht : exec i s = .next t) :
    s.Sound t := by
  cases i with
  | nop => exact Host.Outcome.next.inj ht ▸ .refl h
  | clr => exact execClr_sound h ht
  | count sym => exact execCount_sound h (of_decide_eq_true hi) ht
  | build => exact execBuild_sound h ht
  | genc => exact execGenc_sound h ht
  | pack sym => exact execPack_sound h ht
  | putbit bit => exact execPutbit_sound h ht
  | mclr => exact execMclr_sound h ht
  | adopt node => exact execAdopt_sound h ht
  | dstart => exact execDstart_sound h ht
  | unpack => exact execUnpack_sound h ht
  | dend => exact execDend_sound h ht
  | drun => exact execDrun_sound h ht
  | errack => exact execErrack_sound h ht

/-! ## The accesses of the host -/

/-- A symbol that format S reads fits the parameters (R92). -/
theorem formatS_wf {p : Params} {arg : BitVec 24} {mk : BitVec 8 → Instr} {i : Instr}
    (hmk : ∀ sym, (mk sym).wf p = decide (sym.toNat < 2 ^ p.symW)) (h : formatS p arg mk = .ok i) : i.wf p = true := by
  obtain ⟨harg, rfl⟩ := formatS_ok.mp h
  rw [hmk, BitVec.toNat_setWidth]
  exact decide_eq_true ((Nat.mod_le _ _).trans_lt harg)

/-- A node index that format I reads fits the parameters (R94). -/
theorem formatI_wf {p : Params} {arg : BitVec 24} {mk : BitVec 9 → Instr} {i : Instr}
    (hmk : ∀ node, (mk node).wf p = decide (node.toNat < 2 ^ p.nidxW)) (h : formatI p arg mk = .ok i) : i.wf p = true := by
  obtain ⟨harg, rfl⟩ := formatI_ok.mp h
  rw [hmk, BitVec.toNat_setWidth]
  exact decide_eq_true ((Nat.mod_le _ _).trans_lt harg)

/-- The operand of a decoded command fits the parameters. -/
theorem decode_wf {p : Params} {w : Word} {i : Instr} (h : decode p w = .ok i) : i.wf p = true := by
  unfold decode at h
  split at h
  case h_3 => exact formatS_wf (fun _ => rfl) h
  case h_6 => exact formatS_wf (fun _ => rfl) h
  case h_7 => obtain ⟨-, rfl⟩ := formatB_ok.mp h; rfl
  case h_9 => exact formatI_wf (fun _ => rfl) h
  case h_15 => exact nomatch h
  all_goals obtain ⟨-, rfl⟩ := formatN_ok.mp h; rfl

theorem executeWord_sound {w : Word} {s t : State} (h : s.Inv) (ht : executeWord w s = .next t) : s.Sound t := by
  unfold executeWord at ht
  split at ht
  · next i hi => exact exec_sound h (decode_wf hi) ht
  · next e he =>
    rw [rejectWord_eq] at ht
    rw [← Host.Outcome.next.inj ht]
    split
    · exact .raise h (by simp) (by simp) _ w
    · exact .refl h

theorem NodeEntry.Fits.setK {p : Params} {e : NodeEntry} (h : e.Fits p) (v : Word) : (e.setK p v).Fits p :=
  have ⟨hfreq, _, hleft, hright⟩ := h
  ⟨hfreq, fieldOf_lt v 8 p.symW, hleft, hright⟩

theorem NodeEntry.Fits.setF {p : Params} {e : NodeEntry} (h : e.Fits p) (v : Word) : (e.setF p v).Fits p :=
  have ⟨_, hsym, hleft, hright⟩ := h
  ⟨Nat.le_sub_one_of_lt (fieldOf_lt v 0 p.cntW), hsym, hleft, hright⟩

theorem NodeEntry.Fits.setC {p : Params} {e : NodeEntry} (h : e.Fits p) (v : Word) : (e.setC p v).Fits p :=
  have ⟨hfreq, hsym, _, _⟩ := h
  ⟨hfreq, hsym, fieldOf_lt v 0 p.nidxW, fieldOf_lt v 16 p.nidxW⟩

/-- A node-window write of an entry that fits leaves no tree. -/
theorem nodeWindowWrite_sound {f : NodeEntry → NodeEntry} {s : State} (h : s.Inv)
    (hf : ∀ e : NodeEntry, e.Fits s.params → (f e).Fits s.params) : s.Sound (nodeWindowWrite f s) := by
  unfold nodeWindowWrite
  split
  · next hw =>
    refine .of_err_eq (h.withTree (flock := s.flock) (Store.wf_set (m := s.node) (Memory.wf_iff.mp h.stores).2.1 s.window _)
      (fun e he => ?_) h.fits.seq (Nat.two_pow_pos _) nofun fun _ => rfl) rfl
    rcases Store.mem_of_mem_set he with rfl | he
    · exact ⟨hw.2, hf _ (h.nodeAt_fits _)⟩
    · exact h.fits.node e he
  · exact .refl h

theorem writeReg_sound {s : State} (h : s.Inv) (r : Reg) (v : Word) : s.Sound (writeReg r v s) := by
  cases r with
  | idx => exact .of_err_eq (h.host v s.pending s.reply) rfl
  | nodeK => exact nodeWindowWrite_sound (f := (·.setK s.params v)) h fun _ he => he.setK v
  | nodeF => exact nodeWindowWrite_sound (f := (·.setF s.params v)) h fun _ he => he.setF v
  | nodeC => exact nodeWindowWrite_sound (f := (·.setC s.params v)) h fun _ he => he.setC v
  | _ => exact .refl h

theorem hostWrite_sound {offset : Nat} {v : Word} {s t : State} (h : s.Inv) (ht : hostWrite offset v s = .next t) :
    s.Sound t := by
  unfold hostWrite at ht
  split at ht
  · exact executeWord_sound h ht
  · exact Host.Outcome.next.inj ht ▸ writeReg_sound h _ v

theorem performAccess_sound {a : Access} {s t : State} (h : s.Inv) (ht : performAccess a s = .next t) : s.Sound t := by
  cases a with
  | read offset width =>
    simp only [performAccess] at ht
    split at ht
    · exact Host.Outcome.next.inj ht ▸ .of_err_eq (h.host s.idx s.pending _) rfl
    · exact nomatch ht
  | write offset width v =>
    simp only [performAccess] at ht
    split at ht
    · exact hostWrite_sound h ht
    · exact nomatch ht
  | reset => exact Host.Outcome.next.inj ht ▸ ⟨(State.resetWith_inv h.legal).host 0 s.pending none, nofun⟩

/-- A step from a state of the invariant is sound: it idles, or takes the next access and performs it. -/
theorem step_sound {s t : State} (h : s.Inv) (ht : step s = .next t) : s.Sound t := by
  unfold step nextAccess at ht
  split at ht
  · exact Host.Outcome.next.inj ht ▸ .refl h
  · next a rest _ =>
    have htake : s.Sound (s.takeAccess rest) := .of_err_eq (h.host s.idx rest none) rfl
    exact htake.trans (performAccess_sound htake.inv ht)

/-- Settles O59: every command and every other access leads from a state of the invariant to one. -/
theorem everyStepKeepsTheInvariant : Obligations.EveryStepKeepsTheInvariant := fun _ _ h ht => (step_sound h ht).inv

/-- Settles O56: `BUILD` always completes, and `UNPACK`, `DRUN` and `GENC` meet no `EMPTY` entry in a well-formed tree. -/
theorem internalFaultNeverArises : Obligations.InternalFaultNeverArises := fun _ _ h hne ht hf =>
  hne ((step_sound h ht).fatal hf)

end Sys2Proof.Machine
end

section
/-!
PROOFS. Which elements each command may write (spec/20_memory.md R61, spec/10_state.md R24 to R29 and R37).
-/
namespace Sys2Proof.Machine

/-! ## Frames that several commands share -/

/-- The error registers hold what they hold in `t`. -/
def State.errOf (s t : State) : State := { s with err := t.err, errSub := t.errSub, errInfo := t.errInfo }

/-- The decoder's elements and the error registers hold what they hold in `t`. -/
def State.decoderOf (s t : State) : State :=
  { s with msgRd := t.msgRd, cur := t.cur, out := t.out, decDone := t.decDone }.errOf t

theorem State.KeptOrRaised.frame {s t : State} (h : s.KeptOrRaised t) : t = s.errOf t := by
  rcases h with rfl | ⟨e, sub, w, -, -, rfl⟩ <;> rfl

theorem unpackStep_ok_frame {w : Word} {s t : State} (h : unpackStep w s = .ok t) : t = s.decoderOf t := by
  rw [(unpackStep_ok h).1]; rfl

theorem unpackStep_error_frame {w : Word} {s t : State} (h : unpackStep w s = .error t) : t = s.decoderOf t := by
  obtain ⟨e, sub, rfl, -⟩ := unpackStep_error h
  rfl

theorem unpackLoop_ok_frame {w : Word} {n : Nat} {s t : State} (h : unpackLoop w n s = .ok t) : t = s.decoderOf t := by
  rw [unpackLoop_ok h]; rfl

theorem endCheck_frame (w : Word) (s : State) : endCheck w s = s.decoderOf (endCheck w s) := by
  rcases endCheck_cases w s with h | h <;> rw [h] <;> rfl

theorem State.decoderOf_trans {s t u : State} (ht : t = s.decoderOf t) (hu : u = t.decoderOf u) : u = s.decoderOf u := by
  rw [hu, ht]; rfl

/-! ## Frame of each command -/

theorem execCount_frame {sym : BitVec 8} {s t : State} (h : execCount sym s = .next t) :
    t = { s with freq := t.freq, total := t.total }.errOf t := by
  rcases execCount_cases h with h | ⟨-, rfl⟩
  · rw [h.frame]; rfl
  · rfl

theorem execBuild_frame {s t : State} (h : execBuild s = .next t) :
    t = s.withTree t.node t.seq t.flock t.root t.treeValid ∨ t = s := by
  rcases execBuild_cases h with rfl | ⟨f, -, -, -, -, -, -, -, rfl⟩
  · exact .inr rfl
  · rw [State.withForest_eq]; exact .inl rfl

theorem execGenc_frame {s t : State} (h : execGenc s = .next t) : t = { s with book := t.book }.errOf t := by
  rcases execGenc_cases h with rfl | ⟨-, rfl⟩ | ⟨-, leaves, rfl, -⟩ | ⟨-, -, rfl⟩ <;> rfl

theorem execPack_frame {sym : BitVec 8} {s t : State} (h : execPack sym s = .next t) :
    t = { s with msg := t.msg }.errOf t := by
  rcases execPack_cases h with h | ⟨c, -, rfl⟩
  · rw [h.frame]; rfl
  · rfl

theorem execPutbit_frame {bit : Bool} {s t : State} (h : execPutbit bit s = .next t) :
    t = { s with msg := t.msg }.errOf t := by
  rcases execPutbit_cases h with h | ⟨-, rfl⟩
  · rw [h.frame]; rfl
  · rfl

theorem execMclr_frame {s t : State} (h : execMclr s = .next t) : t = { s with msg := t.msg }.decoderOf t := by
  rcases execMclr_cases h with rfl | rfl <;> rfl

theorem execAdopt_frame {node : BitVec 9} {s t : State} (h : execAdopt node s = .next t) :
    t = { s with root := t.root, treeValid := t.treeValid, book := t.book }.decoderOf t := by
  rcases execAdopt_cases h with h | ⟨-, rfl⟩
  · rw [h.frame]; rfl
  · rfl

theorem execDstart_frame {s t : State} (h : execDstart s = .next t) : t = s.decoderOf t := by
  rcases execDstart_cases h with rfl | rfl <;> rfl

theorem execUnpack_frame {s t : State} (h : execUnpack s = .next t) : t = s.decoderOf t := by
  rcases execUnpack_cases h with h | ⟨-, h | h⟩
  · rw [h.frame]; rfl
  · exact unpackStep_ok_frame h
  · exact unpackStep_error_frame h

theorem execDend_frame {s t : State} (h : execDend s = .next t) : t = s.decoderOf t := by
  rcases execDend_cases h with h | rfl
  · rw [h.frame]; rfl
  · exact endCheck_frame _ s

theorem execDrun_frame {s t : State} (h : execDrun s = .next t) : t = s.decoderOf t := by
  by_cases hl : s.Live
  · rcases execDrun_cases hl h with ⟨-, rfl⟩ | ⟨-, u, k, hu, ⟨-, hfail⟩ | ⟨-, rfl⟩⟩
    · rfl
    · exact State.decoderOf_trans (unpackLoop_ok_frame hu) (unpackStep_error_frame hfail)
    · exact State.decoderOf_trans (unpackLoop_ok_frame hu) (endCheck_frame _ u)
  · rw [execDrun, whenLive_of_frozen hl] at h
    obtain rfl := Host.Outcome.next.inj h
    rfl

theorem execErrack_frame {s t : State} (h : execErrack s = .next t) : t = s.errOf t := by
  rcases execErrack_cases h with rfl | rfl <;> rfl

/-- Settles O57: each command writes within its frame. -/
theorem eachElementIsWrittenByItsCommandsOnly : Obligations.EachElementIsWrittenByItsCommandsOnly := by
  intro i s t h
  cases i with
  | nop => obtain rfl := Host.Outcome.next.inj h; simp
  | clr => rcases execClr_cases h with rfl | rfl <;> simp [State.resetWith]
  | count sym => rw [execCount_frame h]; simp [State.errOf]
  | build =>
    rcases execBuild_frame h with h | rfl
    · rw [h]; simp [State.withTree]
    · simp
  | genc => rw [execGenc_frame h]; simp [State.errOf]
  | pack sym => rw [execPack_frame h]; simp [State.errOf]
  | putbit bit => rw [execPutbit_frame h]; simp [State.errOf]
  | mclr => rw [execMclr_frame h]; simp [State.decoderOf, State.errOf]
  | adopt node => rw [execAdopt_frame h]; simp [State.decoderOf, State.errOf]
  | dstart => rw [execDstart_frame h]; simp [State.decoderOf, State.errOf]
  | unpack => rw [execUnpack_frame h]; simp [State.decoderOf, State.errOf]
  | dend => rw [execDend_frame h]; simp [State.decoderOf, State.errOf]
  | drun => rw [execDrun_frame h]; simp [State.decoderOf, State.errOf]
  | errack => rw [execErrack_frame h]; simp [State.errOf]

end Sys2Proof.Machine
end

section
/-!
PROOFS. No valid code of the book begins another (spec/10_state.md R32).
-/
namespace Sys2Proof.Machine

/-- Of the symbols with a code in the tree, one whose code begins another's is that symbol: the shorter path ends at
a leaf, from which no path goes on. -/
theorem State.Codes.sym_eq_of_prefix {s : State} {a b : Nat} {c d : Bits} (ha : s.Codes a c) (hb : s.Codes b d)
    (hpre : c <+: d) : a = b := by
  unfold State.Codes at ha hb
  split at ha
  · next hleaf =>
    rw [if_pos hleaf] at hb
    exact ha.1.trans hb.1.symm
  · next hleaf =>
    rw [if_neg hleaf] at hb
    obtain ⟨l, hl, hlk, rfl⟩ := ha
    obtain ⟨m, hm, -, rfl⟩ := hb
    obtain ⟨q, rfl⟩ := hpre
    obtain rfl := State.follow_prefix_eq hl hlk hm
    rw [List.append_nil, hl] at hm
    rw [Option.some.inj hm]

/-- Settles O38: valid entries hold codes of the one present tree. -/
theorem validCodesFormAPrefixCode : Obligations.ValidCodesFormAPrefixCode := by
  intro s hs a b hne ha hb hpre
  obtain ⟨-, hca⟩ := hs.codes a ha
  obtain ⟨-, hcb⟩ := hs.codes b hb
  exact hne (hca.sym_eq_of_prefix hcb hpre)

end Sys2Proof.Machine
end

section
/-!
PROOFS. What the registers show (spec/10_state.md R42 to R52) and which writes have an effect (R41, R46, R48).
-/
namespace Sys2Proof.Machine

/-! ## `STATUS` -/

/-- The bits of `STATUS` (R43): five flags, a gap, `ERR`, `ERRSUB`, `FATAL`, zeros. -/
theorem State.getLsbD_status (s : State) (j : Nat) : s.status.getLsbD j =
    if j < 8 then [s.treeValid, s.flock, s.decDone, s.atRoot, s.msgEnd].getD j false
    else if j < 12 then s.err.value.getLsbD (j - 8)
    else if j < 16 then s.errSub.getLsbD (j - 12)
    else decide (j = 16) && s.fatal := by
  simp only [State.status, BitVec.getLsbD_append (n := 31) (m := 1), BitVec.getLsbD_append (n := 30) (m := 1),
    BitVec.getLsbD_append (n := 29) (m := 1), BitVec.getLsbD_append (n := 28) (m := 1),
    BitVec.getLsbD_append (n := 27) (m := 1), BitVec.getLsbD_append (n := 24) (m := 3),
    BitVec.getLsbD_append (n := 20) (m := 4), BitVec.getLsbD_append (n := 16) (m := 4),
    BitVec.getLsbD_append (n := 15) (m := 1)]
  by_cases h8 : j < 8
  · rw [if_pos h8]
    interval_cases j <;> simp
  · obtain ⟨k, rfl⟩ := Nat.exists_eq_add_of_le (not_lt.mp h8)
    by_cases h4 : k < 4
    · have h12 : 8 + k < 12 := by omega
      simp [h4, h12]
    · have h12 : ¬8 + k < 12 := by omega
      have hsub : 8 + k - 12 = k - 4 := by omega
      by_cases h16 : k - 4 < 4
      · have h16' : 8 + k < 16 := by omega
        simp [h4, h12, h16, h16', hsub]
      · have h16' : ¬8 + k < 16 := by omega
        have heq : 8 + k = 16 ↔ k - 8 = 0 := by omega
        simp [Nat.sub_sub, h4, h12, h16, h16', heq]

/-- The field of `ERR` in `STATUS`. -/
theorem State.status_err (s : State) : s.status.extractLsb' 8 4 = s.err.value := by
  ext i hi
  rw [BitVec.getElem_extractLsb', State.getLsbD_status, if_neg (by omega), if_pos (by omega), Nat.add_sub_cancel_left]
  rfl

/-- The field of `ERRSUB` in `STATUS`. -/
theorem State.status_errSub (s : State) : s.status.extractLsb' 12 4 = s.errSub := by
  ext i hi
  rw [BitVec.getElem_extractLsb', State.getLsbD_status, if_neg (by omega), if_neg (by omega), if_pos (by omega),
    Nat.add_sub_cancel_left]
  rfl

/-- Settles O13: flag by flag and field by field. -/
theorem statusShowsItsFields : Obligations.StatusShowsItsFields := by
  intro s
  have hread : readReg s (regAt 0x04) = s.status := rfl
  refine ⟨s.getLsbD_status 0, s.getLsbD_status 1, s.getLsbD_status 2, s.getLsbD_status 3, s.getLsbD_status 4, ?_, ?_,
    s.status_errSub, s.getLsbD_status 16, ?_⟩
  · ext i hi
    rw [hread, BitVec.getElem_extractLsb', State.getLsbD_status, if_pos (by omega)]
    interval_cases i <;> simp
  · rw [hread, State.status_err]
    cases s.err <;> decide
  · ext i hi
    have hne : 17 + i ≠ 16 := by omega
    rw [hread, BitVec.getElem_extractLsb', State.getLsbD_status, if_neg (by omega), if_neg (by omega), if_neg (by omega),
      decide_eq_false hne]
    simp

/-! ## Registers that show one element -/

/-- From `0x74` on every offset is reserved (R41). -/
theorem regAt_reserved {offset : Nat} (h : 0x74 ≤ offset) : regAt offset = .reserved := by
  have hne : ∀ k, k < 0x74 → offset ≠ k := fun k hk => by omega
  have hcode : ¬(0x48 ≤ offset ∧ offset ≤ 0x64) := by omega
  simp [regAt, hne, hcode]

/-- Settles O14: each offset names its register, and each register reads its element. -/
theorem plainRegistersShowTheirElement : Obligations.PlainRegistersShowTheirElement := by
  intro s
  refine ⟨rfl, rfl, rfl, rfl, rfl, rfl, rfl, rfl, rfl, rfl, rfl, rfl, rfl, fun offset h => ?_⟩
  rw [regAt_reserved h]
  rfl

/-! ## The stream, the book and the output -/

/-- Settles O15: a position past the end of the stream holds no bit. -/
theorem streamWindowShowsTheBitsFirstHighest : Obligations.StreamWindowShowsTheBitsFirstHighest := by
  intro s j hj
  change (s.msgWord s.idx.toNat).getLsbD (31 - j) = _
  unfold State.msgWord
  by_cases hi : s.idx.toNat < s.params.msgCap / 32
  · rw [if_pos hi, getLsbD_packWord _ hj, State.msgBit]
    by_cases hend : 32 * s.idx.toNat + j < s.msg.length
    · rw [if_pos ⟨hi, hend⟩]
    · rw [if_neg fun h => hend h.2, List.getD_eq_default _ _ (not_lt.mp hend)]
  · rw [if_neg hi, if_neg fun h => hi h.1]
    exact BitVec.getLsbD_zero

/-- In a state of the invariant every code of the book has a length of 8 bits (R11, R49). -/
theorem State.Inv.bookAt_len_lt {s : State} (h : s.Inv) (sym : Nat) : (s.bookAt sym).len < 2 ^ 8 := by
  rcases Store.get_eq_default_or_mem BookEntry.blank s.book sym with hblank | hmem
  · have : s.bookAt sym = BookEntry.blank := hblank
    rw [this]
    decide
  · obtain ⟨hv, hcode⟩ := h.codes sym (h.fits.book _ hmem).2
    obtain ⟨-, hle⟩ := h.codes_length hv hcode
    obtain ⟨hpow, -⟩ := h.legal.two_pow_le
    have hpos := Nat.two_pow_pos s.params.symW
    unfold Params.lmax Params.nsym at hle
    unfold BookEntry.len
    omega

/-- The fields of `BOOK_LEN`: the length in bits 7:0, `valid` in bit 31, zeros between (R49). -/
theorem BookEntry.wordLen_fields {e : BookEntry} (h : e.len < 2 ^ 8) :
    e.wordLen.getLsbD 31 = e.valid ∧ (e.wordLen.extractLsb' 0 8).toNat = e.len ∧ e.wordLen.extractLsb' 8 23 = 0 := by
  have hnat : e.wordLen.toNat = e.valid.toNat * 2 ^ 31 + e.len := by
    have := e.valid.toNat_lt
    exact zext32_toNat (by omega)
  refine ⟨?_, ?_, ?_⟩
  · rw [BookEntry.wordLen, Nat.add_comm, getLsbD_zext32_add (by omega) (by decide)]
    cases e.valid <;> rfl
  · rw [BitVec.extractLsb'_toNat, hnat, Nat.shiftRight_zero]
    omega
  · apply BitVec.eq_of_toNat_eq
    rw [BitVec.extractLsb'_toNat, hnat, Nat.shiftRight_eq_div_pow]
    change _ = 0
    omega

/-- Settles O16: inside the store the registers show the entry, outside it they read 0. -/
theorem bookWindowShowsTheEntry : Obligations.BookWindowShowsTheEntry := by
  intro s hs
  refine ⟨fun hi => ?_, fun hi => ?_⟩
  · have hlen : readReg s (regAt 0x44) = (s.bookAt s.idx.toNat).wordLen := if_pos hi
    obtain ⟨hvalid, hcode, hgap⟩ := BookEntry.wordLen_fields (hs.bookAt_len_lt s.idx.toNat)
    rw [hlen]
    refine ⟨hvalid, hcode, hgap, fun w j hw hj => ?_⟩
    have hword : readReg s (.bookCode w) = (s.bookAt s.idx.toNat).wordCode w := if_pos hi
    rw [regAt_bookCode hw, hword, BookEntry.wordCode, getLsbD_packWord _ hj]
  · refine ⟨if_neg (not_lt.mpr hi), fun w hw => ?_⟩
    rw [regAt_bookCode hw]
    exact if_neg (not_lt.mpr hi)

/-- Settles O17: `DEC_DONE` decides whether the output is shown. -/
theorem outputIsShownOnlyAfterTheDecodeCall : Obligations.OutputIsShownOnlyAfterTheDecodeCall := by
  intro s
  refine ⟨fun hdone => ?_, fun hdone => ?_⟩
  · have hout : readReg s (regAt 0x40) = zext32 (s.out.getD s.idx.toNat 0) := if_pos hdone
    refine ⟨if_pos hdone, fun hi => ?_, fun hi => ?_⟩
    · rw [hout, List.getD_eq_getElem _ _ hi, zext32]
    · rw [hout, List.getD_eq_default _ _ hi]
      rfl
  · have hlive : ¬s.decDone = true := by simp [hdone]
    exact ⟨if_neg hlive, if_neg hlive⟩

/-! ## The node window -/

theorem nodeWindowWrite_outside {s : State} (h : s.params.nodeMax ≤ s.window) (f : NodeEntry → NodeEntry) :
    nodeWindowWrite f s = s := if_neg fun hw => absurd hw.2 (not_lt.mpr h)

/-- A performed node-window write replaces the entry and leaves no tree (R70). -/
theorem nodeWindowWrite_inside {s : State} (hl : s.Live) (hw : s.window < s.params.nodeMax) (f : NodeEntry → NodeEntry) :
    nodeWindowWrite f s =
      s.withTree (Store.set NodeEntry.blank s.node s.window (f (s.nodeAt s.window))) s.seq s.flock 0 false :=
  if_pos ⟨hl, hw⟩

theorem nodeWindowWrite_window (s : State) (f : NodeEntry → NodeEntry) : (nodeWindowWrite f s).window = s.window := by
  unfold nodeWindowWrite
  split <;> rfl

theorem nodeWindowWrite_params (s : State) (f : NodeEntry → NodeEntry) : (nodeWindowWrite f s).params = s.params := by
  unfold nodeWindowWrite
  split <;> rfl

theorem nodeWindowWrite_nodeAt {s : State} (hl : s.Live) (hw : s.window < s.params.nodeMax) (f : NodeEntry → NodeEntry) :
    (nodeWindowWrite f s).nodeAt s.window = f (s.nodeAt s.window) := by
  rw [nodeWindowWrite_inside hl hw]
  exact (nodeGet_set _ _ _ _ _).trans (if_pos ⟨rfl, hw⟩)

/-- Inside the store the registers of the node window show the words of the entry (R48). -/
theorem readReg_nodeWindow {s : State} (hw : s.window < s.params.nodeMax) :
    readReg s .nodeK = (s.nodeAt s.window).wordK ∧ readReg s .nodeF = (s.nodeAt s.window).wordF ∧
    readReg s .nodeC = (s.nodeAt s.window).wordC := ⟨if_pos hw, if_pos hw, if_pos hw⟩

/-- After a performed write they show the words of the entry written. -/
theorem readReg_nodeWindowWrite {s : State} (hl : s.Live) (hw : s.window < s.params.nodeMax) (f : NodeEntry → NodeEntry) :
    readReg (nodeWindowWrite f s) .nodeK = (f (s.nodeAt s.window)).wordK ∧
    readReg (nodeWindowWrite f s) .nodeF = (f (s.nodeAt s.window)).wordF ∧
    readReg (nodeWindowWrite f s) .nodeC = (f (s.nodeAt s.window)).wordC := by
  have hw' : (nodeWindowWrite f s).window < (nodeWindowWrite f s).params.nodeMax := by
    rwa [nodeWindowWrite_window, nodeWindowWrite_params]
  have hread := readReg_nodeWindow hw'
  rwa [nodeWindowWrite_window, nodeWindowWrite_nodeAt hl hw] at hread

/-! Each write keeps the fields of the other two registers. -/

theorem NodeEntry.eq_of_setK {p : Params} {e e' : NodeEntry} {v : Word} (h : e' = e.setK p v) :
    e' = { e with kind := e'.kind, sym := e'.sym } := by rw [h]; rfl

theorem NodeEntry.eq_of_setF {p : Params} {e e' : NodeEntry} {v : Word} (h : e' = e.setF p v) :
    e' = { e with freq := e'.freq } := by rw [h]; rfl

theorem NodeEntry.eq_of_setC {p : Params} {e e' : NodeEntry} {v : Word} (h : e' = e.setC p v) :
    e' = { e with left := e'.left, right := e'.right } := by rw [h]; rfl

/-- The two bits of a written `kind`, both cleared where both are set (R48). -/
theorem testBit_value_ofValue {n : Nat} (h : n < 4) (j : Nat) :
    (Kind.ofValue n).value.testBit j = (n.testBit j && !(n.testBit 0 && n.testBit 1)) := by
  have h1 : Nat.testBit 1 1 = false := by decide
  have h3 : Nat.testBit 3 1 = true := by decide
  interval_cases n <;> simp [Kind.ofValue, Kind.value, h1, h3]

theorem Kind.value_lt (k : Kind) : k.value < 2 ^ 8 := by cases k <;> decide

theorem getLsbD_wordK_setK (p : Params) (e : NodeEntry) (v : Word) {j : Nat} (hj : j < 32) :
    (e.setK p v).wordK.getLsbD j =
      if j < 2 then v.getLsbD j && !(v.getLsbD 0 && v.getLsbD 1)
      else decide (8 ≤ j ∧ j < 8 + p.symW) && v.getLsbD j := by
  rw [NodeEntry.wordK, getLsbD_zext32_add (Kind.value_lt _) hj]
  by_cases h8 : j < 8
  · have hno : ¬(8 ≤ j ∧ j < 8 + p.symW) := by omega
    rw [if_pos h8, NodeEntry.setK, testBit_value_ofValue (fieldOf_lt v 0 2)]
    simp only [testBit_fieldOf, Nat.zero_add, decide_eq_false hno]
    by_cases h2 : j < 2 <;> simp [h2]
  · obtain ⟨k, rfl⟩ := Nat.exists_eq_add_of_le (not_lt.mp h8)
    rw [if_neg h8, if_neg (by omega), NodeEntry.setK, testBit_fieldOf]
    simp

theorem getLsbD_wordF_setF (p : Params) (e : NodeEntry) (v : Word) {j : Nat} (hj : j < 32) :
    (e.setF p v).wordF.getLsbD j = (decide (j < p.cntW) && v.getLsbD j) := by
  rw [NodeEntry.wordF, zext32, BitVec.getLsbD_ofNat, decide_eq_true hj, Bool.true_and, NodeEntry.setF, testBit_fieldOf,
    Nat.zero_add]

theorem getLsbD_wordC_setC {p : Params} (hp : p.Legal) (e : NodeEntry) (v : Word) {j : Nat} (hj : j < 32) :
    (e.setC p v).wordC.getLsbD j =
      (decide (j < p.nidxW ∨ 16 ≤ j ∧ j < 16 + p.nidxW) && v.getLsbD j) := by
  obtain ⟨-, hpow⟩ := hp.two_pow_le
  have hleft : (e.setC p v).left < 2 ^ 16 := (fieldOf_lt v 0 p.nidxW).trans_le (hpow.trans (by decide))
  have hw : p.nidxW ≤ 9 := Nat.succ_le_succ hp.1.2
  rw [NodeEntry.wordC, getLsbD_zext32_add hleft hj]
  by_cases h16 : j < 16
  · have hno : ¬16 ≤ j := not_le.mpr h16
    rw [if_pos h16, NodeEntry.setC, testBit_fieldOf]
    simp [hno]
  · obtain ⟨k, rfl⟩ := Nat.exists_eq_add_of_le (not_lt.mp h16)
    have hno : ¬16 + k < p.nidxW := by omega
    rw [if_neg h16, NodeEntry.setC, testBit_fieldOf]
    simp [hno]

theorem Kind.value_eq (k : Kind) : k.value = if k = .leaf then 1 else if k = .internal then 2 else 0 := by
  cases k <;> rfl

/-- The three words of an entry whose fields have their widths, as numbers (R48). -/
theorem NodeEntry.Fits.words {p : Params} (hp : p.Legal) {e : NodeEntry} (h : e.Fits p) :
    e.wordK.toNat = (if e.kind = .leaf then 1 else if e.kind = .internal then 2 else 0) + 2 ^ 8 * e.sym ∧
    e.wordF.toNat = e.freq ∧ e.wordC.toNat = e.left + 2 ^ 16 * e.right := by
  obtain ⟨hfreq, hsym, hleft, hright⟩ := h
  obtain ⟨hsymW, hnidxW⟩ := hp.two_pow_le
  have hcntW : 2 ^ p.cntW ≤ 2 ^ 32 := Nat.pow_le_pow_right (by decide) hp.2.1.2
  have hkind := e.kind.value_lt
  have hpos := Nat.two_pow_pos p.cntW
  unfold Params.cntMax at hfreq
  unfold Params.nsym at hsym
  refine ⟨?_, zext32_toNat (by omega), ?_⟩
  · rw [NodeEntry.wordK, zext32_toNat (by omega), Kind.value_eq, Nat.mul_comm]
  · rw [NodeEntry.wordC, zext32_toNat (by omega), Nat.mul_comm]

/-- Settles O18: the window outside the store, its words inside, and its words after a write. -/
theorem nodeWindowShowsAndReplacesTheFields : Obligations.NodeWindowShowsAndReplacesTheFields := by
  intro s v hp
  refine ⟨fun hi offset hoff => ?_, fun hi hfits => ?_, fun hl hi => ⟨?_, ?_, ?_⟩⟩
  · have hread : ¬s.window < s.params.nodeMax := not_lt.mpr hi
    rcases hoff with rfl | rfl | rfl
    · exact ⟨if_neg hread, congrArg Host.Outcome.next (nodeWindowWrite_outside hi (·.setK s.params v))⟩
    · exact ⟨if_neg hread, congrArg Host.Outcome.next (nodeWindowWrite_outside hi (·.setF s.params v))⟩
    · exact ⟨if_neg hread, congrArg Host.Outcome.next (nodeWindowWrite_outside hi (·.setC s.params v))⟩
  · obtain ⟨hreadK, hreadF, hreadC⟩ := readReg_nodeWindow hi
    obtain ⟨hK, hF, hC⟩ := hfits.words hp
    exact ⟨(congrArg BitVec.toNat hreadK).trans hK, (congrArg BitVec.toNat hreadF).trans hF,
      (congrArg BitVec.toNat hreadC).trans hC⟩
  · obtain ⟨hread, -, -⟩ := readReg_nodeWindowWrite hl hi (·.setK s.params v)
    exact ⟨fun j hj => (congrArg (BitVec.getLsbD · j) hread).trans (getLsbD_wordK_setK s.params _ v hj),
      NodeEntry.eq_of_setK (nodeWindowWrite_nodeAt hl hi (·.setK s.params v))⟩
  · obtain ⟨-, hread, -⟩ := readReg_nodeWindowWrite hl hi (·.setF s.params v)
    exact ⟨fun j hj => (congrArg (BitVec.getLsbD · j) hread).trans (getLsbD_wordF_setF s.params _ v hj),
      NodeEntry.eq_of_setF (nodeWindowWrite_nodeAt hl hi (·.setF s.params v))⟩
  · obtain ⟨-, -, hread⟩ := readReg_nodeWindowWrite hl hi (·.setC s.params v)
    exact ⟨fun j hj => (congrArg (BitVec.getLsbD · j) hread).trans (getLsbD_wordC_setC hp _ v hj),
      NodeEntry.eq_of_setC (nodeWindowWrite_nodeAt hl hi (·.setC s.params v))⟩

/-! ## Writes elsewhere, reset and the offered word -/

/-- An access of the interface writes the register at its offset, `CMD` apart (R41). -/
theorem performAccess_write {offset : Nat} (h4 : offset % 4 = 0) (hmax : offset ≤ 0xFC) (hcmd : regAt offset ≠ .cmd)
    (v : Word) (s : State) : performAccess (.write offset 4 v) s = .next (writeReg (regAt offset) v s) := by
  have hw : wordAccess offset 4 := ⟨rfl, h4, hmax⟩
  simp only [performAccess, if_pos hw, hostWrite, if_neg hcmd]

/-- Settles O20: `IDX` takes the word, and no other register outside the node window takes anything. -/
theorem idxIsWrittenAndReadOnlyOffsetsAreNot : Obligations.IdxIsWrittenAndReadOnlyOffsetsAreNot := by
  intro s offset v h4 hmax
  refine ⟨fun hidx => ?_, fun h00 h28 h30 h34 h38 => ?_⟩
  · subst hidx
    exact performAccess_write h4 hmax (by decide) v s
  · obtain ⟨hcmd, hnone⟩ := regAt_readOnly h00 h28 h30 h34 h38
    rw [performAccess_write h4 hmax hcmd, hnone]

/-- `STATUS` reads `MSG_END` and `AT_ROOT` after reset, whatever the parameters (R54). -/
theorem State.status_resetWith (p : Params) : (State.resetWith p).status = 0x00000018 := by
  change (State.resetWith Params.reference).status = _
  decide

/-- Settles O21: every store is empty and every field holds its value. -/
theorem resetStateHoldsTheResetValues : Obligations.ResetStateHoldsTheResetValues := fun p =>
  ⟨fun _ => rfl, rfl, rfl, fun _ => ite_self _, rfl, rfl, rfl, fun _ => rfl, rfl, rfl, rfl, rfl, rfl, rfl, rfl, rfl, rfl,
    State.status_resetWith p⟩

/-- A word waiting for `CMD` that decodes to a command runs it (R106). -/
theorem step_of_command {s : State} {w : Word} {i : Instr} {rest : List Access} (hd : decode s.params w = .ok i)
    (hp : s.pending = .write 0x00 4 w :: rest) : step s = exec i (s.takeAccess rest) := by
  have hword : step s = executeWord w (s.takeAccess rest) := by
    rw [step, nextAccess, hp]
    rfl
  rw [hword, executeWord, State.takeAccess_params, hd]

/-- Settles O6: the offered word is one that waits for `CMD`. -/
theorem stepRunsTheDecodedCommand : Obligations.StepRunsTheDecodedCommand := by
  intro s w i hd
  refine ⟨fun rest hp => step_of_command hd hp, ?_⟩
  have hword : BitVec.ofNat 32 (w.toNat % 2 ^ 32) = w := by
    rw [Nat.mod_eq_of_lt w.isLt, BitVec.ofNat_toNat, BitVec.setWidth_eq]
  exact step_of_command (s := s.withFetchWord 32 w.toNat) (rest := s.pending) hd
    (by rw [State.withFetchWord, hword]; rfl)

end Sys2Proof.Machine
end

section
/-!
PROOFS. The accesses of the host (spec/20_memory.md R64, R66, R67, R70, R73; spec/60_exceptions.md R253): which one a step
performs, which are refused, and that each of the interface completes.
-/
namespace Sys2Proof.Machine

/-! ## The next access -/

theorem step_of_idle {s : State} (hp : s.pending = []) : step s = .next s := by rw [step, nextAccess, hp]

theorem step_of_pending {s : State} {a : Access} {rest : List Access} (hp : s.pending = a :: rest) :
    step s = performAccess a (s.takeAccess rest) := by rw [step, nextAccess, hp]

/-- Settles O9: the step is decided by the list of the accesses waiting. -/
theorem stepPerformsTheNextAccess : Obligations.StepPerformsTheNextAccess := fun _ =>
  ⟨step_of_idle, fun _ _ => step_of_pending⟩

/-! ## Inside the interface and outside -/

/-- Settles O10: no such width and offset make a word access. -/
theorem accessOutsideTheInterfaceIsRefused : Obligations.AccessOutsideTheInterfaceIsRefused := by
  intro s offset width v h
  have hout : ¬wordAccess offset width := by
    rintro ⟨hwidth, h4, hmax⟩
    omega
  exact ⟨if_neg hout, if_neg hout⟩

theorem performAccess_read {offset : Nat} (h4 : offset % 4 = 0) (hmax : offset ≤ 0xFC) (s : State) :
    performAccess (.read offset 4) s = .next { s with reply := some (readReg s (regAt offset)) } :=
  if_pos ⟨rfl, h4, hmax⟩

/-- Settles O12: a read of the interface replaces the reply alone. -/
theorem readAnswersTheRegisterAndChangesNothing : Obligations.ReadAnswersTheRegisterAndChangesNothing :=
  fun s _ h4 hmax => performAccess_read h4 hmax s

/-! ## A performed node-window write -/

/-! The fields each register of the window replaces, by their positions (R48). -/

theorem NodeEntry.setK_eq_replaced (p : Params) (e : NodeEntry) (v : Word) : e.setK p v = Claims.replaced p 0x30 v e := by
  rw [NodeEntry.setK, fieldOf_eq, fieldOf_eq, pow_zero, Nat.div_one]
  rfl

theorem NodeEntry.setF_eq_replaced (p : Params) (e : NodeEntry) (v : Word) : e.setF p v = Claims.replaced p 0x34 v e := by
  rw [NodeEntry.setF, fieldOf_eq, pow_zero, Nat.div_one]
  rfl

theorem NodeEntry.setC_eq_replaced (p : Params) (e : NodeEntry) (v : Word) : e.setC p v = Claims.replaced p 0x38 v e := by
  rw [NodeEntry.setC, fieldOf_eq, fieldOf_eq, pow_zero, Nat.div_one]
  rfl

/-- A write to a register of the node window is `NodeWindowWrite` of the entry with its fields replaced (R70). -/
theorem performAccess_nodeWindow {offset : Nat} (h : offset = 0x30 ∨ offset = 0x34 ∨ offset = 0x38) (v : Word) (s : State) :
    performAccess (.write offset 4 v) s = .next (nodeWindowWrite (Claims.replaced s.params offset v) s) := by
  rcases h with rfl | rfl | rfl
  · rw [← funext fun e => NodeEntry.setK_eq_replaced s.params e v]
    exact performAccess_write (by decide) (by decide) (by decide) v s
  · rw [← funext fun e => NodeEntry.setF_eq_replaced s.params e v]
    exact performAccess_write (by decide) (by decide) (by decide) v s
  · rw [← funext fun e => NodeEntry.setC_eq_replaced s.params e v]
    exact performAccess_write (by decide) (by decide) (by decide) v s

theorem nodeWindowWrite_nodeAt_of_ne {s : State} (hl : s.Live) (hw : s.window < s.params.nodeMax)
    (f : NodeEntry → NodeEntry) {i : Nat} (hi : i ≠ s.window) : (nodeWindowWrite f s).nodeAt i = s.nodeAt i := by
  rw [nodeWindowWrite_inside hl hw]
  exact (nodeGet_set _ _ _ _ _).trans (if_neg fun h => hi h.1.symm)

/-- Settles O19: the write stores one entry and leaves no tree. -/
theorem nodeWindowWriteDropsTheTree : Obligations.NodeWindowWriteDropsTheTree := by
  intro s offset v hoff hl hw
  have hat := nodeWindowWrite_nodeAt hl hw (Claims.replaced s.params offset v)
  have hne := fun i => nodeWindowWrite_nodeAt_of_ne hl hw (Claims.replaced s.params offset v) (i := i)
  refine ⟨_, performAccess_nodeWindow hoff v s, ?_⟩
  rw [nodeWindowWrite_inside hl hw] at hat hne ⊢
  exact ⟨rfl, rfl, rfl, rfl, rfl, rfl, fun _ => rfl, hat, hne, rfl⟩

/-! ## Completion -/

/-- The result is a next state. -/
def Completes (r : Result) : Prop := ∃ t, r = .next t

theorem completes_next (t : State) : Completes (.next t) := ⟨t, rfl⟩

theorem completes_ite {c : Prop} [Decidable c] {a b : Result} (ha : Completes a) (hb : Completes b) :
    Completes (if c then a else b) := by
  split
  · exact ha
  · exact hb

theorem whenLive_completes {s : State} {b : Result} (h : Completes b) : Completes (whenLive s b) :=
  completes_ite h (completes_next s)

theorem execBuild_completes (s : State) : Completes (execBuild s) := by
  refine whenLive_completes ?_
  split <;> exact completes_next _

/-- The walk of a present tree ends, as it is well formed (R53 item 3). -/
theorem State.Inv.exists_walk {s : State} (h : s.Inv) (hv : s.treeValid = true) :
    ∃ leaves, walk s (s.params.nodeMax + 1) s.root [] = .ok leaves := by
  obtain ⟨hroot, syms, htree, -⟩ := State.wellFormedTree_iff.mp (h.tree hv)
  obtain ⟨leaves, hwalk, -⟩ := walk_ok htree [] (Nat.lt_succ_of_lt hroot)
  exact ⟨leaves, hwalk⟩

/-- `GENC` is the one command that needs the invariant: on a present tree with a cycle its walk has no end (R151). -/
theorem execGenc_completes {s : State} (h : s.Inv) : Completes (execGenc s) := by
  refine whenLive_completes ?_
  split
  · next hv =>
    obtain ⟨leaves, hwalk⟩ := h.exists_walk hv
    rw [hwalk]
    exact completes_ite (completes_next _) (completes_next _)
  · exact completes_next _

theorem execUnpack_completes (s : State) : Completes (execUnpack s) := by
  refine whenLive_completes (completes_ite (completes_next _) (completes_ite ?_ (completes_next _)))
  split <;> exact completes_next _

theorem execDrun_completes (s : State) : Completes (execDrun s) := by
  refine whenLive_completes (completes_ite (completes_next _) ?_)
  split <;> exact completes_next _

/-- From a state of the invariant every command answers a next state. -/
theorem exec_completes {s : State} (h : s.Inv) (i : Instr) : Completes (exec i s) := by
  cases i with
  | nop => exact completes_next s
  | clr => exact completes_ite (completes_next _) (completes_next _)
  | count sym =>
    exact whenLive_completes (completes_ite (completes_next _) (completes_ite (completes_next _) (completes_next _)))
  | build => exact execBuild_completes s
  | genc => exact execGenc_completes h
  | pack sym =>
    exact whenLive_completes (completes_ite (completes_ite (completes_next _) (completes_next _)) (completes_next _))
  | putbit bit => exact whenLive_completes (completes_ite (completes_next _) (completes_next _))
  | mclr => exact whenLive_completes (completes_next _)
  | adopt node => exact whenLive_completes (completes_ite (completes_next _) (completes_next _))
  | dstart => exact whenLive_completes (completes_next _)
  | unpack => exact execUnpack_completes s
  | dend =>
    exact whenLive_completes (completes_ite (completes_next _) (completes_ite (completes_next _) (completes_next _)))
  | drun => exact execDrun_completes s
  | errack => exact completes_ite (completes_next _) (completes_next _)

/-- Every word written to `CMD` completes: it is a command, or it is rejected (R106). -/
theorem executeWord_completes {s : State} (h : s.Inv) (w : Word) : Completes (executeWord w s) := by
  unfold executeWord
  split
  · exact exec_completes h _
  · exact whenLive_completes (completes_next _)

theorem hostWrite_completes {s : State} (h : s.Inv) (offset : Nat) (v : Word) : Completes (hostWrite offset v s) :=
  completes_ite (executeWord_completes h v) (completes_next _)

/-- An access of the interface completes (R64, R67). -/
theorem performAccess_completes {s : State} (h : s.Inv) {a : Access}
    (ha : a = .reset ∨ ∃ offset ≤ 0xFC, offset % 4 = 0 ∧ (a = .read offset 4 ∨ ∃ v, a = .write offset 4 v)) :
    Completes (performAccess a s) := by
  rcases ha with rfl | ⟨offset, hmax, h4, rfl | ⟨v, rfl⟩⟩
  · exact completes_next _
  · exact ⟨_, performAccess_read h4 hmax s⟩
  · have hperform : performAccess (.write offset 4 v) s = hostWrite offset v s := if_pos ⟨rfl, h4, hmax⟩
    rw [hperform]
    exact hostWrite_completes h offset v

/-- Settles O11: the step performs the access in a state of the invariant, where it completes. -/
theorem everyAccessOfTheInterfaceCompletes : Obligations.EveryAccessOfTheInterfaceCompletes := by
  intro s a rest hs hp ha
  have htake : (s.takeAccess rest).Inv := hs.host s.idx rest none
  rw [step_of_pending hp]
  exact performAccess_completes htake ha

end Sys2Proof.Machine
end

section
/-!
PROOFS. The command words (spec/30_encoding.md R90 to R99): what the decoder does with every word and with the word of every
command.
-/
namespace Sys2Proof

/-! ## What the decoder does with a word -/

/-- A word with an opcode above those of R96 is refused as reserved (R97). -/
theorem decode_of_reserved {w : Word} (h : 0x0E ≤ Claims.op w) (p : Params) : decode p w = .error .reservedOpcode := by
  have hop : 0x0E ≤ (opField w).toNat := (opField_toNat w).symm ▸ h
  unfold decode
  split
  case h_15 => rfl
  all_goals omega

/-- A word is stray when the bits above its format's operand are not zero (R98). -/
theorem stray_iff {p : Params} {w : Word} :
    Claims.Stray p w ↔ ¬restIsZero (Claims.operandWidth p (Claims.op w)) (argField w) := by
  rw [Claims.Stray, restIsZero_iff, argField_toNat, not_lt]

/-- All formats read a word with an opcode of R96 the same way, each with its operand's width (R91 to R94, R98). -/
theorem exists_decode_of_defined {w : Word} (h : Claims.op w ≤ 0x0D) (p : Params) :
    ∃ i, decode p w =
      if restIsZero (Claims.operandWidth p (Claims.op w)) (argField w) then .ok i else .error .mustBeZero := by
  have hop : (opField w).toNat = Claims.op w := opField_toNat w
  unfold decode
  split
  case h_15 =>
    simp only [imp_false] at *
    omega
  all_goals
    rw [← hop, ‹(opField w).toNat = _›]
    exact ⟨_, rfl⟩

theorem decode_of_stray {p : Params} {w : Word} (h : Claims.op w ≤ 0x0D) (hs : Claims.Stray p w) :
    decode p w = .error .mustBeZero := by
  obtain ⟨i, hi⟩ := exists_decode_of_defined h p
  rw [hi, if_neg (stray_iff.mp hs)]

theorem exists_decode_ok {p : Params} {w : Word} (h : Claims.op w ≤ 0x0D) (hs : ¬Claims.Stray p w) :
    ∃ i, decode p w = .ok i := by
  obtain ⟨i, hi⟩ := exists_decode_of_defined h p
  exact ⟨i, hi.trans (if_pos (not_not.mp fun h => hs (stray_iff.mpr h)))⟩

/-- Why a word is no command, with the two reasons together (R97, R98, R99). -/
theorem decode_error_iff {p : Params} {w : Word} {e : DecodeError} :
    decode p w = .error e ↔
      (0x0E ≤ Claims.op w ∧ e = .reservedOpcode) ∨ (Claims.op w ≤ 0x0D ∧ Claims.Stray p w ∧ e = .mustBeZero) := by
  by_cases hop : 0x0E ≤ Claims.op w
  · have hdef : ¬Claims.op w ≤ 0x0D := by omega
    simp [decode_of_reserved hop, hop, hdef, eq_comm]
  · have hdef : Claims.op w ≤ 0x0D := by omega
    by_cases hs : Claims.Stray p w
    · simp [decode_of_stray hdef hs, hop, hdef, hs, eq_comm]
    · obtain ⟨i, hi⟩ := exists_decode_ok hdef hs
      simp [hi, hop, hs]

/-- Settles O4: each reason is one side of the two-way characterisation of the refused words. -/
theorem wordsThatAreNoCommandAreTheReservedAndTheStray :
    Obligations.WordsThatAreNoCommandAreTheReservedAndTheStray := by
  intro p w _
  exact ⟨by simp [decode_error_iff], by simp [decode_error_iff]⟩

/-! ## The word of a command -/

/-- Settles O1: the word's fields are the opcode and the operand, and the format reads an operand that fits. -/
theorem decodeReadsBackEveryCommand : Obligations.DecodeReadsBackEveryCommand := by
  intro p i _ hi
  rw [decode, opField_encode, argField_encode]
  cases i with
  | count sym | pack sym =>
    refine formatS_ok.mpr ⟨?_, ?_⟩
    · exact (BitVec.toNat_setWidth_of_le (by decide)).trans_lt (of_decide_eq_true hi)
    · exact congrArg _ (by simp [Instr.operandBits])
  | putbit bit => cases bit <;> rfl
  | adopt node =>
    refine formatI_ok.mpr ⟨?_, ?_⟩
    · exact (BitVec.toNat_setWidth_of_le (by decide)).trans_lt (of_decide_eq_true hi)
    · exact congrArg _ (by simp [Instr.operandBits])
  | _ => exact formatN_ok.mpr ⟨by decide, rfl⟩

/-- The operand that a format reads, with zeros above it, is the whole `arg` (R91 to R95). -/
theorem encode_of_decode {p : Params} (hp : p.Legal) {w : Word} {i : Instr} (h : decode p w = .ok i) : encode i = w := by
  obtain ⟨hsymW, hnidxW⟩ := hp.two_pow_le
  unfold decode at h
  split at h
  case h_3 hop | h_6 hop =>
    obtain ⟨harg, rfl⟩ := formatS_ok.mp h
    exact encode_eq_of_fields hop (setWidth_setWidth_of_lt (harg.trans_le hsymW))
  case h_7 hop =>
    obtain ⟨harg, rfl⟩ := formatB_ok.mp h
    have hbit : (argField w).setWidth 1 = BitVec.ofBool ((argField w).getLsbD 0) := BitVec.setWidth_one
    exact encode_eq_of_fields hop ((congrArg _ hbit.symm).trans (setWidth_setWidth_of_lt (n := 1) harg))
  case h_9 hop =>
    obtain ⟨harg, rfl⟩ := formatI_ok.mp h
    exact encode_eq_of_fields hop (setWidth_setWidth_of_lt (harg.trans_le hnidxW))
  case h_15 => exact nomatch h
  all_goals
    obtain ⟨harg, rfl⟩ := formatN_ok.mp h
    exact encode_eq_of_fields ‹_› (BitVec.eq_of_toNat_eq (Nat.lt_one_iff.mp harg).symm)

/-- Settles O2: every format reads the whole of `arg` into an operand that fits. -/
theorem decodedWordIsTheEncodingOfItsCommand : Obligations.DecodedWordIsTheEncodingOfItsCommand :=
  fun _ _ _ hp h => ⟨encode_of_decode hp h, Machine.decode_wf h⟩

/-- Settles O5: the decoder evaluates each word. -/
theorem exampleWordsDecode : Obligations.ExampleWordsDecode := by
  unfold Obligations.ExampleWordsDecode
  decide

/-! ## Mask and match -/

/-- The bits of a word that the format of an `n`-bit operand fixes: the opcode and the must-be-zero bits. -/
def fixedBits (n : Nat) : Word := (BitVec.allOnes 8 ++ BitVec.allOnes 24 <<< n : BitVec (8 + 24))

/-- Cleared low bits hide nothing of the bits above them. -/
theorem restIsZero_of_shiftLeft {n : Nat} {arg : BitVec 24} (h : arg >>> n <<< n = 0#24) : restIsZero n arg := by
  have hfits : arg.toNat / 2 ^ n * 2 ^ n < 2 ^ 24 := (Nat.div_mul_le_self _ _).trans_lt arg.isLt
  have hzero : arg.toNat / 2 ^ n * 2 ^ n = 0 := by
    have htoNat := congrArg BitVec.toNat h
    rwa [BitVec.toNat_shiftLeft, BitVec.toNat_ushiftRight, Nat.shiftRight_eq_div_pow, Nat.shiftLeft_eq,
      Nat.mod_eq_of_lt hfits] at htoNat
  have hpos : 2 ^ n ≠ 0 := (Nat.two_pow_pos n).ne'
  have hdiv : arg.toNat / 2 ^ n = 0 := (Nat.mul_eq_zero.mp hzero).resolve_right hpos
  exact (restIsZero_iff n arg).mpr ((Nat.div_eq_zero_iff.mp hdiv).resolve_left hpos)

/-- The fixed bits of a word are those of the opcode's word exactly when it has that opcode and no stray bit. -/
theorem and_fixedBits_eq_iff {w : Word} {n : Nat} {o : BitVec 8} :
    w &&& fixedBits n = (o ++ 0#24 : BitVec (8 + 24)) ↔ opField w = o ∧ restIsZero n (argField w) := by
  have hand : w &&& fixedBits n = (opField w ++ argField w >>> n <<< n : BitVec (8 + 24)) := by
    conv_lhs => rw [← append_fields w]
    rw [fixedBits, BitVec.and_append, BitVec.and_allOnes, BitVec.shiftLeft_ushiftRight]
  rw [hand]
  constructor
  · intro h
    exact ⟨by simpa using congrArg opField h, restIsZero_of_shiftLeft (by simpa using congrArg argField h)⟩
  · rintro ⟨rfl, hzero⟩
    rw [restIsZero] at hzero
    rw [hzero, BitVec.zero_shiftLeft]

/-- The words of a command's opcode are those with that opcode and no must-be-zero bit set. -/
theorem exists_decode_opcode_iff {p : Params} (hp : p.Legal) {w : Word} {o : BitVec 8} (ho : o.toNat ≤ 0x0D) :
    (∃ i, decode p w = .ok i ∧ i.opcode = o) ↔
      opField w = o ∧ restIsZero (Claims.operandWidth p o.toNat) (argField w) := by
  have hopcode : ∀ i, decode p w = .ok i → i.opcode = opField w := fun i hi => by
    rw [← encode_of_decode hp hi, opField_encode]
  constructor
  · rintro ⟨i, hi, rfl⟩
    rw [hopcode i hi, opField_toNat] at ho ⊢
    refine ⟨rfl, ?_⟩
    by_contra hrest
    exact nomatch hi.symm.trans (decode_of_stray ho (stray_iff.mpr hrest))
  · rintro ⟨rfl, hrest⟩
    rw [opField_toNat] at ho hrest
    obtain ⟨i, hi⟩ := exists_decode_ok ho fun hs => stray_iff.mp hs hrest
    exact ⟨i, hi, hopcode i hi⟩

/-- Each row's opcode is defined, its match is the word of the opcode alone, and its mask has the fixed bits of its format. -/
theorem rows_fields : ∀ r ∈ Claims.rows, r.1.toNat ≤ 0x0D ∧ r.2.1 = (r.1 ++ 0#24 : BitVec (8 + 24)) ∧
    r.2.2 = fixedBits (Claims.operandWidth Params.reference r.1.toNat) := by
  simp only [Claims.rows, List.forall_mem_cons]
  simp [fixedBits, Claims.operandWidth, Params.reference]

/-- Settles O3: the mask has the opcode's and the must-be-zero bits, and a word with these as in the match decodes. -/
theorem wordIsTheCommandOfARowByMaskAndMatch : Obligations.WordIsTheCommandOfARowByMaskAndMatch := by
  intro w r hr
  obtain ⟨hdef, hmatch, hmask⟩ := rows_fields r hr
  rw [hmatch, hmask, and_fixedBits_eq_iff, exists_decode_opcode_iff (by decide) hdef]

end Sys2Proof
end

section
/-!
PROOFS. A word written to `CMD` (spec/30_encoding.md R97, R98, R106).
-/
namespace Sys2Proof.Machine

theorem performAccess_cmd (w : Word) (s : State) : performAccess (.write 0x00 4 w) s = executeWord w s := rfl

theorem executeWord_of_ok {s : State} {w : Word} {i : Instr} (h : decode s.params w = .ok i) :
    executeWord w s = exec i s := by
  rw [executeWord, h]

theorem executeWord_of_error {s : State} {w : Word} {e : DecodeError} (h : decode s.params w = .error e) :
    executeWord w s = rejectWord e w s := by
  rw [executeWord, h]

/-- In a live instance a refused word raises `IllegalCommand` with the sub-cause of its reason (R97, R98). -/
theorem executeWord_of_error_live {s : State} (hl : s.Live) {w : Word} {e : DecodeError}
    (h : decode s.params w = .error e) : executeWord w s = .next (s.raise .illegalCommand e.subCause w) := by
  rw [executeWord_of_error h, rejectWord, whenLive_of_live hl]

/-- Settles O7: the decoder's reason gives the sub-cause. -/
theorem wordsThatAreNoCommandRaiseIllegalCommand : Obligations.WordsThatAreNoCommandRaiseIllegalCommand :=
  fun s _ _ hl => ⟨fun hop => executeWord_of_error_live hl (decode_of_reserved hop s.params),
    fun hop hs => executeWord_of_error_live hl (decode_of_stray hop hs)⟩

/-! ## The frozen instance -/

/-- A command that fits the instance runs when its word is written (R106). -/
theorem executeWord_encode {s : State} {i : Instr} (hp : s.params.Legal) (hi : i.wf s.params = true) :
    executeWord (encode i) s = exec i s :=
  executeWord_of_ok (decodeReadsBackEveryCommand s.params i hp hi)

/-- What every command leaves alone, every word leaves alone in a frozen instance. -/
theorem executeWord_ignored {s : State} (hl : ¬s.Live) {w : Word} (h : ∀ i, decode s.params w = .ok i → exec i s = .next s) :
    executeWord w s = .next s := by
  cases hd : decode s.params w with
  | ok i => exact (executeWord_of_ok hd).trans (h i hd)
  | error e => exact (executeWord_of_error hd).trans (whenLive_of_frozen hl _)

/-- After the fatal error no command does anything (R106 line 1, R225). -/
theorem exec_of_fatal {s : State} (h : s.err = .internalFault) (i : Instr) : exec i s = .next s :=
  (exec_of_frozen (fun hl => nomatch h.symm.trans hl) i).resolve_right fun hne => hne.1 h

/-- While frozen only `NOP`, `ERRACK` and `CLR` run (R106 line 2, R222). -/
theorem exec_ignored_of_frozen {s : State} (hl : ¬s.Live) {i : Instr} (hnop : i ≠ .nop) (herrack : i ≠ .errack)
    (hclr : i ≠ .clr) : exec i s = .next s := by
  cases i with
  | nop => exact absurd rfl hnop
  | errack => exact absurd rfl herrack
  | clr => exact absurd rfl hclr
  | _ => exact whenLive_of_frozen hl _

/-- Settles O8: line by line, each line's test excluding those before it. -/
theorem commandWriteFollowsTheOrderOfChecks : Obligations.CommandWriteFollowsTheOrderOfChecks := by
  intro s w hp
  rw [performAccess_cmd, Claims.executeInOrder]
  split
  · next hfatal =>
    exact executeWord_ignored (fun hl => nomatch hfatal.symm.trans hl) fun i _ => exec_of_fatal hfatal i
  split
  · next hfrozen =>
    split
    · next hw => exact hw ▸ executeWord_encode (i := .nop) hp rfl
    split
    · next hw => exact hw ▸ executeWord_encode (i := .errack) hp rfl
    split
    · next hw => exact hw ▸ executeWord_encode (i := .clr) hp rfl
    next hnop herrack hclr =>
    refine executeWord_ignored hfrozen fun i hi => ?_
    have hw : encode i = w := encode_of_decode hp hi
    refine exec_ignored_of_frozen hfrozen ?_ ?_ ?_
    · rintro rfl; exact hnop hw.symm
    · rintro rfl; exact herrack hw.symm
    · rintro rfl; exact hclr hw.symm
  next hlive =>
  have hl : s.Live := not_not.mp hlive
  split
  · next hop => exact executeWord_of_error_live hl (decode_of_reserved hop s.params)
  next hop =>
  have hdef : Claims.op w ≤ 0x0D := by omega
  split
  · next hs => exact executeWord_of_error_live hl (decode_of_stray hdef hs)
  · next hs =>
    obtain ⟨i, hi⟩ := exists_decode_ok hdef hs
    rw [executeWord_of_ok hi, hi]

end Sys2Proof.Machine
end

section
/-!
PROOFS. Counting (spec/40_frequency.md R120).
-/
namespace Sys2Proof.Machine

section
variable {s : State} (hl : s.Live) (sym : BitVec 8)
include hl

/-! ## The cases of `COUNT` in a live instance -/

theorem exec_count_of_locked (hf : s.flock = true) :
    exec (.count sym) s = .next (s.raise .illegalCommand 3 (encode (.count sym))) :=
  (whenLive_of_live hl _).trans (if_pos hf)

theorem exec_count_of_full (hf : s.flock ≠ true) (ht : s.total = s.params.cntMax) :
    exec (.count sym) s = .next (s.raise .countOverflow 0 (encode (.count sym))) :=
  (whenLive_of_live hl _).trans ((if_neg hf).trans (if_pos ht))

theorem exec_count_of_room (hf : s.flock ≠ true) (ht : s.total ≠ s.params.cntMax) :
    exec (.count sym) s =
      .next { s with freq := Store.set 0 s.freq sym.toNat (s.freqAt sym.toNat + 1), total := s.total + 1 } :=
  (whenLive_of_live hl _).trans ((if_neg hf).trans (if_neg ht))

end

/-- `FREQ` after one entry and the total are written. -/
theorem State.freqAt_set (s : State) (k v total j : Nat) :
    { s with freq := Store.set 0 s.freq k v, total := total }.freqAt j = if k = j then v else s.freqAt j :=
  Store.get_set s.freq k v j

/-- Settles O27: the lock is tested before the total, and the store of one entry leaves every other as it was. -/
theorem countCountsOneOccurrence : Obligations.CountCountsOneOccurrence := by
  intro s sym hl
  rw [← encode_count]
  refine ⟨exec_count_of_locked hl sym, fun hf ht => ?full, fun hf ht => ?room⟩
  case full => exact exec_count_of_full hl sym (ne_true_of_eq_false hf) ht
  case room =>
    refine ⟨_, exec_count_of_room hl sym (ne_true_of_eq_false hf) ht, ?entry, fun k hk => ?other, rfl, rfl⟩
    case entry => exact (State.freqAt_set ..).trans (if_pos rfl)
    case other => exact (State.freqAt_set ..).trans (if_neg hk.symm)

end Sys2Proof.Machine
end

section
/-!
PROOFS. The comparison rule and the priority structure (spec/41_tree.md R131 to R133).
-/
namespace Sys2Proof.Machine

/-- Settles O28: the frequencies are compared first, and at equal ones the two kinds choose the line. -/
theorem lessFollowsTheFourLines : Obligations.LessFollowsTheFourLines := by
  intro p node x y nx ny
  refine ⟨fun hf => if_pos hf, fun hf hx hy => ?leaves, fun hf hx hy => ?internals, fun hf hx hy => ?leafFirst,
    fun hf hx hy => ?leafSecond, fun hf hk => ?empty⟩
  all_goals refine (if_neg (not_not_intro hf)).trans ?_
  case empty =>
    rcases hk with hk | hk
    · rw [hk]
    · rw [hk]
      cases (nodeGet p node x).kind <;> rfl
  all_goals rw [hx, hy]

section
variable {p : Params} {node : Store NodeEntry} {x y : Nat} (hx : (nodeGet p node x).kind ≠ .empty)
  (hy : (nodeGet p node y).kind ≠ .empty)
include hx hy

theorem less_eq_true_iff : less p node x y = some true ↔ keyLt (orderKey p node x) (orderKey p node y) := by
  obtain ⟨b, hb, hiff⟩ := less_eq_some hx hy
  rw [hb, Option.some_inj, hiff]

theorem less_eq_false_iff : less p node x y = some false ↔ ¬keyLt (orderKey p node x) (orderKey p node y) := by
  obtain ⟨b, hb, hiff⟩ := less_eq_some hx hy
  rw [hb, Option.some_inj, ← hiff, Bool.not_eq_true]

end

theorem keyLt_asymm {a b : Nat × Nat × Nat} (h : keyLt a b) : ¬keyLt b a := fun h' => keyLt_irrefl a (keyLt_trans h h')

/-- Settles O29: `Less` is the lexicographic order of the keys of R132, which distinct members do not share. -/
theorem lessIsAStrictTotalOrder : Obligations.LessIsAStrictTotalOrder := by
  intro p node q hkind hsym
  refine ⟨fun x hx => ?irreflexive, fun x hx y hy hne => ?total, fun x hx y hy z hz hxy hyz => ?transitive⟩
  case irreflexive => exact (less_eq_false_iff (hkind x hx) (hkind x hx)).mpr (keyLt_irrefl _)
  case total =>
    have hxk := hkind x hx
    have hyk := hkind y hy
    rw [less_eq_true_iff hxk hyk, less_eq_true_iff hyk hxk, less_eq_false_iff hxk hyk, less_eq_false_iff hyk hxk]
    have hkeys : orderKey p node x ≠ orderKey p node y := mt (orderKey_injective hxk hyk (hsym x hx y hy)) hne
    exact (keyLt_total hkeys).imp (fun h => ⟨h, keyLt_asymm h⟩) fun h => ⟨keyLt_asymm h, h⟩
  case transitive =>
    have hlt := keyLt_trans ((less_eq_true_iff (hkind x hx) (hkind y hy)).mp hxy)
      ((less_eq_true_iff (hkind y hy) (hkind z hz)).mp hyz)
    exact (less_eq_true_iff (hkind x hx) (hkind z hz)).mpr hlt

/-- Settles O30: no member sorts before the one taken out, and `Less` is total. -/
theorem dequeueTakesTheOneMinimum : Obligations.DequeueTakesTheOneMinimum := by
  intro p node q hq _ hkind hsym
  obtain ⟨m, hdeq, hm, hleast⟩ := dequeue_spec hq hkind
  refine ⟨m, hdeq, hm, fun y hy hne => ?_⟩
  obtain ⟨-, htotal, -⟩ := lessIsAStrictTotalOrder p node q hkind hsym
  rcases htotal y hy m hm hne with ⟨hlt, -⟩ | ⟨-, hlt⟩
  · exact absurd ((less_eq_true_iff (hkind y hy) (hkind m hm)).mp hlt) (hleast y hy)
  · exact hlt

end Sys2Proof.Machine
end

section
/-!
PROOFS. What a well-formed tree is, and adopting one (spec/41_tree.md R137, R138).
-/
namespace Sys2Proof.Machine

/-- What R137 asks of a node that a path reaches: a leaf with a count, or a sum of two lower nodes. -/
def State.NodeOk (s : State) (i : Nat) : Prop :=
  ((s.nodeAt i).kind = .leaf ∧ 0 < (s.nodeAt i).freq) ∨
  ((s.nodeAt i).kind = .internal ∧ (s.nodeAt i).left < i ∧ (s.nodeAt i).right < i ∧
    (s.nodeAt i).freq = (s.nodeAt (s.nodeAt i).left).freq + (s.nodeAt (s.nodeAt i).right).freq)

/-- No two paths from `r` reach leaves of the same symbol. -/
def State.PathsDistinct (s : State) (r : Nat) : Prop :=
  ∀ p q i j, s.follow r p = some i → (s.nodeAt i).kind = .leaf → s.follow r q = some j → (s.nodeAt j).kind = .leaf →
    (s.nodeAt i).sym = (s.nodeAt j).sym → p = q

theorem Subtree.nodeOk {s : State} {i : Nat} {syms : List Nat} (h : Subtree s.nodeAt i syms) : s.NodeOk i := by
  cases h with
  | leaf hk hf => exact .inl ⟨hk, Nat.pos_of_ne_zero hf⟩
  | internal hk hl hr _ _ hf => exact .inr ⟨hk, hl, hr, hf⟩

theorem State.follow_of_internal {s : State} {i : Nat} (hk : (s.nodeAt i).kind = .internal) (b : Bool) (p : Bits) :
    s.follow i (b :: p) = s.follow (s.child i b) p := if_pos hk

/-- Where every path stays in nodes as R137 asks there is a tree, as the children have lower indices. -/
theorem State.exists_subtree {s : State} (i : Nat) (h : ∀ p j, s.follow i p = some j → s.NodeOk j) :
    ∃ syms, Subtree s.nodeAt i syms := by
  induction i using Nat.strong_induction_on with
  | _ i ih =>
    rcases h [] i rfl with ⟨hk, hf⟩ | ⟨hk, hl, hr, hf⟩
    · exact ⟨_, .leaf hk hf.ne'⟩
    · have hchild (b : Bool) (p : Bits) (j : Nat) (hp : s.follow (s.child i b) p = some j) : s.NodeOk j :=
        h (b :: p) j ((State.follow_of_internal hk b p).trans hp)
      obtain ⟨a, ha⟩ := ih _ hl (hchild false)
      obtain ⟨b, hb⟩ := ih _ hr (hchild true)
      exact ⟨a ++ b, .internal hk hl hr ha hb hf⟩

theorem State.PathsDistinct.child {s : State} {i : Nat} (h : s.PathsDistinct i) (hk : (s.nodeAt i).kind = .internal)
    (b : Bool) : s.PathsDistinct (s.child i b) := fun p q l m hp hl hq hm hsym =>
  (List.cons.inj (h (b :: p) (b :: q) l m ((State.follow_of_internal hk b p).trans hp) hl
    ((State.follow_of_internal hk b q).trans hq) hm hsym)).2

/-- A symbol at two leaves has two paths: they part at the node that heads both. -/
theorem Subtree.nodup {s : State} {i : Nat} {syms : List Nat} (h : Subtree s.nodeAt i syms) :
    s.PathsDistinct i → syms.Nodup := by
  induction h with
  | leaf => exact fun _ => List.nodup_singleton _
  | @internal i a b hk _ _ ha hb _ iha ihb =>
    intro hpaths
    refine List.nodup_append'.mpr ⟨iha (hpaths.child hk false), ihb (hpaths.child hk true), fun sym hsa hsb => ?_⟩
    obtain ⟨p, l, hp, hl, hlsym⟩ := ha.exists_path sym hsa
    obtain ⟨q, m, hq, hm, hmsym⟩ := hb.exists_path sym hsb
    have hpq := hpaths (false :: p) (true :: q) l m ((State.follow_of_internal hk _ p).trans hp) hl
      ((State.follow_of_internal hk _ q).trans hq) hm (hlsym.trans hmsym.symm)
    exact nomatch hpq

/-- Settles O60: the walk accepts the trees with distinct symbols, and paths tell such a tree. -/
theorem wellFormedTreeAcceptsExactlyTheTrees : Obligations.WellFormedTreeAcceptsExactlyTheTrees := by
  intro s r
  refine State.wellFormedTree_iff.trans (and_congr_right fun _ => ⟨?accepted, ?tree⟩)
  case accepted =>
    rintro ⟨syms, htree, hn⟩
    refine ⟨fun p i hp => ?_, fun p q i j hp hi hq hj hsym => htree.path_unique hn hp hi hq hj hsym⟩
    obtain ⟨sub, hsub, -⟩ := htree.follow hp
    exact hsub.nodeOk
  case tree =>
    rintro ⟨hnodes, hpaths⟩
    obtain ⟨syms, htree⟩ := State.exists_subtree r hnodes
    exact ⟨syms, htree, htree.nodup hpaths⟩

/-- Settles O36: the one check of `ADOPT` is the walk of R137. -/
theorem adoptTakesExactlyTheWellFormedTrees : Obligations.AdoptTakesExactlyTheWellFormedTrees := by
  intro s node hl
  rw [← encode_adopt]
  refine ⟨fun htree => ?taken, fun htree => ?refused⟩
  case taken =>
    have hexec : exec (.adopt node) s = .next { s with root := node.toNat, treeValid := true }.bookClear.decodeRewind :=
      (whenLive_of_live hl _).trans (if_pos htree)
    exact ⟨_, hexec, fun _ => rfl, rfl⟩
  case refused => exact (whenLive_of_live hl _).trans (if_neg (ne_true_of_eq_false htree))

end Sys2Proof.Machine
end

section
/-!
PROOFS. The nodes `BUILD` makes and what becomes of its priority structure (spec/41_tree.md R133, R134).
-/
namespace Sys2Proof.Machine

/-! ## Runs of merges -/

/-- The node that joins `a` and `b`, `a` to the left (R134 step 4). -/
def joined (p : Params) (node : Store NodeEntry) (a b : Nat) : NodeEntry :=
  { kind := .internal, freq := (nodeGet p node a).freq + (nodeGet p node b).freq, sym := 0, left := a, right := b }

/-- A merge takes a node out twice and creates the node that joins the two. -/
theorem mergeOnce_cases {p : Params} {f g : Forest} (h : mergeOnce p f = some g) :
    ∃ a b q1 q2, dequeue p f.node f.queue = some (a, q1) ∧ dequeue p f.node q1 = some (b, q2) ∧
      g = f.create q2 (joined p f.node a b) := by
  unfold mergeOnce at h
  split at h
  · exact nomatch h
  · next a q1 ha =>
    split at h
    · exact nomatch h
    · next b q2 hb => exact ⟨a, b, q1, q2, ha, hb, (Option.some.inj h).symm⟩

/-- What every merge keeps holds when the merges end. -/
theorem mergeAll_keeps {p : Params} {P : Forest → Prop}
    (hkeeps : ∀ f g, 2 ≤ f.queue.length → mergeOnce p f = some g → P f → P g) {k : Nat} {f g : Forest}
    (h : mergeAll p k f = some g) (hf : P f) : P g := by
  induction k generalizing f with
  | zero => exact Option.some.inj h ▸ hf
  | succ k ih =>
    rw [mergeAll] at h
    split at h
    · exact Option.some.inj h ▸ hf
    · next hq =>
      split at h
      · exact nomatch h
      · next u hu => exact ih h (hkeeps f u (not_le.mp hq) hu hf)

/-! ## Good forests -/

theorem Subtree.eq_singleton_of_leaf {nd : Nat → NodeEntry} {i : Nat} {syms : List Nat} (h : Subtree nd i syms)
    (hk : (nd i).kind = .leaf) : syms = [(nd i).sym] := by
  cases h with
  | leaf => rfl
  | internal hk' => exact nomatch hk.symm.trans hk'

section
variable {p : Params} {n total : Nat} {symbols : List Nat} {f : Forest} {syms : Nat → List Nat}
  (h : f.Good p n total symbols syms)
include h

/-- No symbol is at two leaves of the priority structure: the trees there share no symbol. -/
theorem Forest.Good.eq_of_sym_eq (hn : symbols.Nodup) {x y : Nat} (hx : x ∈ f.queue) (hy : y ∈ f.queue)
    (hkx : (nodeGet p f.node x).kind = .leaf) (hky : (nodeGet p f.node y).kind = .leaf)
    (hsym : (nodeGet p f.node x).sym = (nodeGet p f.node y).sym) : x = y := by
  by_contra hne
  obtain ⟨-, hdisjoint⟩ := List.nodup_flatMap.mp (h.leaves.nodup_iff.mpr hn)
  have : Std.Symm (Function.onFun List.Disjoint syms) := ⟨fun _ _ hd => List.Disjoint.symm hd⟩
  have hxy : List.Disjoint (syms x) (syms y) := hdisjoint.forall hx hy hne
  rw [(h.trees x hx).eq_singleton_of_leaf hkx, (h.trees y hy).eq_singleton_of_leaf hky] at hxy
  exact hxy (List.mem_singleton_self _) (List.mem_singleton.mpr hsym)

/-- Dequeuing from some of the trees of a good forest takes out the one that sorts before the others. -/
theorem Forest.Good.dequeue_eq (hn : symbols.Nodup) {q q' : List Nat} {m : Nat} (hq : q.Sublist f.queue)
    (hd : dequeue p f.node q = some (m, q')) :
    q' = q.erase m ∧ m ∈ q ∧ ∀ j ∈ q, j ≠ m → less p f.node m j = some true := by
  have hne : q ≠ [] := by
    rintro rfl
    exact nomatch hd
  obtain ⟨r, hr, hmem, hleast⟩ := dequeueTakesTheOneMinimum p f.node q hne (h.distinct.sublist hq)
    (fun x hx => h.entries x (h.below x (hq.subset hx)))
    fun x hx y hy hkx hky hsym => h.eq_of_sym_eq hn (hq.subset hx) (hq.subset hy) hkx hky hsym
  obtain ⟨rfl, rfl⟩ := Prod.mk.inj (Option.some.inj (hd.symm.trans hr))
  exact ⟨rfl, hmem, hleast⟩

/-- A merge joins the least tree of a good forest with the least of the rest. -/
theorem Forest.Good.mergeOnce_least (hn : symbols.Nodup) {g : Forest} (hm : mergeOnce p f = some g) :
    ∃ a b, a ∈ f.queue ∧ b ∈ f.queue ∧ a ≠ b ∧
      (∀ j ∈ f.queue, j ≠ a → less p f.node a j = some true) ∧
      (∀ j ∈ f.queue, j ≠ a → j ≠ b → less p f.node b j = some true) ∧
      g = f.create ((f.queue.erase a).erase b) (joined p f.node a b) := by
  obtain ⟨a, b, q1, q2, ha, hb, rfl⟩ := mergeOnce_cases hm
  obtain ⟨rfl, hamem, haleast⟩ := h.dequeue_eq hn (List.Sublist.refl _) ha
  obtain ⟨rfl, hbmem, hbleast⟩ := h.dequeue_eq hn List.erase_sublist hb
  simp only [h.distinct.mem_erase_iff] at hbmem hbleast
  exact ⟨a, b, hamem, hbmem.2, hbmem.1.symm, haleast, fun j hj hja hjb => hbleast j ⟨hja, hj⟩ hjb, rfl⟩

theorem Forest.Good.nodeGet_of_seq_le {k : Nat} (hk : f.seq ≤ k) : nodeGet p f.node k = NodeEntry.blank := by
  unfold nodeGet
  rw [Store.get_of_notMem fun e he => ((h.fresh e he).trans_le hk).ne, ite_self]

/-- The merges end with no tree where there was no leaf, else with the tree of the node made last. -/
theorem Forest.Good.queue_eq (hlen : f.queue.length = min 1 n) :
    f.seq = 2 * n - 1 ∧ f.queue = if 0 < n then [2 * n - 2] else [] := by
  have hsize := h.size
  refine ⟨by omega, ?_⟩
  split
  · next hn =>
    obtain ⟨r, hr⟩ := List.length_eq_one_iff.mp (hlen.trans (min_eq_left hn))
    have hbelow := h.below r (by simp [hr])
    have hlast := h.last
    simp only [hr, List.length_singleton, List.mem_singleton, List.cons_ne_nil, false_or] at hlast
    rw [hr]
    congr 1
    omega
  · next hn => exact List.length_eq_zero_iff.mp (by omega)

end

/-! ## The history of the nodes -/

/-- Node `k` joins the node that sorts before all others in the priority structure with the one that sorts before all the
rest (R134 step 4). -/
def State.JoinsTheTwoLeast (t : State) (k : Nat) : Prop :=
  ∃ a b, t.nodeAt k =
      { kind := .internal, freq := (t.nodeAt a).freq + (t.nodeAt b).freq, sym := 0, left := a, right := b } ∧
    a ≠ b ∧ Claims.Queued t k a ∧ Claims.Queued t k b ∧
    (∀ j, Claims.Queued t k j → j ≠ a → Claims.Before t a j) ∧
    (∀ j, Claims.Queued t k j → j ≠ a → j ≠ b → Claims.Before t b j)

/-- Which nodes are in the priority structure is read off the nodes made before. -/
theorem queued_congr {t u : State} {k : Nat} (h : ∀ j < k, u.nodeAt j = t.nodeAt j) (j : Nat) :
    Claims.Queued u k j ↔ Claims.Queued t k j :=
  and_congr_right fun _ => forall₂_congr fun m hm => by rw [h m hm]

/-- `Less` compares two entries and their indices. -/
theorem before_congr {t u : State} {x y : Nat} (hx : u.nodeAt x = t.nodeAt x) (hy : u.nodeAt y = t.nodeAt y) :
    Claims.Before u x y ↔ Claims.Before t x y := by
  unfold State.nodeAt at hx hy
  unfold Claims.Before less
  rw [hx, hy]

/-- How a node was made is read off the nodes up to it. -/
theorem State.JoinsTheTwoLeast.congr {t u : State} {k : Nat} (h : t.JoinsTheTwoLeast k)
    (hat : ∀ j ≤ k, u.nodeAt j = t.nodeAt j) : u.JoinsTheTwoLeast k := by
  obtain ⟨a, b, hk, hne, ha, hb, hleast, hnext⟩ := h
  have hqueued := queued_congr fun j hj => hat j (le_of_lt hj)
  have hnode {j : Nat} (hj : Claims.Queued t k j) : u.nodeAt j = t.nodeAt j := hat j hj.1.le
  refine ⟨a, b, ?_, hne, (hqueued a).mpr ha, (hqueued b).mpr hb, fun j hj hja => ?_, fun j hj hja hjb => ?_⟩
  · rw [hat k le_rfl, hnode ha, hnode hb, hk]
  · have hj := (hqueued j).mp hj
    exact (before_congr (hnode ha) (hnode hj)).mpr (hleast j hj hja)
  · have hj := (hqueued j).mp hj
    exact (before_congr (hnode hb) (hnode hj)).mpr (hnext j hj hja hjb)

/-- The nodes of `t` below `k` are those that `BUILD` makes from the counts of `s`. -/
structure State.Built (s t : State) (k : Nat) : Prop where
  leaf : ∀ (i : Nat) (h : i < (Claims.counted s).length), t.nodeAt i =
    { kind := .leaf, freq := s.freqAt ((Claims.counted s)[i]), sym := (Claims.counted s)[i], left := 0, right := 0 }
  joins : ∀ i, (Claims.counted s).length ≤ i → i < k → t.JoinsTheTwoLeast i

/-- A node that is not a leaf has children made before it. -/
theorem State.Built.children_lt {s t : State} {k : Nat} (h : s.Built t k) {i : Nat} (hi : i < k)
    (hk : (t.nodeAt i).kind = .internal) : (t.nodeAt i).left < i ∧ (t.nodeAt i).right < i := by
  by_cases hleaf : i < (Claims.counted s).length
  · rw [h.leaf i hleaf] at hk
    exact nomatch hk
  · obtain ⟨a, b, hnode, -, ha, hb, -⟩ := h.joins i (not_lt.mp hleaf) hi
    rw [hnode]
    exact ⟨ha.1, hb.1⟩

/-- Making an internal node takes its children out of the priority structure and puts the node in (R134 step 4). -/
theorem State.Built.queued_succ {s t : State} {k : Nat} (h : s.Built t (k + 1)) (hk : (t.nodeAt k).kind = .internal)
    (j : Nat) : Claims.Queued t (k + 1) j ↔
      j = k ∨ (j ≠ (t.nodeAt k).left ∧ j ≠ (t.nodeAt k).right ∧ Claims.Queued t k j) := by
  constructor
  · rintro ⟨hj, hfree⟩
    by_cases hjk : j = k
    · exact .inl hjk
    · obtain ⟨hl, hr⟩ := hfree k (Nat.lt_succ_self k) hk
      exact .inr ⟨hl.symm, hr.symm, by omega, fun m hm => hfree m (Nat.lt_succ_of_lt hm)⟩
  · rintro (rfl | ⟨hl, hr, hj, hfree⟩)
    · refine ⟨Nat.lt_succ_self j, fun m hm hkind => ?_⟩
      obtain ⟨hl, hr⟩ := h.children_lt hm hkind
      omega
    · refine ⟨Nat.lt_succ_of_lt hj, fun m hm hkind => ?_⟩
      rcases Nat.lt_succ_iff_lt_or_eq.mp hm with hm | rfl
      · exact hfree m hm hkind
      · exact ⟨hl.symm, hr.symm⟩

/-! ## Forests with their history -/

/-- The state with the nodes `BUILD` has made so far. -/
def State.withNodes (s : State) (f : Forest) : State := { s with node := f.node }

theorem State.withNodes_nodeAt (s : State) (f : Forest) (i : Nat) :
    (s.withNodes f).nodeAt i = nodeGet s.params f.node i := rfl

theorem State.withNodes_create_self {s : State} {f : Forest} (hseq : f.seq < s.params.nodeMax) (q : List Nat)
    (e : NodeEntry) : (s.withNodes (f.create q e)).nodeAt f.seq = e :=
  (nodeGet_set ..).trans (if_pos ⟨rfl, hseq⟩)

theorem State.withNodes_create_of_lt {f : Forest} {i : Nat} (hi : i < f.seq) (s : State) (q : List Nat) (e : NodeEntry) :
    (s.withNodes (f.create q e)).nodeAt i = (s.withNodes f).nodeAt i :=
  (nodeGet_set ..).trans (if_neg fun h => hi.ne' h.1)

/-- `BUILD` made the nodes of `f` as R134 says, and the queue of `f` is the priority structure. -/
structure Forest.Traced (s : State) (f : Forest) : Prop where
  planted : (Claims.counted s).length ≤ f.seq
  built : s.Built (s.withNodes f) f.seq
  queue : ∀ j, j ∈ f.queue ↔ Claims.Queued (s.withNodes f) f.seq j

theorem lt_nodeMax {p : Params} {i : Nat} (h : i < p.nsym) : i < p.nodeMax := by
  unfold Params.nodeMax
  omega

/-- Before the first merge the nodes are the leaves, and all of them are in the priority structure. -/
theorem plantLeaves_traced (s : State) : (plantLeaves s.freqAt (List.range s.params.nsym)).Traced s := by
  have hgood := plantLeaves_good s.params s.freqAt
  obtain ⟨hseq, hqueue, -, -, hget⟩ := plantLeaves_spec s.freqAt (List.range s.params.nsym)
  set f := plantLeaves s.freqAt (List.range s.params.nsym)
  change f.seq = (Claims.counted s).length at hseq
  have hbound : (Claims.counted s).length ≤ s.params.nsym := hgood.bound
  have hbuilt : s.Built (s.withNodes f) f.seq :=
    { leaf := fun i hi => (if_pos (lt_nodeMax (hi.trans_le hbound))).trans (hget i hi)
      joins := fun i hge hlt => absurd hlt (by omega) }
  refine ⟨hseq.ge, hbuilt, fun j => ?_⟩
  have hmem : j ∈ f.queue ↔ j < f.seq := by rw [← List.mem_reverse, hqueue, List.mem_range, hseq]; rfl
  refine hmem.trans ⟨fun hj => ⟨hj, fun m hm hk => ?_⟩, And.left⟩
  rw [hbuilt.leaf m (hseq ▸ hm)] at hk
  exact nomatch hk

section
variable {s : State} {n total : Nat} {f : Forest} {syms : Nat → List Nat} (h : f.Traced s)
  (hgood : f.Good s.params n total (Claims.counted s) syms) (hq : 2 ≤ f.queue.length)
include h hgood hq

/-- The node a merge creates joins the two least nodes of the priority structure. -/
theorem Forest.Traced.joins_created {a b : Nat} (ha : a ∈ f.queue) (hb : b ∈ f.queue) (hne : a ≠ b)
    (hleast : ∀ j ∈ f.queue, j ≠ a → less s.params f.node a j = some true)
    (hnext : ∀ j ∈ f.queue, j ≠ a → j ≠ b → less s.params f.node b j = some true) (q : List Nat) :
    (s.withNodes (f.create q (joined s.params f.node a b))).JoinsTheTwoLeast f.seq := by
  have hnew := State.withNodes_create_self (hgood.seq_lt hq) q (joined s.params f.node a b)
  have hold {i : Nat} (hi : i < f.seq) := State.withNodes_create_of_lt hi s q (joined s.params f.node a b)
  set t := s.withNodes (f.create q (joined s.params f.node a b))
  have hqueued (j : Nat) : Claims.Queued t f.seq j ↔ j ∈ f.queue :=
    (queued_congr (fun _ => hold) j).trans (h.queue j).symm
  have hbefore {i j : Nat} (hi : i ∈ f.queue) (hj : j ∈ f.queue) (hlt : less s.params f.node i j = some true) :
      Claims.Before t i j :=
    (before_congr (hold (hgood.below i hi)) (hold (hgood.below j hj))).mpr hlt
  refine ⟨a, b, ?_, hne, (hqueued a).mpr ha, (hqueued b).mpr hb, fun j hj hja => ?_, fun j hj hja hjb => ?_⟩
  · rw [hnew, hold (hgood.below a ha), hold (hgood.below b hb)]; rfl
  · have hj := (hqueued j).mp hj
    exact hbefore ha hj (hleast j hj hja)
  · have hj := (hqueued j).mp hj
    exact hbefore hb hj (hnext j hj hja hjb)

/-- A merge adds one node to the history and replaces two members of the priority structure by it. -/
theorem Forest.Traced.merged {g : Forest} (hm : mergeOnce s.params f = some g) : g.Traced s := by
  obtain ⟨a, b, ha, hb, hne, hleast, hnext, rfl⟩ := hgood.mergeOnce_least (List.nodup_range.filter _) hm
  set q := (f.queue.erase a).erase b with hq'
  have hnew := State.withNodes_create_self (hgood.seq_lt hq) q (joined s.params f.node a b)
  have hold {i : Nat} (hi : i < f.seq) := State.withNodes_create_of_lt hi s q (joined s.params f.node a b)
  have hbuilt : s.Built (s.withNodes (f.create q (joined s.params f.node a b))) (f.seq + 1) :=
    { leaf := fun i hi => (hold (hi.trans_le h.planted)).trans (h.built.leaf i hi)
      joins := fun i hge hlt => by
        rcases Nat.lt_succ_iff_lt_or_eq.mp hlt with hlt | rfl
        · exact (h.built.joins i hge hlt).congr fun j hj => hold (hj.trans_lt hlt)
        · exact h.joins_created hgood hq ha hb hne hleast hnext q }
  refine ⟨h.planted.trans (Nat.le_succ _), hbuilt, fun j => ?_⟩
  have hmem : j ∈ q ↔ j ≠ b ∧ j ≠ a ∧ j ∈ f.queue := by
    rw [hq', (hgood.distinct.erase a).mem_erase_iff, hgood.distinct.mem_erase_iff]
  calc j ∈ f.seq :: q
    _ ↔ j = f.seq ∨ (j ≠ a ∧ j ≠ b ∧ Claims.Queued (s.withNodes f) f.seq j) := by
      rw [List.mem_cons, hmem, h.queue]; tauto
    _ ↔ Claims.Queued _ (f.seq + 1) j := by
      rw [hbuilt.queued_succ (congrArg NodeEntry.kind hnew), hnew, queued_congr fun _ => hold]; rfl

end

/-- What every merge keeps: the forest is good, and it was made as R134 says. -/
def Forest.Tracked (s : State) (f : Forest) : Prop :=
  (∃ syms, f.Good s.params (Claims.counted s).length s.freqSum (Claims.counted s) syms) ∧ f.Traced s

theorem Forest.Tracked.merged {s : State} {f g : Forest} (hq : 2 ≤ f.queue.length) (hm : mergeOnce s.params f = some g)
    (h : f.Tracked s) : g.Tracked s := by
  obtain ⟨⟨syms, hgood⟩, htraced⟩ := h
  obtain ⟨g', syms', hg', hgood', -⟩ := mergeOnce_spec hgood hq
  obtain rfl := Option.some.inj (hm.symm.trans hg')
  exact ⟨⟨syms', hgood'⟩, htraced.merged hgood hq hm⟩

theorem growForest_traced {s : State} {f : Forest} (h : growForest s.params s.freqAt = some f) : f.Traced s := by
  have hplanted : (plantLeaves s.freqAt (List.range s.params.nsym)).Tracked s :=
    ⟨⟨_, plantLeaves_good s.params s.freqAt⟩, plantLeaves_traced s⟩
  exact (mergeAll_keeps (fun _ _ => Forest.Tracked.merged) h hplanted).2

end Sys2Proof.Machine
end

section
/-!
PROOFS. What `BUILD` leaves (spec/41_tree.md R134 to R136, R139, R140).
-/
namespace Sys2Proof.Machine

/-- The state after `BUILD` with the nodes of the final forest `f`: of `n` leaves the node made last is the root. -/
def State.afterBuild (s : State) (f : Forest) : State :=
  s.withTree f.node (2 * (Claims.counted s).length - 1) true (2 * (Claims.counted s).length - 2)
    (decide (0 < (Claims.counted s).length))

/-- A forest that `BUILD` can end with in `s`, and what its trees hold. -/
structure Forest.Final (s : State) (f : Forest) (syms : Nat → List Nat) : Prop where
  good : f.Good s.params (Claims.counted s).length s.freqSum (Claims.counted s) syms
  traced : f.Traced s
  seq_eq : f.seq = 2 * (Claims.counted s).length - 1
  queue_eq : f.queue = if 0 < (Claims.counted s).length then [2 * (Claims.counted s).length - 2] else []

theorem Forest.Final.withForest_eq {s : State} {f : Forest} {syms : Nat → List Nat} (h : f.Final s syms) :
    s.withForest f = s.afterBuild f := by
  unfold State.withForest State.afterBuild
  rw [h.queue_eq, h.seq_eq]
  rcases Nat.eq_zero_or_pos (Claims.counted s).length with hn | hn
  · rw [hn]; rfl
  · rw [if_pos hn, decide_eq_true hn]; rfl

/-- While no error is recorded `BUILD` takes over its final forest and raises nothing (R135 item 5). -/
theorem exec_build {s : State} (hl : s.Live) : ∃ f syms, growForest s.params s.freqAt = some f ∧ f.Final s syms ∧
    exec .build s = .next (s.afterBuild f) := by
  obtain ⟨f, syms, hf, hgood, hlen⟩ := growForest_spec s.params s.freqAt
  obtain ⟨hseq, hqueue⟩ := hgood.queue_eq hlen
  have hfinal : f.Final s syms := ⟨hgood, growForest_traced hf, hseq, hqueue⟩
  refine ⟨f, syms, hf, hfinal, (whenLive_of_live hl _).trans ?_⟩
  rw [hf, ← hfinal.withForest_eq]

/-- Settles O31: a final forest exists in every state. -/
theorem buildCompletesAndKeepsWhatItDoesNotName : Obligations.BuildCompletesAndKeepsWhatItDoesNotName := by
  intro s hl
  obtain ⟨f, syms, -, -, hexec⟩ := exec_build hl
  exact ⟨_, hexec, rfl, fun _ => rfl, rfl, rfl, rfl, rfl, rfl⟩

/-- Settles O32: every merge joins the two least nodes, and the queue of the forest is the priority structure. -/
theorem buildMergesTheTwoLeastNodes : Obligations.BuildMergesTheTwoLeastNodes := by
  intro s hl
  obtain ⟨f, syms, -, hfinal, hexec⟩ := exec_build hl
  have hseq := hfinal.seq_eq
  refine ⟨by decide, _, hexec, rfl, fun _ => rfl, ?leaves, fun k hge hlt => ?merged, fun k hk => ?none, rfl, rfl, rfl⟩
  case leaves => exact hfinal.traced.built.leaf
  case merged => exact hfinal.traced.built.joins k hge (by omega)
  case none => exact hfinal.good.nodeGet_of_seq_le (by omega)

theorem mem_counted {s : State} {sym : Nat} : sym ∈ Claims.counted s ↔ sym < s.params.nsym ∧ 0 < s.freqAt sym := by
  simp [Claims.counted]

/-- Settles O33: the one tree of the final forest holds every leaf that was planted. -/
theorem buildMakesAWellFormedTree : Obligations.BuildMakesAWellFormedTree := by
  intro s hl ⟨sym, hsym, hcount⟩
  obtain ⟨f, syms, -, hfinal, hexec⟩ := exec_build hl
  have hn : 0 < (Claims.counted s).length := List.length_pos_of_mem (mem_counted.mpr ⟨hsym, hcount⟩)
  have hgood := hfinal.good
  have hqueue := hfinal.queue_eq.trans (if_pos hn)
  set r := 2 * (Claims.counted s).length - 2
  have htree : Subtree (s.afterBuild f).nodeAt r (syms r) := hgood.trees r (by simp [hqueue])
  have hsyms : (syms r).Perm (Claims.counted s) := by simpa [hqueue] using hgood.leaves
  have hseq : f.seq ≤ s.params.nodeMax := hgood.seq_le_nodeMax (by rw [hqueue, List.length_singleton]; omega)
  have hwf : { s with node := f.node }.wellFormedTree r = true :=
    hgood.wellFormedTree (List.nodup_range.filter _) hseq hqueue
  refine ⟨_, hexec, decide_eq_true hn, State.wellFormedTree_of_eq hwf rfl rfl, ?sum, fun sym => ?leaves⟩
  case sum =>
    have hsum := hgood.sum
    rwa [hqueue, List.map_singleton, List.sum_singleton] at hsum
  case leaves =>
    rw [← mem_counted, ← hsyms.mem_iff]
    refine ⟨?_, htree.exists_path sym⟩
    rintro ⟨p, l, hp, hl, rfl⟩
    exact htree.leaf_mem hp hl

/-- Settles O34: no leaf or one leaf is planted, and nothing is left to merge. -/
theorem buildOfNoneOrOneSymbol : Obligations.BuildOfNoneOrOneSymbol := by
  intro s hl
  obtain ⟨-, t, hexec, hframe, -, hleaf, -, hblank, hseq, hroot, hvalid⟩ := buildMergesTheTwoLeastNodes s hl
  have herr : t.err = .none := by rw [hframe]; exact hl
  refine ⟨fun hnone => ⟨t, hexec, ?_⟩, fun sym hsym hcount hother => ⟨t, hexec, ?_⟩⟩
  · have hc : Claims.counted s = [] := List.eq_nil_iff_forall_not_mem.mpr fun k hk => by
      obtain ⟨hlt, hpos⟩ := mem_counted.mp hk
      exact hpos.ne' (hnone k hlt)
    rw [hc] at hseq hroot hvalid hblank
    exact ⟨hvalid, hroot, hseq, herr, fun i => hblank i (Nat.zero_le _)⟩
  · have hc : Claims.counted s = [sym] := by
      refine List.perm_singleton.mp ((List.perm_ext_iff_of_nodup (List.nodup_range.filter _) (by simp)).mpr fun k => ?_)
      rw [List.mem_singleton]
      refine mem_counted.trans ⟨fun ⟨hlt, hpos⟩ => ?_, fun hk => hk ▸ ⟨hsym, hcount⟩⟩
      exact by_contra fun hne => hpos.ne' (hother k hlt hne)
    have h0 := hleaf 0 (by simp [hc])
    simp only [hc, List.getElem_cons_zero] at h0
    rw [hc] at hseq hroot hvalid
    exact ⟨hvalid, hroot, hseq, herr, h0⟩

/-- The forest depends on the counts of the symbols only. -/
theorem growForest_congr {p : Params} {f g : Nat → Nat} (h : ∀ sym < p.nsym, f sym = g sym) :
    growForest p f = growForest p g := by
  have hplant : plantLeaves f (List.range p.nsym) = plantLeaves g (List.range p.nsym) :=
    List.foldl_ext _ _ _ fun forest sym hsym => by rw [plantLeaf, plantLeaf, h sym (List.mem_range.mp hsym)]
  unfold growForest
  rw [hplant]

/-- Settles O35: the forest and the number of leaves are read off the counts. -/
theorem buildDependsOnTheFrequenciesAlone : Obligations.BuildDependsOnTheFrequenciesAlone := by
  intro s s' hl hl' hp hfreq
  obtain ⟨f, -, hf, -, hexec⟩ := exec_build hl
  obtain ⟨f', -, hf', -, hexec'⟩ := exec_build hl'
  rw [← hp, ← growForest_congr hfreq] at hf'
  obtain rfl := Option.some.inj (hf.symm.trans hf')
  have hcounted : Claims.counted s = Claims.counted s' := by
    unfold Claims.counted
    rw [← hp]
    exact List.filter_congr fun sym hsym => by rw [hfreq sym (List.mem_range.mp hsym)]
  refine ⟨_, _, hexec, hexec', rfl, ?_⟩
  unfold State.afterBuild
  rw [hcounted]
  exact ⟨rfl, rfl, rfl⟩

end Sys2Proof.Machine
end

section
/-!
PROOFS. The book that `GENC` writes (spec/42_codebook.md R150 to R154).
-/
namespace Sys2Proof.Machine

/-- An entry of a filled book that is not valid is empty. -/
theorem fillBook_get_of_invalid {leaves : List (Nat × Bits)} {sym : Nat}
    (h : (Store.get BookEntry.blank (fillBook leaves) sym).valid = false) :
    Store.get BookEntry.blank (fillBook leaves) sym = BookEntry.blank :=
  (Store.get_eq_default_or_mem BookEntry.blank (fillBook leaves) sym).resolve_right fun hmem =>
    Bool.false_ne_true (h.symm.trans (fillBook_entry hmem).1)

/-- On a tree of one leaf the one code is the fallback `"0"` (R152). -/
theorem State.Codes_iff_of_leaf {s : State} (h : (s.nodeAt s.root).kind = .leaf) (sym : Nat) (code : Bits) :
    s.Codes sym code ↔ (sym, code) ∈ [((s.nodeAt s.root).sym, [false])] := by
  rw [State.Codes, if_pos h, List.mem_singleton, Prod.mk.injEq]

/-- On a larger tree the walk from the root meets exactly the symbols with their codes (R151). -/
theorem State.Codes_iff_mem_walk {s : State} (h : (s.nodeAt s.root).kind ≠ .leaf) {n : Nat} {leaves : List (Nat × Bits)}
    (hwalk : walk s n s.root [] = .ok leaves) (sym : Nat) (code : Bits) : s.Codes sym code ↔ (sym, code) ∈ leaves := by
  rw [State.Codes, if_neg h, walk_mem hwalk]
  simp

/-- In a state of the invariant `GENC` fills the book from the present tree: each symbol once, with its codes. -/
theorem exec_genc_of_tree {s : State} (hl : s.Live) (hs : s.Inv) (hv : s.treeValid = true) :
    ∃ leaves, exec .genc s = .next { s with book := fillBook leaves } ∧ (leaves.map Prod.fst).Nodup ∧
      ∀ sym code, s.Codes sym code ↔ (sym, code) ∈ leaves := by
  have hexec : exec .genc s = _ := (whenLive_of_live hl _).trans (if_pos hv)
  by_cases hleaf : (s.nodeAt s.root).kind = .leaf
  · exact ⟨_, hexec.trans (if_pos hleaf), List.nodup_singleton _, State.Codes_iff_of_leaf hleaf⟩
  · obtain ⟨hroot, syms, htree, hn⟩ := State.wellFormedTree_iff.mp (hs.tree hv)
    obtain ⟨leaves, hwalk, rfl⟩ := walk_ok htree [] (Nat.lt_succ_of_lt hroot)
    rw [if_neg hleaf, hwalk] at hexec
    exact ⟨leaves, hexec, hn, State.Codes_iff_mem_walk hleaf hwalk⟩

/-- Without a tree `GENC` only clears the book (R150). -/
theorem exec_genc_of_no_tree {s : State} (hl : s.Live) (hv : s.treeValid = false) :
    exec .genc s = .next s.bookClear :=
  (whenLive_of_live hl _).trans (if_neg (ne_true_of_eq_false hv))

/-- Settles O37: the book is filled from leaves with distinct symbols, so each entry shows its own leaf. -/
theorem gencWritesExactlyTheCodesOfTheTree : Obligations.GencWritesExactlyTheCodesOfTheTree := by
  refine ⟨by decide, fun s hl => ⟨fun hs hv => ?tree, fun hv => ?noTree⟩⟩
  case tree =>
    obtain ⟨leaves, hexec, hn, hcodes⟩ := exec_genc_of_tree hl hs hv
    refine ⟨_, hexec, rfl, fun sym code => ?_, fun sym => fillBook_get_of_invalid⟩
    rw [hcodes]
    exact fillBook_get_iff hn sym code
  case noTree => exact ⟨_, exec_genc_of_no_tree hl hv, rfl, State.bookClear_bookAt s⟩

end Sys2Proof.Machine
end

section
/-!
PROOFS. Packing and the stream's write side (spec/43_pack.md R160 to R165), and the decoder's rewind (spec/44_unpack.md R183).
-/
namespace Sys2Proof.Machine

/-! ## `Append` (R160) -/

theorem State.append_empty (s : State) : s.append [] = s := by simp [State.append]

theorem State.append_append (s : State) (c d : Bits) : (s.append c).append d = s.append (c ++ d) := by
  simp [State.append]

section
variable {s : State} (hl : s.Live)
include hl

/-! ## The cases of `PACK` in a live instance -/

theorem exec_pack_of_unknown {sym : BitVec 8} (hv : (s.bookAt sym.toNat).valid = false) :
    exec (.pack sym) s = .next (s.raise .unknownSymbol 0 (encode (.pack sym))) :=
  (whenLive_of_live hl _).trans (if_neg (ne_true_of_eq_false hv))

theorem exec_pack_of_full {sym : BitVec 8} (hv : (s.bookAt sym.toNat).valid = true)
    (hfull : s.params.msgCap < s.msgLen + (s.bookAt sym.toNat).code.length) :
    exec (.pack sym) s = .next (s.raise .msgOverflow 0 (encode (.pack sym))) :=
  (whenLive_of_live hl _).trans ((if_pos hv).trans (if_pos hfull))

theorem exec_pack_of_room {sym : BitVec 8} (hv : (s.bookAt sym.toNat).valid = true)
    (hroom : s.msgLen + (s.bookAt sym.toNat).code.length ≤ s.params.msgCap) :
    exec (.pack sym) s = .next (s.append (s.bookAt sym.toNat).code) :=
  (whenLive_of_live hl _).trans ((if_pos hv).trans (if_neg (not_lt.mpr hroom)))

/-! ## The cases of `PUTBIT` in a live instance -/

theorem exec_putbit_of_full (bit : Bool) (hfull : s.msgLen = s.params.msgCap) :
    exec (.putbit bit) s = .next (s.raise .msgOverflow 0 (encode (.putbit bit))) :=
  (whenLive_of_live hl _).trans (if_pos hfull)

theorem exec_putbit_of_room (bit : Bool) (hroom : s.msgLen ≠ s.params.msgCap) :
    exec (.putbit bit) s = .next (s.append [bit]) :=
  (whenLive_of_live hl _).trans (if_neg hroom)

/-! ## The rewinds in a live instance -/

theorem exec_mclr_of_live : exec .mclr s = .next { s with msg := [] }.decodeRewind := whenLive_of_live hl _

theorem exec_dstart_of_live : exec .dstart s = .next s.decodeRewind := whenLive_of_live hl _

/-- A call that packs symbols with codes that fit appends the codes in order: each `PACK` leaves the book, the capacity and
the error as they were, and the rest of the room to the symbols after it (R165). -/
theorem runCommands_packCall {syms : List (BitVec 8)} (hv : ∀ sym ∈ syms, (s.bookAt sym.toNat).valid = true)
    (hroom : s.msgLen + (syms.flatMap fun sym => (s.bookAt sym.toNat).code).length ≤ s.params.msgCap) :
    runCommands (packCall syms) s = .next (s.append (syms.flatMap fun sym => (s.bookAt sym.toNat).code)) := by
  induction syms generalizing s with
  | nil => exact congrArg _ s.append_empty.symm
  | cons sym syms ih =>
    obtain ⟨hsym, hsyms⟩ := List.forall_mem_cons.mp hv
    rw [List.flatMap_cons, List.length_append] at hroom
    have hexec : exec (.pack sym) s = .next (s.append (s.bookAt sym.toNat).code) :=
      exec_pack_of_room hl hsym (by omega)
    have hleft : (s.append (s.bookAt sym.toNat).code).msgLen +
        (syms.flatMap fun sym => (s.bookAt sym.toNat).code).length ≤ s.params.msgCap := by
      rw [State.append_msgLen]
      omega
    have hrest := ih (s := s.append (s.bookAt sym.toNat).code) hl hsyms hleft
    rw [State.append_append] at hrest
    exact (runCommands_cons_next hexec _).trans hrest

end

/-- Settles O43: the induction over the symbols, each `PACK` appending its code. -/
theorem packingASequenceAppendsItsCodesInOrder : Obligations.PackingASequenceAppendsItsCodesInOrder :=
  fun _ _ hl => runCommands_packCall hl

/-- Settles O40: the entry is tested before the room. -/
theorem packAppendsTheCode : Obligations.PackAppendsTheCode := by
  intro s sym hl
  rw [← encode_pack]
  exact ⟨exec_pack_of_unknown hl, exec_pack_of_full hl, exec_pack_of_room hl⟩

/-- Settles O41: the one test of `PUTBIT` is that of the room. -/
theorem putbitAppendsItsBit : Obligations.PutbitAppendsItsBit := by
  intro s bit hl
  rw [← encode_putbit]
  exact ⟨exec_putbit_of_room hl bit, exec_putbit_of_full hl bit⟩

/-- Settles O42: both end in `DecodeRewind`, `MCLR` after it emptied the stream. -/
theorem mclrAndDstartRewindTheDecoder : Obligations.MclrAndDstartRewindTheDecoder :=
  ⟨by decide, by decide, fun _ hl => ⟨exec_mclr_of_live hl, exec_dstart_of_live hl⟩⟩

end Sys2Proof.Machine
end

section
/-!
PROOFS. One bit of decoding and the commands of the stream's read side, case by case (spec/44_unpack.md R182, R184 to R186).
-/
namespace Sys2Proof.Machine

/-! ## The cases of `UnpackStep` (R182) -/

/-- The next bit of the stream, where it holds one. -/
theorem State.msgBit_of_getElem? {s : State} {bit : Bool} (h : s.msg[s.msgRd]? = some bit) : s.msgBit s.msgRd = bit := by
  rw [State.msgBit, List.getD_eq_getElem?_getD, h, Option.getD_some]

theorem unpackStep_of_noTree (w : Word) {s : State} (hv : s.treeValid = false) :
    unpackStep w s = .error (s.decodeFail .malformedInput 2 w) :=
  if_neg (ne_true_of_eq_false hv)

section
variable (w : Word) {s : State} (hv : s.treeValid = true)
include hv

theorem unpackStep_of_oneLeaf (hr : (s.nodeAt s.root).kind = .leaf) (ho : s.out.length ≠ s.params.outCap) :
    unpackStep w s = .ok { s with out := s.out ++ [(s.nodeAt s.root).sym], msgRd := s.msgRd + 1 } :=
  (if_pos hv).trans ((if_pos hr).trans (if_neg ho))

theorem unpackStep_of_oneLeaf_full (hr : (s.nodeAt s.root).kind = .leaf) (ho : s.out.length = s.params.outCap) :
    unpackStep w s = .error (s.decodeFail .outOverflow 0 w) :=
  (if_pos hv).trans ((if_pos hr).trans (if_pos ho))

theorem unpackStep_of_cursor_not_internal (hr : (s.nodeAt s.root).kind ≠ .leaf) (hc : (s.nodeAt s.cur).kind ≠ .internal) :
    unpackStep w s = .error (s.decodeFail .malformedInput 3 w) :=
  (if_pos hv).trans ((if_neg hr).trans (if_neg hc))

variable (hr : (s.nodeAt s.root).kind ≠ .leaf) (hc : (s.nodeAt s.cur).kind = .internal) {bit : Bool}
  (hbit : s.msgBit s.msgRd = bit)
include hr hc hbit

theorem unpackStep_of_leaf (hk : (s.nodeAt (s.child s.cur bit)).kind = .leaf) (ho : s.out.length ≠ s.params.outCap) :
    unpackStep w s =
      .ok { s with out := s.out ++ [(s.nodeAt (s.child s.cur bit)).sym], cur := s.root, msgRd := s.msgRd + 1 } := by
  subst hbit
  simp [unpackStep, hv, hr, hc, hk, State.outCnt, ho, State.emit]

theorem unpackStep_of_leaf_full (hk : (s.nodeAt (s.child s.cur bit)).kind = .leaf) (ho : s.out.length = s.params.outCap) :
    unpackStep w s = .error (s.decodeFail .outOverflow 0 w) := by
  subst hbit
  simp [unpackStep, hv, hr, hc, hk, State.outCnt, ho]

theorem unpackStep_of_internal (hk : (s.nodeAt (s.child s.cur bit)).kind = .internal) :
    unpackStep w s = .ok { s with cur := s.child s.cur bit, msgRd := s.msgRd + 1 } := by
  subst hbit
  simp [unpackStep, hv, hr, hc, hk]

theorem unpackStep_of_empty (hk : (s.nodeAt (s.child s.cur bit)).kind = .empty) :
    unpackStep w s = .error (s.decodeFail .internalFault 2 w) := by
  subst hbit
  simp [unpackStep, hv, hr, hc, hk]

end

theorem endCheck_of_atRoot (w : Word) {s : State} (h : s.cur = s.root) : endCheck w s = { s with decDone := true } :=
  if_pos h

theorem endCheck_of_not_atRoot (w : Word) {s : State} (h : s.cur ≠ s.root) :
    endCheck w s = s.decodeFail .malformedInput 1 w :=
  if_neg h

section
variable {s : State} (hl : s.Live)
include hl

/-! ## The cases of `UNPACK` in a live instance -/

theorem exec_unpack_of_illegal (h : s.decDone = true ∨ ¬s.msgRd < s.msgLen) :
    exec .unpack s = .next (s.raise .illegalCommand 3 (encode .unpack)) := by
  refine (whenLive_of_live hl _).trans ?_
  by_cases hd : s.decDone = true
  · exact if_pos hd
  · exact (if_neg hd).trans (if_neg (h.resolve_left hd))

theorem exec_unpack_of_ok (hd : s.decDone = false) (hbit : s.msgRd < s.msgLen) {t : State}
    (h : unpackStep (encode .unpack) s = .ok t) : exec .unpack s = .next t := by
  refine (whenLive_of_live hl _).trans ((if_neg (ne_true_of_eq_false hd)).trans ((if_pos hbit).trans ?_))
  rw [h]

theorem exec_unpack_of_error (hd : s.decDone = false) (hbit : s.msgRd < s.msgLen) {t : State}
    (h : unpackStep (encode .unpack) s = .error t) : exec .unpack s = .next t := by
  refine (whenLive_of_live hl _).trans ((if_neg (ne_true_of_eq_false hd)).trans ((if_pos hbit).trans ?_))
  rw [h]

/-! ## The cases of `DEND` in a live instance -/

theorem exec_dend_of_illegal (h : s.decDone = true ∨ s.msgRd ≠ s.msgLen) :
    exec .dend s = .next (s.raise .illegalCommand 3 (encode .dend)) := by
  refine (whenLive_of_live hl _).trans ?_
  by_cases hd : s.decDone = true
  · exact if_pos hd
  · exact (if_neg hd).trans (if_neg (h.resolve_left hd))

theorem exec_dend_of_end (hd : s.decDone = false) (hend : s.msgRd = s.msgLen) :
    exec .dend s = .next (endCheck (encode .dend) s) :=
  (whenLive_of_live hl _).trans ((if_neg (ne_true_of_eq_false hd)).trans (if_pos hend))

/-! ## The cases of `DRUN` in a live instance -/

theorem exec_drun_of_done (hd : s.decDone = true) : exec .drun s = .next (s.raise .illegalCommand 3 (encode .drun)) :=
  (whenLive_of_live hl _).trans (if_pos hd)

theorem exec_drun_of_loop_ok (hd : s.decDone = false) {t : State}
    (h : unpackLoop (encode .drun) (s.msgLen - s.msgRd) s = .ok t) : exec .drun s = .next (endCheck (encode .drun) t) := by
  refine (whenLive_of_live hl _).trans ((if_neg (ne_true_of_eq_false hd)).trans ?_)
  rw [h]

theorem exec_drun_of_loop_error (hd : s.decDone = false) {t : State}
    (h : unpackLoop (encode .drun) (s.msgLen - s.msgRd) s = .error t) : exec .drun s = .next t := by
  refine (whenLive_of_live hl _).trans ((if_neg (ne_true_of_eq_false hd)).trans ?_)
  rw [h]

end

/-! ## The commands with their words (R182, R184, R185, R189) -/

/-- Settles O44: the step's branches one by one, the bit known. -/
theorem unpackMovesTheCursorByOneBit : Obligations.UnpackMovesTheCursorByOneBit := by
  refine ⟨by decide, fun s bit hl hd hget hv => ?_⟩
  have hlt : s.msgRd < s.msgLen := (List.getElem?_eq_some_iff.mp hget).1
  have hbit := State.msgBit_of_getElem? hget
  have hok {t : State} := exec_unpack_of_ok hl hd hlt (t := t)
  have herror {t : State} := exec_unpack_of_error hl hd hlt (t := t)
  refine ⟨fun hr ho => ?oneLeaf, fun hr hc hk => ?move, fun hr hc hk ho => ?emit, fun hleaf ho => ?full,
    fun hr hc hk => ?fault, fun hr hc => ?cursor⟩
  case oneLeaf => exact hok (unpackStep_of_oneLeaf _ hv hr ho)
  case move => exact hok (unpackStep_of_internal _ hv hr hc hbit hk)
  case emit => exact hok (unpackStep_of_leaf _ hv hr hc hbit hk ho)
  case full =>
    by_cases hr : (s.nodeAt s.root).kind = .leaf
    · exact herror (unpackStep_of_oneLeaf_full _ hv hr ho)
    · obtain ⟨hc, hk⟩ := hleaf.resolve_left hr
      exact herror (unpackStep_of_leaf_full _ hv hr hc hbit hk ho)
  case fault => exact herror (unpackStep_of_empty _ hv hr hc hbit hk)
  case cursor => exact herror (unpackStep_of_cursor_not_internal _ hv hr hc)

/-- Settles O45: the end of the call and of the stream are tested before the tree. -/
theorem unpackRaisesWithoutABitOrATree : Obligations.UnpackRaisesWithoutABitOrATree :=
  fun _ hl => ⟨fun h => exec_unpack_of_illegal hl (h.imp_right Eq.not_lt),
    fun hd hbit hv => exec_unpack_of_error hl hd hbit (unpackStep_of_noTree _ hv)⟩

/-- Settles O46: the end of the call is tested before the stream, the cursor last. -/
theorem dendEndsTheCallAtTheRoot : Obligations.DendEndsTheCallAtTheRoot := by
  refine ⟨by decide, fun s hl => ⟨exec_dend_of_illegal hl, fun hd hend hcur => ?inside, fun hd hend hcur => ?atRoot⟩⟩
  case inside => exact (exec_dend_of_end hl hd hend).trans (congrArg _ (endCheck_of_not_atRoot _ hcur))
  case atRoot => exact (exec_dend_of_end hl hd hend).trans (congrArg _ (endCheck_of_atRoot _ hcur))

end Sys2Proof.Machine
end

section
/-!
PROOFS. `DRUN` as the remaining `UNPACK` commands and `DEND`, and decoding without a tree (spec/44_unpack.md R186, R189).
-/
namespace Sys2Proof.Machine

/-! ## `DRUN` bit by bit -/

section
variable {s : State} (hl : s.Live) (hd : s.decDone = false)
include hl hd

/-- At the end of the stream `DRUN` only makes the check of `DEND`. -/
theorem exec_drun_of_end (hend : s.msgLen ≤ s.msgRd) : exec .drun s = .next (endCheck (encode .drun) s) :=
  exec_drun_of_loop_ok hl hd (by rw [Nat.sub_eq_zero_of_le hend, unpackLoop])

/-- After a step that succeeds `DRUN` goes on as it would from the state the step leaves. -/
theorem exec_drun_of_step_ok (hbit : s.msgRd < s.msgLen) {t : State} (h : unpackStep (encode .drun) s = .ok t) :
    exec .drun s = exec .drun t := by
  obtain ⟨ht, -⟩ := unpackStep_ok h
  have hlt : t.Live := by rw [ht]; exact hl
  have hdt : t.decDone = false := by rw [ht]; exact hd
  have hleft : t.msgLen - t.msgRd = s.msgLen - (s.msgRd + 1) := by rw [ht]; rfl
  have hloop : unpackLoop (encode .drun) (s.msgLen - s.msgRd) s =
      unpackLoop (encode .drun) (t.msgLen - t.msgRd) t := by
    rw [hleft, show s.msgLen - s.msgRd = s.msgLen - (s.msgRd + 1) + 1 by omega, unpackLoop, h]
  cases hrest : unpackLoop (encode .drun) (t.msgLen - t.msgRd) t with
  | ok u => rw [exec_drun_of_loop_ok hl hd (hloop.trans hrest), exec_drun_of_loop_ok hlt hdt hrest]
  | error u => rw [exec_drun_of_loop_error hl hd (hloop.trans hrest), exec_drun_of_loop_error hlt hdt hrest]

theorem exec_drun_of_step_error (hbit : s.msgRd < s.msgLen) {t : State} (h : unpackStep (encode .drun) s = .error t) :
    exec .drun s = .next t :=
  exec_drun_of_loop_error hl hd
    (by rw [show s.msgLen - s.msgRd = s.msgLen - (s.msgRd + 1) + 1 by omega, unpackLoop, h])

end

/-! ## The commands that `DRUN` stands for -/

/-- The remaining `n` `UNPACK` commands followed by `DEND` (R186). -/
def unpackCall (n : Nat) : List Instr := List.replicate n .unpack ++ [.dend]

/-- What `DRUN` leaves where single commands leave `u`: the word of an error is its own (R186). -/
def State.asDrun (u : State) : State := if u.err = .none then u else { u with errInfo := encode .drun }

theorem State.asDrun_of_live {u : State} (h : u.Live) : u.asDrun = u := if_pos h

theorem State.asDrun_decodeFail {e : ErrCode} (he : e ≠ .none) (s : State) (sub : BitVec 4) (w : Word) :
    (s.decodeFail e sub w).asDrun = s.decodeFail e sub (encode .drun) := if_neg he

theorem endCheck_asDrun {s : State} (hl : s.Live) (w : Word) : (endCheck w s).asDrun = endCheck (encode .drun) s := by
  by_cases hcur : s.cur = s.root
  · rw [endCheck_of_atRoot _ hcur, endCheck_of_atRoot _ hcur]
    exact State.asDrun_of_live hl
  · rw [endCheck_of_not_atRoot _ hcur, endCheck_of_not_atRoot _ hcur]
    exact State.asDrun_decodeFail (by simp) ..

/-- Once an `UNPACK` has raised, the commands after it are ignored (R222). -/
theorem runCommands_unpackCall_of_frozen {s : State} (hl : ¬s.Live) (n : Nat) :
    runCommands (unpackCall n) s = .next s := by
  have hunpack : exec .unpack s = .next s := whenLive_of_frozen hl _
  have hdend : exec .dend s = .next s := whenLive_of_frozen hl _
  induction n with
  | zero => exact runCommands_cons_next hdend []
  | succ n ih => exact (runCommands_cons_next hunpack (unpackCall n)).trans ih

/-- One `UNPACK` does what one turn of the loop does, and at the end of the stream `DEND` makes the check of `DRUN`. -/
theorem exec_drun_eq_unpackCall (n : Nat) : ∀ {s : State}, s.Live → s.decDone = false → s.msgRd + n = s.msgLen →
    ∃ u, runCommands (unpackCall n) s = .next u ∧ exec .drun s = .next u.asDrun := by
  induction n with
  | zero =>
    intro s hl hd hn
    refine ⟨_, runCommands_cons_next (exec_dend_of_end hl hd hn) [], ?_⟩
    rw [exec_drun_of_end hl hd hn.ge, endCheck_asDrun hl]
  | succ n ih =>
    intro s hl hd hn
    have hbit : s.msgRd < s.msgLen := by omega
    rcases unpackStep_word s (encode .unpack) (encode .drun) with ⟨t, hunpack, hdrun⟩ | ⟨e, sub, he, hunpack, hdrun⟩
    · obtain ⟨ht, -⟩ := unpackStep_ok hunpack
      have hleft : t.msgRd + n = t.msgLen := by
        rw [ht]
        exact (by omega : s.msgRd + 1 + n = s.msgLen)
      obtain ⟨u, hrun, hexec⟩ := ih (by rw [ht]; exact hl) (by rw [ht]; exact hd) hleft
      exact ⟨u, (runCommands_cons_next (exec_unpack_of_ok hl hd hbit hunpack) (unpackCall n)).trans hrun,
        (exec_drun_of_step_ok hl hd hbit hdrun).trans hexec⟩
    · have hfrozen : ¬(s.decodeFail e sub (encode .unpack)).Live := he
      refine ⟨_, (runCommands_cons_next (exec_unpack_of_error hl hd hbit hunpack) (unpackCall n)).trans
        (runCommands_unpackCall_of_frozen hfrozen n), ?_⟩
      rw [exec_drun_of_step_error hl hd hbit hdrun, State.asDrun_decodeFail he]

/-- Settles O47: the induction over the bits that are left. -/
theorem drunIsTheUnpacksAndDend : Obligations.DrunIsTheUnpacksAndDend :=
  ⟨by decide, fun _ hl => ⟨fun hd hrd => exec_drun_eq_unpackCall _ hl hd (Nat.add_sub_of_le hrd), exec_drun_of_done hl⟩⟩

/-! ## Decoding without a tree (R189) -/

/-- `DSTART` and the commands after it: the decoder is rewound and the rest runs from there. -/
theorem runCommands_dstart {s : State} (hl : s.Live) (l : List Instr) :
    runCommands (.dstart :: l) s = runCommands l s.decodeRewind :=
  runCommands_cons_next (exec_dstart_of_live hl) l

/-- Settles O49: with no bit only the check is made, with one the first step fails. -/
theorem decodeWithoutATree : Obligations.DecodeWithoutATree := by
  intro s hl hv hroot
  have hrewound : s.decodeRewind.Live := hl
  have heq : s.decodeRewind = { s with msgRd := 0, out := [], decDone := false, cur := 0 } := by
    rw [State.decodeRewind, hroot]
  refine ⟨fun hmsg => ?empty, fun hmsg => ?bit⟩
  case empty =>
    have hend : s.decodeRewind.msgRd = s.decodeRewind.msgLen := (congrArg List.length hmsg).symm
    have hcheck (w : Word) : endCheck w s.decodeRewind = { s with msgRd := 0, out := [], decDone := true, cur := 0 } := by
      rw [endCheck_of_atRoot w rfl, heq]
    constructor
    · rw [decodeCall, runCommands_dstart hl, runCommands_cons_next (exec_drun_of_end hrewound rfl hend.ge), hcheck,
        runCommands_nil]
    · rw [runCommands_dstart hl, runCommands_cons_next (exec_dend_of_end hrewound rfl hend), hcheck, runCommands_nil]
  case bit =>
    have hbit : s.decodeRewind.msgRd < s.decodeRewind.msgLen := List.length_pos_iff.mpr hmsg
    rw [decodeCall, runCommands_dstart hl,
      runCommands_cons_next (exec_drun_of_step_error hrewound rfl hbit (unpackStep_of_noTree _ hv)), heq]
    rfl

end Sys2Proof.Machine
end

section
/-!
PROOFS. `DRUN` decodes the codes of a symbol sequence (spec/44_unpack.md R180, R182, R186, R187).
-/
namespace Sys2Proof.Machine

/-- `n` bits taken and the symbols of `syms` put out, the cursor at the root. -/
def State.decoded (s : State) (syms : List Nat) (n : Nat) : State :=
  { s with out := s.out ++ syms, cur := s.root, msgRd := s.msgRd + n }

theorem State.decoded_decoded (s : State) (a b : List Nat) (m n : Nat) :
    (s.decoded a m).decoded b n = s.decoded (a ++ b) (m + n) := by
  simp [State.decoded, Nat.add_assoc]

theorem State.decoded_nil {s : State} (hcur : s.cur = s.root) : s.decoded [] 0 = s := by
  cases s
  cases hcur
  simp [State.decoded]

/-- The bits of `bits`, read from the root, put out `sym`: its code, or any one bit in a tree of one leaf (R187). -/
def State.Decodes (s : State) (sym : Nat) (bits : Bits) : Prop :=
  if (s.nodeAt s.root).kind = .leaf then sym = (s.nodeAt s.root).sym ∧ bits.length = 1 else s.Codes sym bits

theorem State.Codes.decodes {s : State} {sym : Nat} {code : Bits} (h : s.Codes sym code) : s.Decodes sym code := by
  unfold State.Decodes
  split
  · next hr =>
    rw [State.Codes, if_pos hr] at h
    exact ⟨h.1, congrArg List.length h.2⟩
  · exact h

theorem State.Decodes.of_decoded {s : State} {sym : Nat} {bits : Bits} (h : s.Decodes sym bits) (syms : List Nat) (n : Nat) :
    (s.decoded syms n).Decodes sym bits := by
  unfold State.Decodes
  rw [State.Codes_congr (s := s) (t := s.decoded syms n) rfl rfl]
  exact h

/-- A path with an edge starts at an internal node. -/
theorem State.follow_cons_eq_some {s : State} {i l : Nat} {b : Bool} {p : Bits} (h : s.follow i (b :: p) = some l) :
    (s.nodeAt i).kind = .internal ∧ s.follow (s.child i b) p = some l := by
  rw [State.follow_cons] at h
  split at h
  · next hk => exact ⟨hk, h⟩
  · exact nomatch h

/-- The bit at the head of the rest of the stream is the next one. -/
theorem State.msgBit_of_drop {s : State} {b : Bool} {rest : Bits} (h : s.msg.drop s.msgRd = b :: rest) :
    s.msgBit s.msgRd = b :=
  State.msgBit_of_getElem? (by rw [← List.head?_drop, h, List.head?_cons])

theorem drop_succ_of_drop {α : Type} {l rest : List α} {n : Nat} {b : α} (h : l.drop n = b :: rest) :
    l.drop (n + 1) = rest := by
  rw [← List.tail_drop, h, List.tail_cons]

/-- The cursor moved to node `i` on one bit (R182). -/
def State.movedTo (s : State) (i : Nat) : State := { s with cur := i, msgRd := s.msgRd + 1 }

theorem State.follow_movedTo (s : State) (i j : Nat) (p : Bits) : (s.movedTo i).follow j p = s.follow j p :=
  State.follow_congr (s := s) (t := s.movedTo i) rfl j p

theorem State.decoded_movedTo (s : State) (i : Nat) (syms : List Nat) (n : Nat) :
    (s.movedTo i).decoded syms n = s.decoded syms (1 + n) := by
  simp [State.decoded, State.movedTo, Nat.add_assoc]

/-- From an inner node the bits of a path to a leaf move the cursor along it, and the last puts out the leaf's symbol. -/
theorem unpackLoop_of_path (w : Word) (p : Bits) : ∀ {s : State} {b : Bool} {l : Nat} {rest : Bits}, s.treeValid = true →
    (s.nodeAt s.root).kind ≠ .leaf → s.follow s.cur (b :: p) = some l → (s.nodeAt l).kind = .leaf →
    s.msg.drop s.msgRd = b :: p ++ rest → s.out.length ≠ s.params.outCap →
    unpackLoop w (p.length + 1) s = .ok (s.decoded [(s.nodeAt l).sym] (p.length + 1)) := by
  induction p with
  | nil =>
    intro s b l rest hv hr hp hl hmsg ho
    obtain ⟨hc, hchild⟩ := State.follow_cons_eq_some hp
    obtain rfl : s.child s.cur b = l := Option.some.inj hchild
    rw [List.length_nil, unpackLoop, unpackStep_of_leaf w hv hr hc (State.msgBit_of_drop hmsg) hl ho]
    rfl
  | cons b' p ih =>
    intro s b l rest hv hr hp hl hmsg ho
    obtain ⟨hc, hchild⟩ := State.follow_cons_eq_some hp
    have hk := (State.follow_cons_eq_some hchild).1
    have hstep : unpackStep w s = .ok (s.movedTo (s.child s.cur b)) :=
      unpackStep_of_internal w hv hr hc (State.msgBit_of_drop hmsg) hk
    have hrest := ih (s := s.movedTo (s.child s.cur b)) hv hr ((s.follow_movedTo ..).trans hchild) hl
      (drop_succ_of_drop hmsg) ho
    rw [State.decoded_movedTo, Nat.add_comm 1] at hrest
    rw [List.length_cons, unpackLoop, hstep]
    exact hrest

/-- From the root the bits of one symbol put it out and lead back to the root. -/
theorem unpackLoop_of_decodes (w : Word) {s : State} {sym : Nat} {bits rest : Bits} (hv : s.treeValid = true)
    (hcur : s.cur = s.root) (h : s.Decodes sym bits) (hmsg : s.msg.drop s.msgRd = bits ++ rest)
    (hroom : s.out.length < s.params.outCap) : unpackLoop w bits.length s = .ok (s.decoded [sym] bits.length) := by
  unfold State.Decodes at h
  split at h
  · next hr =>
    obtain ⟨rfl, hlen⟩ := h
    rw [hlen, unpackLoop, unpackStep_of_oneLeaf w hv hr hroom.ne, State.decoded, ← hcur]
    rfl
  · next hr =>
    rw [State.Codes, if_neg hr, ← hcur] at h
    obtain ⟨l, hp, hl, rfl⟩ := h
    cases bits with
    | nil =>
      obtain rfl : s.cur = l := Option.some.inj hp
      exact absurd (hcur ▸ hl) hr
    | cons b p => exact unpackLoop_of_path w p hv hr hp hl hmsg hroom.ne

/-- From the root the bits of a sequence of symbols put out the sequence. -/
theorem unpackLoop_of_sequence (w : Word) (coded : List (Nat × Bits)) : ∀ {s : State} {rest : Bits},
    (∀ c ∈ coded, s.treeValid = true ∧ s.Decodes c.1 c.2) → s.cur = s.root →
    s.msg.drop s.msgRd = coded.flatMap Prod.snd ++ rest → s.out.length + coded.length ≤ s.params.outCap →
    unpackLoop w (coded.flatMap Prod.snd).length s =
      .ok (s.decoded (coded.map Prod.fst) (coded.flatMap Prod.snd).length) := by
  induction coded with
  | nil =>
    intro s rest _ hcur _ _
    exact congrArg Except.ok (State.decoded_nil hcur).symm
  | cons c coded ih =>
    intro s rest h hcur hmsg hroom
    obtain ⟨⟨hv, hc⟩, hcoded⟩ := List.forall_mem_cons.mp h
    rw [List.flatMap_cons, List.append_assoc] at hmsg
    rw [List.length_cons] at hroom
    have hfirst := unpackLoop_of_decodes w hv hcur hc hmsg (by omega)
    have hleft : (s.decoded [c.1] c.2.length).msg.drop (s.decoded [c.1] c.2.length).msgRd =
        coded.flatMap Prod.snd ++ rest := by
      change s.msg.drop (s.msgRd + c.2.length) = _
      rw [← List.drop_drop, hmsg, List.drop_left]
    have hlen : (s.decoded [c.1] c.2.length).out.length = s.out.length + 1 := List.length_append
    have hrest := ih (s := s.decoded [c.1] c.2.length) (fun d hd => ⟨hv, (hcoded d hd).2.of_decoded _ _⟩) rfl hleft
      (by rw [hlen]; exact (by omega : s.out.length + 1 + coded.length ≤ s.params.outCap))
    rw [List.flatMap_cons, List.length_append, unpackLoop_add hfirst, hrest, State.decoded_decoded]
    rfl

/-- `DRUN` from the root, the rest of the stream being the bits of a sequence of symbols. -/
theorem exec_drun_of_sequence {s : State} (hl : s.Live) (hd : s.decDone = false) (hcur : s.cur = s.root)
    (hrd : s.msgRd ≤ s.msg.length) {coded : List (Nat × Bits)} (h : ∀ c ∈ coded, s.treeValid = true ∧ s.Decodes c.1 c.2)
    (hmsg : s.msg.drop s.msgRd = coded.flatMap Prod.snd) (hroom : s.out.length + coded.length ≤ s.params.outCap) :
    exec .drun s = .next { s with out := s.out ++ coded.map Prod.fst, msgRd := s.msg.length, decDone := true } := by
  have hlen : (coded.flatMap Prod.snd).length = s.msg.length - s.msgRd := by rw [← hmsg, List.length_drop]
  have hloop := unpackLoop_of_sequence (encode .drun) coded h hcur (hmsg.trans (List.append_nil _).symm) hroom
  rw [hlen] at hloop
  rw [exec_drun_of_loop_ok hl hd hloop, endCheck_of_atRoot _ rfl]
  simp only [State.decoded, Nat.add_sub_of_le hrd, ← hcur]

/-- Settles O50: the code of each symbol leads from the root to its leaf. -/
theorem drunDecodesTheCodesOfASequence : Obligations.DrunDecodesTheCodesOfASequence :=
  fun _ _ hs hl hd hv hcur hcodes hmsg hroom =>
    exec_drun_of_sequence hl hd hcur hs.taken (fun c hc => ⟨hv, (hcodes c hc).decodes⟩) hmsg hroom

/-- Settles O48: in a tree of one leaf each bit by itself puts out the leaf's symbol. -/
theorem drunOnOneLeafCopiesItsSymbolPerBit : Obligations.DrunOnOneLeafCopiesItsSymbolPerBit := by
  intro s hl hd hv hr hcur hrd hroom
  have hdecodes : ∀ c ∈ (s.msg.drop s.msgRd).map fun bit => ((s.nodeAt s.root).sym, [bit]),
      s.treeValid = true ∧ s.Decodes c.1 c.2 := by
    intro c hc
    obtain ⟨bit, -, rfl⟩ := List.mem_map.mp hc
    exact ⟨hv, (if_pos hr).mpr ⟨rfl, rfl⟩⟩
  have hbits : s.msg.drop s.msgRd =
      ((s.msg.drop s.msgRd).map fun bit => ((s.nodeAt s.root).sym, [bit])).flatMap Prod.snd := by
    rw [List.flatMap_map, List.flatMap_singleton']
  rw [exec_drun_of_sequence hl hd hcur hrd hdecodes hbits (by simpa using hroom)]
  simp [Function.comp_def]

end Sys2Proof.Machine
end

section
/-!
PROOFS. `ENCODE` then `DECODE` returns the sequence (spec/44_unpack.md R188, spec/45_system.md R205 to R207). The statement asks
nothing of the parameters, so the facts of the invariant are not at hand: what the calls need is proved of the states they
pass through.
-/
namespace Sys2Proof.Machine

/-! ## Counting a sequence -/

/-- Counting symbols that the total has room for adds to each entry the occurrences of its symbol (R120). -/
theorem runCommands_counts (syms : List (BitVec 8)) : ∀ {s : State}, s.Live → s.flock = false →
    s.total + syms.length ≤ s.params.cntMax →
    ∃ t, runCommands (syms.map .count) s = .next t ∧ t = { s with freq := t.freq, total := t.total } ∧
      ∀ k, t.freqAt k = s.freqAt k + (syms.map BitVec.toNat).count k := by
  induction syms with
  | nil => exact fun _ _ _ => ⟨_, rfl, rfl, fun _ => rfl⟩
  | cons sym syms ih =>
    intro s hl hf htotal
    rw [List.length_cons] at htotal
    have hcount := exec_count_of_room hl sym (ne_true_of_eq_false hf) (by omega)
    obtain ⟨t, hrun, hframe, hfreq⟩ :=
      ih (s := { s with freq := Store.set 0 s.freq sym.toNat (s.freqAt sym.toNat + 1), total := s.total + 1 }) hl hf
        (by omega : s.total + 1 + syms.length ≤ s.params.cntMax)
    refine ⟨t, (runCommands_cons_next hcount _).trans hrun, hframe, fun k => ?_⟩
    rw [hfreq, State.freqAt_set, List.map_cons, List.count_cons]
    by_cases hk : sym.toNat = k
    · simp only [hk, if_pos, BEq.rfl]; omega
    · simp [hk]

/-! ## Making the book -/

/-- A symbol at a leaf of the present tree has a code. -/
theorem State.exists_code {s : State} {sym : Nat}
    (h : ∃ p l, s.follow s.root p = some l ∧ (s.nodeAt l).kind = .leaf ∧ (s.nodeAt l).sym = sym) :
    ∃ code, s.Codes sym code := by
  obtain ⟨p, l, hp, hl, rfl⟩ := h
  by_cases hr : (s.nodeAt s.root).kind = .leaf
  · obtain ⟨-, rfl⟩ := State.follow_of_not_internal (by simp [hr]) hp
    exact ⟨_, (if_pos hr).mpr ⟨rfl, rfl⟩⟩
  · exact ⟨p, (if_neg hr).mpr ⟨l, hp, hl, rfl⟩⟩

/-- The state with another code book. -/
def State.withBook (s : State) (book : Store BookEntry) : State := { s with book := book }

theorem State.Codes_withBook (s : State) (book : Store BookEntry) (sym : Nat) (code : Bits) :
    (s.withBook book).Codes sym code ↔ s.Codes sym code :=
  State.Codes_congr (s := s) (t := s.withBook book) rfl rfl sym code

/-- `GENC` fills the book from a well-formed tree, whatever the rest of the state. -/
theorem exec_genc_of_wellFormedTree {s : State} (hl : s.Live) (hv : s.treeValid = true)
    (hwf : s.wellFormedTree s.root = true) :
    ∃ leaves, exec .genc s = .next (s.withBook (fillBook leaves)) ∧ (leaves.map Prod.fst).Nodup ∧
      ∀ sym code, s.Codes sym code ↔ (sym, code) ∈ leaves := by
  have hexec : exec .genc s = _ := (whenLive_of_live hl _).trans (if_pos hv)
  obtain ⟨hroot, syms, htree, hn⟩ := State.wellFormedTree_iff.mp hwf
  obtain ⟨leaves, hwalk, rfl⟩ := walk_ok htree [] (Nat.lt_succ_of_lt hroot)
  by_cases hr : (s.nodeAt s.root).kind = .leaf
  · exact ⟨_, hexec.trans (if_pos hr), List.nodup_singleton _, State.Codes_iff_of_leaf hr⟩
  · rw [if_neg hr, hwalk] at hexec
    exact ⟨leaves, hexec, hn, State.Codes_iff_mem_walk hr hwalk⟩

/-- `u` is `s` with the tree and the book made from the counts of `s`. -/
structure State.BookMade (s u : State) : Prop where
  live : u.Live
  params : u.params = s.params
  msg : u.msg = s.msg
  codes : ∀ sym, (u.bookAt sym).valid = true → u.treeValid = true ∧ u.Codes sym (u.bookAt sym).code
  valid : ∀ sym < s.params.nsym, 0 < s.freqAt sym → (u.bookAt sym).valid = true
  noTree : (∀ sym < s.params.nsym, s.freqAt sym = 0) → u.treeValid = false

/-- A filled book holds the codes of its leaves. -/
theorem State.BookMade.of_fillBook {s t : State} (hl : t.Live) (hp : t.params = s.params) (hm : t.msg = s.msg)
    (hv : t.treeValid = true) {leaves : List (Nat × Bits)} (hn : (leaves.map Prod.fst).Nodup)
    (hcodes : ∀ sym code, t.Codes sym code ↔ (sym, code) ∈ leaves)
    (hcounted : ∀ sym < s.params.nsym, 0 < s.freqAt sym → ∃ code, t.Codes sym code)
    (hsome : ∃ sym < s.params.nsym, 0 < s.freqAt sym) : s.BookMade (t.withBook (fillBook leaves)) where
  live := hl
  params := hp
  msg := hm
  codes sym hsym := by
    refine ⟨hv, (t.Codes_withBook _ sym _).mpr ((hcodes sym _).mpr ((fillBook_get_iff hn sym _).mp ?_))⟩
    rw [← hsym]
    rfl
  valid sym hsym hpos := by
    obtain ⟨code, hcode⟩ := hcounted sym hsym hpos
    exact congrArg BookEntry.valid (fillBook_get hn ((hcodes sym code).mp hcode))
  noTree hzero := by
    obtain ⟨sym, hsym, hpos⟩ := hsome
    exact absurd (hzero sym hsym) hpos.ne'

/-- `BUILD` and `GENC` make the book of the counts (R206). -/
theorem runCommands_build_genc {s : State} (hl : s.Live) :
    ∃ u, runCommands [.build, .genc] s = .next u ∧ s.BookMade u := by
  obtain ⟨t, hbuild, -, -, -, -, -, -, hframe⟩ := buildCompletesAndKeepsWhatItDoesNotName s hl
  have hlt : t.Live := by rw [hframe]; exact hl
  have hp : t.params = s.params := by rw [hframe]
  have hm : t.msg = s.msg := by rw [hframe]
  have hsame {t' : State} (h : exec .build s = .next t') : t' = t := Host.Outcome.next.inj (h.symm.trans hbuild)
  rw [runCommands_cons_next hbuild]
  by_cases hsome : ∃ sym < s.params.nsym, 0 < s.freqAt sym
  · obtain ⟨t', hbuild', hv, hwf, -, hleaves⟩ := buildMakesAWellFormedTree s hl hsome
    obtain rfl := hsame hbuild'
    obtain ⟨leaves, hgenc, hn, hcodes⟩ := exec_genc_of_wellFormedTree hlt hv hwf
    exact ⟨_, runCommands_cons_next hgenc [], .of_fillBook hlt hp hm hv hn hcodes
      (fun sym hsym hpos => State.exists_code ((hleaves sym).mpr ⟨hsym, hpos⟩)) hsome⟩
  · have hzero : ∀ sym < s.params.nsym, s.freqAt sym = 0 := fun sym hsym =>
      Nat.eq_zero_of_not_pos fun hpos => hsome ⟨sym, hsym, hpos⟩
    obtain ⟨t', hbuild', hv, -⟩ := (buildOfNoneOrOneSymbol s hl).1 hzero
    obtain rfl := hsame hbuild'
    exact ⟨_, runCommands_cons_next (exec_genc_of_no_tree hlt hv) [],
      { live := hlt
        params := hp
        msg := hm
        codes := nofun
        valid := fun sym hsym hpos => absurd (hzero sym hsym) hpos.ne'
        noTree := fun _ => hv }⟩

/-- The reset state with `IDX`, the parameters and the host's side of `s`. -/
def State.cleared (s : State) : State :=
  { State.resetWith s.params with idx := s.idx, pending := s.pending, reply := s.reply }

theorem exec_clr_of_live {s : State} (hl : s.Live) : exec .clr s = .next s.cleared :=
  if_neg fun hf : s.err = .internalFault => nomatch hl.symm.trans hf

/-- The first part of `ENCODE` makes the book of a state that counts the sequence and holds no stream. -/
theorem runCommands_bookCall {s : State} (hl : s.Live) {syms : List (BitVec 8)} (hcount : syms.length ≤ s.params.cntMax) :
    ∃ c u : State, runCommands (bookCall syms) s = .next u ∧ c.BookMade u ∧ c.params = s.params ∧ c.msg = [] ∧
      ∀ k, c.freqAt k = (syms.map BitVec.toNat).count k := by
  obtain ⟨c, hrun, hframe, hfreq⟩ :=
    runCommands_counts syms (s := s.cleared) rfl rfl ((Nat.zero_add _).trans_le hcount)
  obtain ⟨u, hbook, hmade⟩ := runCommands_build_genc (s := c) (by rw [hframe]; rfl)
  refine ⟨c, u, ?_, hmade, by rw [hframe]; rfl, by rw [hframe]; rfl, fun k => (hfreq k).trans (Nat.zero_add _)⟩
  rw [bookCall, List.append_assoc, List.singleton_append, runCommands_cons_next (exec_clr_of_live hl),
    runCommands_append_next hrun, hbook]

/-! ## The round trip -/

/-- `DECODE` of a stream that holds the bits of a sequence of symbols. -/
theorem runCommands_decodeCall {s : State} (hl : s.Live) {coded : List (Nat × Bits)}
    (h : ∀ c ∈ coded, s.treeValid = true ∧ s.Codes c.1 c.2) (hmsg : s.msg = coded.flatMap Prod.snd)
    (hout : coded.length ≤ s.params.outCap) :
    runCommands decodeCall s =
      .next { s with msgRd := s.msg.length, out := coded.map Prod.fst, decDone := true, cur := s.root } := by
  have hdecodes : ∀ c ∈ coded, s.decodeRewind.treeValid = true ∧ s.decodeRewind.Decodes c.1 c.2 := fun c hc =>
    ⟨(h c hc).1, ((State.Codes_congr (s := s) (t := s.decodeRewind) rfl rfl c.1 c.2).mpr (h c hc).2).decodes⟩
  have hdrun := exec_drun_of_sequence (s := s.decodeRewind) hl rfl rfl (Nat.zero_le _) hdecodes hmsg
    ((Nat.zero_add _).trans_le hout)
  rw [decodeCall, runCommands_dstart hl, runCommands_cons_next hdrun, runCommands_nil]
  rfl

/-- The codes that the book of `s` gives a sequence of symbols. -/
def State.bookCodes (s : State) (syms : List (BitVec 8)) : Bits := syms.flatMap fun sym => (s.bookAt sym.toNat).code

/-- Packing a sequence into the empty stream and decoding it returns the sequence, where every symbol has a code of the
present tree. -/
theorem runCommands_packCall_decodeCall {u : State} (hl : u.Live) (hmsg : u.msg = []) {syms : List (BitVec 8)}
    (hvalid : ∀ sym ∈ syms, (u.bookAt sym.toNat).valid = true)
    (hcodes : ∀ sym, (u.bookAt sym).valid = true → u.treeValid = true ∧ u.Codes sym (u.bookAt sym).code)
    (hroom : (u.bookCodes syms).length ≤ u.params.msgCap) (hout : syms.length ≤ u.params.outCap) :
    runCommands (packCall syms ++ decodeCall) u = .next { u with
      msg := u.bookCodes syms, msgRd := (u.bookCodes syms).length, out := syms.map BitVec.toNat, decDone := true,
      cur := u.root } := by
  have hempty : u.msgLen = 0 := congrArg List.length hmsg
  have hpack : runCommands (packCall syms) u = .next (u.append (u.bookCodes syms)) :=
    runCommands_packCall hl hvalid (by rw [hempty, Nat.zero_add]; exact hroom)
  have hcoded : ∀ c ∈ syms.map fun sym => (sym.toNat, (u.bookAt sym.toNat).code),
      u.treeValid = true ∧ (u.append (u.bookCodes syms)).Codes c.1 c.2 := by
    intro c hc
    obtain ⟨sym, hsym, rfl⟩ := List.mem_map.mp hc
    obtain ⟨hv, hcode⟩ := hcodes _ (hvalid sym hsym)
    exact ⟨hv, (State.Codes_congr (s := u) (t := u.append _) rfl rfl _ _).mpr hcode⟩
  have hstream : (u.append (u.bookCodes syms)).msg = u.bookCodes syms := by
    rw [State.append_msg, hmsg, List.nil_append]
  have hdecode := runCommands_decodeCall (s := u.append (u.bookCodes syms)) hl hcoded
    (by rw [hstream, List.flatMap_map]; rfl) (by rw [List.length_map]; exact hout)
  rw [runCommands_append_next hpack, hdecode, List.map_map, hstream]
  rfl

/-- Settles O51: the book of the counts holds a code of the tree for each symbol of the sequence. -/
theorem encodeThenDecodeReturnsTheSequence : Obligations.EncodeThenDecodeReturnsTheSequence := by
  intro s syms hl hsyms hcount hout
  obtain ⟨c, u, hbook, hmade, hp, hm, hfreq⟩ := runCommands_bookCall hl hcount
  have hparams : s.params = u.params := (hmade.params.trans hp).symm
  have hvalid : ∀ sym ∈ syms, (u.bookAt sym.toNat).valid = true := fun sym hsym =>
    hmade.valid _ (hp ▸ hsyms sym hsym) (by rw [hfreq]; exact List.count_pos_iff.mpr (List.mem_map_of_mem hsym))
  refine ⟨u, hbook, fun hroom => ?_⟩
  rw [← List.length_flatMap, hparams] at hroom
  rw [hparams] at hout
  have hrest := runCommands_packCall_decodeCall hmade.live (hmade.msg.trans hm) hvalid hmade.codes hroom hout
  rw [List.append_assoc, runCommands_append_next hbook]
  refine ⟨_, hrest, hmade.live, rfl, rfl, ?empty⟩
  case empty =>
    rintro rfl
    exact ⟨rfl, hmade.noTree fun sym _ => hfreq sym⟩

end Sys2Proof.Machine
end

section
/-!
PROOFS. What an error leaves of the state (spec/60_exceptions.md R221, R234, R237, spec/44_unpack.md R181, R186).
-/
namespace Sys2Proof.Machine

/-- `t` is `s` with an error that the command `i` raised, and nothing else written (R221, R237). -/
def State.RaisedBy (s : State) (i : Instr) (t : State) : Prop := t = s.raise t.err t.errSub (encode i)

/-- `t` is `s` with a decode error of the command `i`: the output is empty too (R181). -/
def State.DecodeFailedBy (s : State) (i : Instr) (t : State) : Prop :=
  t.err ≠ .illegalCommand ∧ t = s.decodeFail t.err t.errSub (encode i)

/-- The two ways a single decode command raises (R181, R184, R185). -/
def State.StepRaisedBy (s : State) (i : Instr) (t : State) : Prop :=
  t = s.raise .illegalCommand 3 (encode i) ∨ s.DecodeFailedBy i t

theorem State.StepRaisedBy.errInfo {s t : State} {i : Instr} (h : s.StepRaisedBy i t) : t.errInfo = encode i := by
  rcases h with rfl | ⟨-, h⟩
  · rfl
  · exact congrArg State.errInfo h

theorem State.StepRaisedBy.precise {s t : State} {i : Instr} (h : s.StepRaisedBy i t) :
    (t.err = .illegalCommand → t = s.raise .illegalCommand 3 (encode i)) ∧
    (t.err ≠ .illegalCommand → t = s.decodeFail t.err t.errSub (encode i)) := by
  rcases h with rfl | ⟨hne, h⟩
  · exact ⟨fun _ => rfl, fun hne => absurd rfl hne⟩
  · exact ⟨fun hill => absurd hill hne, fun _ => h⟩

theorem State.RaisedBy.of_next {s t : State} {i : Instr} {e : ErrCode} {sub : BitVec 4}
    (h : (.next (s.raise e sub (encode i)) : Result) = .next t) : s.RaisedBy i t := by
  obtain rfl := Host.Outcome.next.inj h
  rfl

theorem unpackStep_decodeFailedBy {i : Instr} {s t : State} (h : unpackStep (encode i) s = .error t) :
    s.DecodeFailedBy i t := by
  obtain ⟨e, sub, rfl, herr⟩ := unpackStep_error h
  refine ⟨?_, rfl⟩
  rcases herr with ⟨rfl, -⟩ | ⟨rfl, -⟩ | ⟨rfl, -⟩ <;> exact nofun

/-- The check at the end of the stream raises `MalformedInput(1)` off the root only. -/
theorem endCheck_raises {w : Word} {s : State} (hl : s.Live) (he : (endCheck w s).err ≠ .none) :
    s.cur ≠ s.root ∧ endCheck w s = s.decodeFail .malformedInput 1 w := by
  by_cases hcur : s.cur = s.root
  · rw [endCheck_of_atRoot w hcur] at he
    exact absurd hl he
  · exact ⟨hcur, endCheck_of_not_atRoot w hcur⟩

section
variable {s t : State} (hl : s.Live) (he : t.err ≠ .none)
include hl he

/-- A command that answers a state without an error has raised none. -/
theorem not_next_of_live {u : State} (hu : u.err = s.err) : (.next u : Result) ≠ .next t := fun h =>
  he (Host.Outcome.next.inj h ▸ hu.trans hl)

theorem exec_count_raises {sym : BitVec 8} (h : exec (.count sym) s = .next t) : s.RaisedBy (.count sym) t := by
  by_cases hf : s.flock = true
  · exact .of_next ((exec_count_of_locked hl sym hf).symm.trans h)
  · by_cases htotal : s.total = s.params.cntMax
    · exact .of_next ((exec_count_of_full hl sym hf htotal).symm.trans h)
    · exact absurd ((exec_count_of_room hl sym hf htotal).symm.trans h) (not_next_of_live hl he rfl)

theorem exec_genc_raises (h : exec .genc s = .next t) : s.RaisedBy .genc t := by
  rcases execGenc_cases h with rfl | ⟨-, rfl⟩ | ⟨-, leaves, rfl, -⟩ | ⟨-, -, rfl⟩
  · exact absurd hl he
  · exact absurd hl he
  · exact absurd hl he
  · rfl

theorem exec_pack_raises {sym : BitVec 8} (h : exec (.pack sym) s = .next t) : s.RaisedBy (.pack sym) t := by
  cases hv : (s.bookAt sym.toNat).valid with
  | false => exact .of_next ((exec_pack_of_unknown hl hv).symm.trans h)
  | true =>
    rcases lt_or_ge s.params.msgCap (s.msgLen + (s.bookAt sym.toNat).code.length) with hfull | hroom
    · exact .of_next ((exec_pack_of_full hl hv hfull).symm.trans h)
    · exact absurd ((exec_pack_of_room hl hv hroom).symm.trans h) (not_next_of_live hl he rfl)

theorem exec_putbit_raises {bit : Bool} (h : exec (.putbit bit) s = .next t) : s.RaisedBy (.putbit bit) t := by
  by_cases hfull : s.msgLen = s.params.msgCap
  · exact .of_next ((exec_putbit_of_full hl bit hfull).symm.trans h)
  · exact absurd ((exec_putbit_of_room hl bit hfull).symm.trans h) (not_next_of_live hl he rfl)

theorem exec_adopt_raises {node : BitVec 9} (h : exec (.adopt node) s = .next t) : s.RaisedBy (.adopt node) t := by
  obtain ⟨htaken, hrefused⟩ := adoptTakesExactlyTheWellFormedTrees s node hl
  cases htree : s.wellFormedTree node.toNat with
  | true =>
    obtain ⟨u, hu, -, hframe⟩ := htaken htree
    exact absurd (hu.symm.trans h) (not_next_of_live hl he (by rw [hframe]))
  | false =>
    rw [← encode_adopt] at hrefused
    exact .of_next ((hrefused htree).symm.trans h)

/-- Every error of a command that decodes nothing leaves the state before the command. -/
theorem exec_raises {i : Instr} (h : exec i s = .next t) (hunpack : i ≠ .unpack) (hdend : i ≠ .dend) (hdrun : i ≠ .drun) :
    s.RaisedBy i t := by
  have hlive {u : State} (hu : exec i s = .next u) (herr : u.err = s.err) : s.RaisedBy i t :=
    absurd (hu.symm.trans h) (not_next_of_live hl he herr)
  cases i with
  | nop => exact hlive (u := s) rfl rfl
  | clr => exact hlive (exec_clr_of_live hl) hl.symm
  | count sym => exact exec_count_raises hl he h
  | build =>
    obtain ⟨f, -, -, -, hu⟩ := exec_build hl
    exact hlive hu rfl
  | genc => exact exec_genc_raises hl he h
  | pack sym => exact exec_pack_raises hl he h
  | putbit bit => exact exec_putbit_raises hl he h
  | mclr => exact hlive (exec_mclr_of_live hl) rfl
  | adopt node => exact exec_adopt_raises hl he h
  | dstart => exact hlive (exec_dstart_of_live hl) rfl
  | unpack => exact absurd rfl hunpack
  | dend => exact absurd rfl hdend
  | drun => exact absurd rfl hdrun
  | errack => exact hlive (u := s) (if_pos (.inl hl)) rfl

theorem exec_unpack_raises (h : exec .unpack s = .next t) : s.StepRaisedBy .unpack t := by
  by_cases hill : s.decDone = true ∨ ¬s.msgRd < s.msgLen
  · exact .inl (Host.Outcome.next.inj ((exec_unpack_of_illegal hl hill).symm.trans h)).symm
  · obtain ⟨hd, hbit⟩ := not_or.mp hill
    have hd : s.decDone = false := eq_false_of_ne_true hd
    have hbit : s.msgRd < s.msgLen := not_not.mp hbit
    cases hstep : unpackStep (encode .unpack) s with
    | error u =>
      obtain rfl := Host.Outcome.next.inj ((exec_unpack_of_error hl hd hbit hstep).symm.trans h)
      exact .inr (unpackStep_decodeFailedBy hstep)
    | ok u =>
      obtain ⟨hframe, -⟩ := unpackStep_ok hstep
      exact absurd ((exec_unpack_of_ok hl hd hbit hstep).symm.trans h) (not_next_of_live hl he (by rw [hframe]))

theorem exec_dend_raises (h : exec .dend s = .next t) : s.StepRaisedBy .dend t := by
  by_cases hill : s.decDone = true ∨ s.msgRd ≠ s.msgLen
  · exact .inl (Host.Outcome.next.inj ((exec_dend_of_illegal hl hill).symm.trans h)).symm
  · obtain ⟨hd, hend⟩ := not_or.mp hill
    obtain rfl := Host.Outcome.next.inj ((exec_dend_of_end hl (eq_false_of_ne_true hd) (not_not.mp hend)).symm.trans h)
    obtain ⟨-, hfail⟩ := endCheck_raises hl he
    rw [hfail]
    exact .inr ⟨nofun, rfl⟩

/-- A `DRUN` that raises was illegal, or `k` turns took a bit each and left `u`, from which the next turn or the check at the
end of the stream failed (R186). -/
theorem exec_drun_raises (h : exec .drun s = .next t) :
    (s.decDone = true ∧ t = s.raise .illegalCommand 3 (encode .drun)) ∨
    (s.decDone = false ∧ ∃ (k : Nat) (u : State), unpackLoop (encode .drun) k s = .ok u ∧
      u = { s with out := u.out, cur := u.cur, msgRd := s.msgRd + k } ∧ u.DecodeFailedBy .drun t ∧
      ((u.msgRd < u.msg.length ∧ unpackStep (encode .drun) u = .error t) ∨
        (u.msg.length ≤ u.msgRd ∧ u.cur ≠ u.root ∧ t.err = .malformedInput ∧ t.errSub = 1))) := by
  rcases execDrun_cases hl h with hill | ⟨hd, u, k, hloop, hstop⟩
  · exact .inl hill
  · have hframe := unpackLoop_ok hloop
    have hrd : u.msgRd = s.msgRd + k := by rw [hframe]
    have hmsg : u.msg.length = s.msgLen := by rw [hframe]; rfl
    refine .inr ⟨hd, k, u, hloop, hframe, ?_⟩
    rcases hstop with ⟨hk, hstep⟩ | ⟨hk, rfl⟩
    · exact ⟨unpackStep_decodeFailedBy hstep, .inl ⟨by omega, hstep⟩⟩
    · obtain ⟨hcur, hfail⟩ := endCheck_raises (by rw [hframe]; exact hl) he
      rw [hfail]
      exact ⟨⟨nofun, rfl⟩, .inr ⟨by omega, hcur, rfl, rfl⟩⟩

/-- The three error registers are written together, the word of the command in `ERRINFO` (R234). -/
theorem exec_errInfo {i : Instr} (h : exec i s = .next t) : t.errInfo = encode i := by
  cases i with
  | unpack => exact (exec_unpack_raises hl he h).errInfo
  | dend => exact (exec_dend_raises hl he h).errInfo
  | drun =>
    rcases exec_drun_raises hl he h with ⟨-, rfl⟩ | ⟨-, k, u, -, -, ⟨-, hfail⟩, -⟩
    · rfl
    · exact congrArg State.errInfo hfail
  | _ => exact congrArg State.errInfo (exec_raises hl he h nofun nofun nofun)

end

/-- Settles O53: what raises writes the error registers, and a failing decode step drops the output before. -/
theorem errorsArePrecise : Obligations.ErrorsArePrecise := by
  intro i s t hl h he
  refine ⟨exec_errInfo hl he h, exec_raises hl he h, fun hi => ?step, fun hi => ?drun⟩
  case step =>
    rcases hi with rfl | rfl
    · exact (exec_unpack_raises hl he h).precise
    · exact (exec_dend_raises hl he h).precise
  case drun =>
    subst hi
    rcases exec_drun_raises hl he h with ⟨hd, rfl⟩ | ⟨hd, k, u, hloop, hframe, ⟨hne, hfail⟩, hwhere⟩
    · exact ⟨fun _ => ⟨hd, rfl⟩, fun hne => absurd rfl hne⟩
    · exact ⟨fun hill => absurd hill hne, fun _ => ⟨hd, k, u, hloop, hframe, hfail, hwhere⟩⟩

end Sys2Proof.Machine
end

section
/-!
PROOFS. The commands that run in a frozen instance (spec/45_system.md R200 to R202).
-/
namespace Sys2Proof.Machine

/-- `NOP` runs always and changes nothing (R200). -/
theorem exec_nop (s : State) : exec .nop s = .next s := rfl

/-- Without the fatal error `CLR` acts, frozen or not (R201). -/
theorem exec_clr_of_not_fatal {s : State} (hf : s.err ≠ .internalFault) : exec .clr s = .next s.cleared :=
  if_neg hf

/-- `ERRACK` is the return from a non-fatal error (R202). -/
theorem exec_errack_of_error {s : State} (he : s.err ≠ .none) (hf : s.err ≠ .internalFault) :
    exec .errack s = .next s.errClear :=
  if_neg (not_or.mpr ⟨he, hf⟩)

/-- Without an error there is nothing to return from (R202). -/
theorem exec_errack_of_live {s : State} (hl : s.Live) : exec .errack s = .next s :=
  if_pos (.inl hl)

/-- Settles O24: `NOP` has no test and no effect. -/
theorem nopChangesNothing : Obligations.NopChangesNothing :=
  ⟨by decide, exec_nop⟩

/-- Settles O25: the one test of `CLR` is that of the fatal error. -/
theorem clrLeavesTheResetStateButIdx : Obligations.ClrLeavesTheResetStateButIdx :=
  ⟨by decide, fun _ => ⟨exec_clr_of_not_fatal, fun hf => exec_of_fatal hf .clr⟩⟩

/-- Settles O26: no error and the fatal error are the two cases that `ERRACK` leaves alone. -/
theorem errackClearsTheErrorRegisters : Obligations.ErrackClearsTheErrorRegisters :=
  ⟨by decide, fun _ => ⟨exec_errack_of_error,
    fun h => h.elim exec_errack_of_live fun hf => exec_of_fatal hf .errack⟩⟩

end Sys2Proof.Machine
end

section
/-!
PROOFS. What a frozen instance does with each access, and that the first error is kept (spec/60_exceptions.md R222, R225,
R238, R239). Neither statement asks for legal parameters.
-/
namespace Sys2Proof.Machine

/-! ## What is ignored while frozen -/

/-- The three commands that run while frozen have no operand, so their word is the one that decodes to them, whatever the
parameters (R91, R98). -/
theorem encode_of_decode_of_runsFrozen {p : Params} {w : Word} {i : Instr} (h : decode p w = .ok i)
    (hi : i = .nop ∨ i = .errack ∨ i = .clr) : encode i = w := by
  unfold decode at h
  split at h
  case h_3 | h_6 =>
    obtain ⟨-, rfl⟩ := formatS_ok.mp h
    simp at hi
  case h_7 =>
    obtain ⟨-, rfl⟩ := formatB_ok.mp h
    simp at hi
  case h_9 =>
    obtain ⟨-, rfl⟩ := formatI_ok.mp h
    simp at hi
  case h_15 => exact nomatch h
  all_goals
    obtain ⟨harg, rfl⟩ := formatN_ok.mp h
    exact encode_eq_of_fields ‹_› (BitVec.eq_of_toNat_eq (Nat.lt_one_iff.mp harg).symm)

/-- Every word but those of `NOP`, `ERRACK` and `CLR` is ignored (R222). -/
theorem executeWord_of_frozen {s : State} (hl : ¬s.Live) {w : Word} (hnop : w ≠ encode .nop) (herrack : w ≠ encode .errack)
    (hclr : w ≠ encode .clr) : executeWord w s = .next s := by
  refine executeWord_ignored hl fun i hi => exec_ignored_of_frozen hl ?_ ?_ ?_
  · rintro rfl
    exact hnop (encode_of_decode_of_runsFrozen hi (by simp)).symm
  · rintro rfl
    exact herrack (encode_of_decode_of_runsFrozen hi (by simp)).symm
  · rintro rfl
    exact hclr (encode_of_decode_of_runsFrozen hi (by simp)).symm

theorem nodeWindowWrite_of_frozen {s : State} (hl : ¬s.Live) (f : NodeEntry → NodeEntry) : nodeWindowWrite f s = s :=
  if_neg fun hw => hl hw.1

theorem exec_errack_of_frozen {s : State} (hl : ¬s.Live) :
    exec .errack s = .next (if s.err = .internalFault then s else s.errClear) := by
  split
  · next hf => exact exec_of_fatal hf .errack
  · next hf => exact exec_errack_of_error hl hf

theorem exec_clr (s : State) : exec .clr s = .next (if s.err = .internalFault then s else s.cleared) := by
  split
  · next hf => exact exec_of_fatal hf .clr
  · next hf => exact exec_clr_of_not_fatal hf

/-- Settles O52: the words of the three commands run them, and every other write but that of `IDX` meets a test of `ERR`. -/
theorem frozenInstanceRunsOnlyNopErrackAndClr : Obligations.FrozenInstanceRunsOnlyNopErrackAndClr := by
  intro s hl
  have hwindow (offset : Nat) (v : Word) (h : offset = 0x30 ∨ offset = 0x34 ∨ offset = 0x38) :
      performAccess (.write offset 4 v) s = .next s := by
    rw [performAccess_nodeWindow h, nodeWindowWrite_of_frozen hl]
  exact ⟨executeWord_of_ok (w := 0x00000000) (i := .nop) rfl,
    (executeWord_of_ok (w := 0x0D000000) (i := .errack) rfl).trans (exec_errack_of_frozen hl),
    (executeWord_of_ok (w := 0x01000000) (i := .clr) rfl).trans (exec_clr s),
    fun _ hnop herrack hclr => executeWord_of_frozen hl hnop herrack hclr,
    fun _ => exec_ignored_of_frozen hl,
    hwindow,
    fun v => performAccess_write (offset := 0x28) (by decide) (by decide) (by decide) v s,
    fun _ h4 hmax => performAccess_read h4 hmax s⟩

/-! ## What becomes of the error registers -/

/-- The three error registers of `t` are those of `s`. -/
def State.SameError (s t : State) : Prop := t.err = s.err ∧ t.errSub = s.errSub ∧ t.errInfo = s.errInfo

/-- The three error registers are cleared (R202, R238). -/
def State.NoError (t : State) : Prop := t.err = .none ∧ t.errSub = 0 ∧ t.errInfo = 0

theorem State.SameError.refl (s : State) : s.SameError s := ⟨rfl, rfl, rfl⟩

/-- A word keeps the error, or is that of a command that clears a non-fatal one. -/
theorem executeWord_error {s t : State} (hl : ¬s.Live) {w : Word} (h : executeWord w s = .next t) :
    s.SameError t ∨ (s.err ≠ .internalFault ∧ t.NoError) := by
  cases hd : decode s.params w with
  | ok i =>
    rw [executeWord_of_ok hd] at h
    rcases exec_of_frozen hl i with hkept | ⟨hf, u, hu, hclear⟩
    · obtain rfl := Host.Outcome.next.inj (hkept.symm.trans h)
      exact .inl (.refl s)
    · obtain rfl := Host.Outcome.next.inj (hu.symm.trans h)
      exact .inr ⟨hf, hclear⟩
  | error e =>
    obtain rfl := Host.Outcome.next.inj (((executeWord_of_error hd).trans (whenLive_of_frozen hl _)).symm.trans h)
    exact .inl (.refl s)

theorem writeReg_error {s : State} (hl : ¬s.Live) (r : Reg) (v : Word) : s.SameError (writeReg r v s) := by
  have hwindow (f : NodeEntry → NodeEntry) : s.SameError (nodeWindowWrite f s) := by
    rw [nodeWindowWrite_of_frozen hl]
    exact .refl s
  cases r with
  | idx => exact ⟨rfl, rfl, rfl⟩
  | nodeK => exact hwindow (·.setK s.params v)
  | nodeF => exact hwindow (·.setF s.params v)
  | nodeC => exact hwindow (·.setC s.params v)
  | _ => exact .refl s

/-- An access keeps the error or clears it, the fatal one by reset only (R225, R239). -/
theorem performAccess_error {s t : State} (hl : ¬s.Live) {a : Access} (h : performAccess a s = .next t) :
    s.SameError t ∨ (t.NoError ∧ (s.err = .internalFault → a = .reset)) := by
  cases a with
  | read offset width =>
    simp only [performAccess] at h
    split at h
    · obtain rfl := Host.Outcome.next.inj h
      exact .inl ⟨rfl, rfl, rfl⟩
    · exact nomatch h
  | write offset width v =>
    simp only [performAccess, hostWrite] at h
    split at h
    · split at h
      · exact (executeWord_error hl h).imp_right fun ⟨hf, hclear⟩ => ⟨hclear, fun hfatal => absurd hfatal hf⟩
      · obtain rfl := Host.Outcome.next.inj h
        exact .inl (writeReg_error hl _ v)
    · exact nomatch h
  | reset =>
    obtain rfl := Host.Outcome.next.inj h
    exact .inr ⟨⟨rfl, rfl, rfl⟩, fun _ => rfl⟩

/-- Settles O55: an idle step keeps all, and the access that a step takes was waiting first. -/
theorem firstErrorIsKeptUntilItIsCleared : Obligations.FirstErrorIsKeptUntilItIsCleared := by
  intro s t hl h
  cases hp : s.pending with
  | nil =>
    obtain rfl := Host.Outcome.next.inj ((step_of_idle hp).symm.trans h)
    exact ⟨.inl (State.SameError.refl s), .inl⟩
  | cons a rest =>
    rw [step_of_pending hp] at h
    rcases performAccess_error (s := s.takeAccess rest) hl h with hsame | ⟨hclear, hreset⟩
    · exact ⟨.inl hsame, fun hf => .inl (hsame.1.trans hf)⟩
    · exact ⟨.inr hclear, fun hf => .inr ⟨rest, by rw [hreset hf]⟩⟩

end Sys2Proof.Machine
end

section
/-!
PROOFS. Which command raises which error with which sub-cause (spec/60_exceptions.md R223 to R232).
-/
namespace Sys2Proof.Machine

/-- The table of R223 to R232: the command may raise the error with the sub-cause. `BUILD` has no row: its priority structure
meets no `EMPTY` entry (R135 item 5). -/
inductive Raises : Instr → ErrCode → BitVec 4 → Prop where
  | unknownSymbol (sym : BitVec 8) : Raises (.pack sym) .unknownSymbol 0
  | endOffRoot {i : Instr} (hi : i = .dend ∨ i = .drun) : Raises i .malformedInput 1
  | noTree {i : Instr} (hi : i = .unpack ∨ i = .drun) : Raises i .malformedInput 2
  | lostCursor {i : Instr} (hi : i = .unpack ∨ i = .drun) : Raises i .malformedInput 3
  | emptyChild {i : Instr} (hi : i = .unpack ∨ i = .drun) : Raises i .internalFault 2
  | emptyInWalk : Raises .genc .internalFault 3
  | wrongState {i : Instr} (hi : (∃ sym, i = .count sym) ∨ i = .unpack ∨ i = .dend ∨ i = .drun) :
      Raises i .illegalCommand 3
  | countOverflow (sym : BitVec 8) : Raises (.count sym) .countOverflow 0
  | msgOverflow {i : Instr} (hi : (∃ sym, i = .pack sym) ∨ ∃ bit, i = .putbit bit) : Raises i .msgOverflow 0
  | outOverflow {i : Instr} (hi : i = .unpack ∨ i = .drun) : Raises i .outOverflow 0
  | badTree (node : BitVec 9) : Raises (.adopt node) .badTree 0

theorem Raises.of_raise {i : Instr} {e : ErrCode} {sub : BitVec 4} (hr : Raises i e sub) {s t : State} {w : Word}
    (h : (.next (s.raise e sub w) : Result) = .next t) : Raises i t.err t.errSub := by
  obtain rfl := Host.Outcome.next.inj h
  exact hr

theorem unpackStep_error_raises {i : Instr} (hi : i = .unpack ∨ i = .drun) {w : Word} {s t : State}
    (h : unpackStep w s = .error t) : Raises i t.err t.errSub := by
  obtain ⟨e, sub, rfl, herr⟩ := unpackStep_error h
  rcases herr with ⟨rfl, rfl⟩ | ⟨rfl, rfl | rfl⟩ | ⟨rfl, rfl⟩
  · exact .outOverflow hi
  · exact .noTree hi
  · exact .lostCursor hi
  · exact .emptyChild hi

section
variable {s t : State} (hl : s.Live) (he : t.err ≠ .none)
include hl he

theorem exec_count_error {sym : BitVec 8} (h : exec (.count sym) s = .next t) : Raises (.count sym) t.err t.errSub := by
  by_cases hf : s.flock = true
  · exact .of_raise (.wrongState (.inl ⟨sym, rfl⟩)) ((exec_count_of_locked hl sym hf).symm.trans h)
  · by_cases htotal : s.total = s.params.cntMax
    · exact .of_raise (.countOverflow sym) ((exec_count_of_full hl sym hf htotal).symm.trans h)
    · exact absurd ((exec_count_of_room hl sym hf htotal).symm.trans h) (not_next_of_live hl he rfl)

theorem exec_genc_error (h : exec .genc s = .next t) : Raises .genc t.err t.errSub := by
  rcases execGenc_cases h with rfl | ⟨-, rfl⟩ | ⟨-, leaves, rfl, -⟩ | ⟨-, -, rfl⟩
  · exact absurd hl he
  · exact absurd hl he
  · exact absurd hl he
  · exact .emptyInWalk

theorem exec_pack_error {sym : BitVec 8} (h : exec (.pack sym) s = .next t) : Raises (.pack sym) t.err t.errSub := by
  cases hv : (s.bookAt sym.toNat).valid with
  | false => exact .of_raise (.unknownSymbol sym) ((exec_pack_of_unknown hl hv).symm.trans h)
  | true =>
    rcases lt_or_ge s.params.msgCap (s.msgLen + (s.bookAt sym.toNat).code.length) with hfull | hroom
    · exact .of_raise (.msgOverflow (.inl ⟨sym, rfl⟩)) ((exec_pack_of_full hl hv hfull).symm.trans h)
    · exact absurd ((exec_pack_of_room hl hv hroom).symm.trans h) (not_next_of_live hl he rfl)

theorem exec_putbit_error {bit : Bool} (h : exec (.putbit bit) s = .next t) : Raises (.putbit bit) t.err t.errSub := by
  by_cases hfull : s.msgLen = s.params.msgCap
  · exact .of_raise (.msgOverflow (.inr ⟨bit, rfl⟩)) ((exec_putbit_of_full hl bit hfull).symm.trans h)
  · exact absurd ((exec_putbit_of_room hl bit hfull).symm.trans h) (not_next_of_live hl he rfl)

theorem exec_adopt_error {node : BitVec 9} (h : exec (.adopt node) s = .next t) : Raises (.adopt node) t.err t.errSub := by
  obtain ⟨htaken, hrefused⟩ := adoptTakesExactlyTheWellFormedTrees s node hl
  cases htree : s.wellFormedTree node.toNat with
  | true =>
    obtain ⟨u, hu, -, hframe⟩ := htaken htree
    exact absurd (hu.symm.trans h) (not_next_of_live hl he (by rw [hframe]))
  | false => exact .of_raise (.badTree node) ((hrefused htree).symm.trans h)

theorem exec_unpack_error (h : exec .unpack s = .next t) : Raises .unpack t.err t.errSub := by
  by_cases hill : s.decDone = true ∨ ¬s.msgRd < s.msgLen
  · exact .of_raise (.wrongState (.inr (.inl rfl))) ((exec_unpack_of_illegal hl hill).symm.trans h)
  · obtain ⟨hd, hbit⟩ := not_or.mp hill
    have hd : s.decDone = false := eq_false_of_ne_true hd
    have hbit : s.msgRd < s.msgLen := not_not.mp hbit
    cases hstep : unpackStep (encode .unpack) s with
    | error u =>
      obtain rfl := Host.Outcome.next.inj ((exec_unpack_of_error hl hd hbit hstep).symm.trans h)
      exact unpackStep_error_raises (.inl rfl) hstep
    | ok u =>
      obtain ⟨hframe, -⟩ := unpackStep_ok hstep
      exact absurd ((exec_unpack_of_ok hl hd hbit hstep).symm.trans h) (not_next_of_live hl he (by rw [hframe]))

theorem exec_dend_error (h : exec .dend s = .next t) : Raises .dend t.err t.errSub := by
  by_cases hill : s.decDone = true ∨ s.msgRd ≠ s.msgLen
  · exact .of_raise (.wrongState (.inr (.inr (.inl rfl)))) ((exec_dend_of_illegal hl hill).symm.trans h)
  · obtain ⟨hd, hend⟩ := not_or.mp hill
    obtain rfl := Host.Outcome.next.inj ((exec_dend_of_end hl (eq_false_of_ne_true hd) (not_not.mp hend)).symm.trans h)
    obtain ⟨-, hfail⟩ := endCheck_raises hl he
    rw [hfail]
    exact .endOffRoot (.inl rfl)

theorem exec_drun_error (h : exec .drun s = .next t) : Raises .drun t.err t.errSub := by
  rcases exec_drun_raises hl he h with ⟨-, rfl⟩ | ⟨-, k, u, -, -, -, ⟨-, hstep⟩ | ⟨-, -, herr, hsub⟩⟩
  · exact .wrongState (.inr (.inr (.inr rfl)))
  · exact unpackStep_error_raises (.inr rfl) hstep
  · rw [herr, hsub]
    exact .endOffRoot (.inr rfl)

/-- Every error that a command leaves is one of its rows. -/
theorem exec_error {i : Instr} (h : exec i s = .next t) : Raises i t.err t.errSub := by
  have hlive {u : State} (hu : exec i s = .next u) (herr : u.err = s.err) : Raises i t.err t.errSub :=
    absurd (hu.symm.trans h) (not_next_of_live hl he herr)
  cases i with
  | nop => exact hlive (exec_nop s) rfl
  | clr => exact hlive (exec_clr_of_live hl) hl.symm
  | count sym => exact exec_count_error hl he h
  | build =>
    obtain ⟨f, -, -, -, hu⟩ := exec_build hl
    exact hlive hu rfl
  | genc => exact exec_genc_error hl he h
  | pack sym => exact exec_pack_error hl he h
  | putbit bit => exact exec_putbit_error hl he h
  | mclr => exact hlive (exec_mclr_of_live hl) rfl
  | adopt node => exact exec_adopt_error hl he h
  | dstart => exact hlive (exec_dstart_of_live hl) rfl
  | unpack => exact exec_unpack_error hl he h
  | dend => exact exec_dend_error hl he h
  | drun => exact exec_drun_error hl he h
  | errack => exact hlive (exec_errack_of_live hl) rfl

end

/-- Settles O54: each error has its rows in the table, which name the commands and the sub-causes. -/
theorem eachErrorComesFromItsCommands : Obligations.EachErrorComesFromItsCommands := by
  intro i s t hl h
  by_cases he : t.err = .none
  · simp [he]
  have hraises := exec_error hl he h
  generalize t.err = e, t.errSub = sub at hraises ⊢
  refine ⟨?_, ?_, ?_, ?_, ?_, ?_, ?_, ?_⟩ <;> rintro rfl
  · cases hraises with | unknownSymbol sym => exact ⟨rfl, sym, rfl⟩
  · cases hraises with
    | endOffRoot hi => exact .inl ⟨rfl, hi⟩
    | noTree hi => exact .inr ⟨.inl rfl, hi⟩
    | lostCursor hi => exact .inr ⟨.inr rfl, hi⟩
  · cases hraises with
    | emptyChild hi => exact .inr (.inl ⟨rfl, hi⟩)
    | emptyInWalk => exact .inr (.inr ⟨rfl, rfl⟩)
  · cases hraises with | wrongState hi => exact ⟨rfl, hi⟩
  · cases hraises with | countOverflow sym => exact ⟨rfl, sym, rfl⟩
  · cases hraises with | msgOverflow hi => exact ⟨rfl, hi⟩
  · cases hraises with | outOverflow hi => exact ⟨rfl, hi⟩
  · cases hraises with | badTree node => exact ⟨rfl, node, rfl⟩

end Sys2Proof.Machine
end

section
/-!
PROOFS. Reset (spec/70_reset_and_hazards.md R260, R261).
-/
namespace Sys2Proof.Machine

/-- Reset is performed in every state: it tests no error, the fatal one included (R225, R260). -/
theorem performAccess_reset (s : State) : performAccess .reset s = .next s.resetInstance := by rw [performAccess]

/-- Settles O22: `State.resetInstance` takes from the old state its parameters and the accesses waiting alone. -/
theorem resetLeavesTheResetState : Obligations.ResetLeavesTheResetState := by
  refine ⟨fun s => ?_, ?_⟩
  · rw [performAccess_reset, State.resetInstance]
  · rw [State.reset]

end Sys2Proof.Machine
end
